-- ==== Sys2Proof/Word.lean ====
section
/-! DEFINITION. The word types of the engine: what the spec treats as bits (spec/00_scope.md R7, R9). -/

namespace Sys2Proof

/-- One byte of `MEM` (spec/20_memory.md R60). -/
abbrev Byte := BitVec 8

/-- A 32-bit register or bus word (spec/10_state.md R38). -/
abbrev Word := BitVec 32

/-- The 40-bit integer register `VAL` (spec/10_state.md R27). -/
abbrev Val40 := BitVec 40

/-- A 16-byte cipher block or the 128-bit `IV`; byte 0 is the most significant (spec/10_state.md R35). -/
abbrev Block := BitVec 128

/-- A 32-byte AES-256 key; byte 0 is the most significant (spec/10_state.md R36). -/
abbrev Key := BitVec 256

end Sys2Proof
end

