-- ==== Sys2Proof/Syntax.lean ====
section
/-! DEFINITION. The 26 commands of spec/opcode_table.json and the fields of a command word (spec/30_encoding.md). -/

namespace Sys2Proof

/-- A command of the engine: one constructor per legal command word (spec/30_encoding.md R96, R102). The width and
the key selector, the only operands a word carries (R97), are part of the constructor. -/
inductive Instr where
  | srst
  | rdbe2
  | rdbe3
  | rdbe4
  | rdbe5
  | wrbe2
  | wrbe3
  | wrbe4
  | wrbe5
  | rdle4
  | wrle4
  | ztype
  | ivld
  | ivinc
  | ctrdecPc
  | ctrdecMac
  | ctrencPc
  | ctrencMac
  | sngdet
  | sngprobe
  | sngdec
  | sngenc
  | tocdec
  | tocenc
  | inflate
  | blkdec
deriving DecidableEq, Repr

/-- The fields of a 32-bit command word (spec/30_encoding.md R91). -/
structure CmdFields where
  /-- bits 7:0 -/
  opc : BitVec 8
  /-- bits 10:8, the byte width of a codec access -/
  width : BitVec 3
  /-- bit 11, must be 0 -/
  zero11 : BitVec 1
  /-- bits 13:12, the key selector of a raw counter-mode command -/
  ksel : BitVec 2
  /-- bits 31:14, must be 0 -/
  zeroHi : BitVec 18
deriving DecidableEq, Repr

/-- Which field of the word is live (spec/30_encoding.md R92). -/
inductive Format where
  | n   -- no modifier
  | w   -- width
  | k   -- key
deriving DecidableEq, Repr

/-- The 18 opcodes (spec/30_encoding.md R93). -/
inductive Opcode where
  | srst | rdbe | wrbe | rdle | wrle | ztype | ivld | ivinc | ctrdec | ctrenc
  | sngdet | sngprobe | sngdec | sngenc | tocdec | tocenc | inflate | blkdec
deriving DecidableEq, Repr

end Sys2Proof
end

