-- ==== Sys2Proof/WellFormed.lean ====
section
/-! DEFINITION. Which command words are legal (spec/30_encoding.md R91 to R96), said of a word's fields. -/

namespace Sys2Proof

/-- The format of each listed `OPC` value; every other value is illegal (spec/30_encoding.md R93). -/
def opcFormat (opc : BitVec 8) : Option Format :=
  if opc = 0x01 then some .n
  else if 0x10 ≤ opc ∧ opc ≤ 0x13 then some .w
  else if opc = 0x14 then some .n
  else if opc = 0x20 ∨ opc = 0x21 then some .n
  else if opc = 0x22 ∨ opc = 0x23 then some .k
  else if 0x28 ≤ opc ∧ opc ≤ 0x2B then some .n
  else if opc = 0x30 ∨ opc = 0x31 then some .n
  else if opc = 0x40 ∨ opc = 0x41 then some .n
  else none

/-- The widths a format-W opcode admits: big-endian 2 to 5, little-endian 4 (spec/30_encoding.md R94). -/
def widthLegal (opc : BitVec 8) (width : BitVec 3) : Bool :=
  if opc = 0x10 ∨ opc = 0x11 then decide (2 ≤ width ∧ width ≤ 5) else width == 4

/-- The key selectors a format-K opcode admits: 1 and 2 (spec/30_encoding.md R95). -/
def kselLegal (ksel : BitVec 2) : Bool :=
  ksel == 1 || ksel == 2

/-- A legal command word: reserved bits zero (R91), a listed opcode (R93), live field legal (R94, R95), dead field
zero (R92). -/
def CmdFields.wellFormed (f : CmdFields) : Bool :=
  f.zero11 == 0 && f.zeroHi == 0 &&
    match opcFormat f.opc with
    | none => false
    | some .n => f.width == 0 && f.ksel == 0
    | some .w => f.ksel == 0 && widthLegal f.opc f.width
    | some .k => f.width == 0 && kselLegal f.ksel

/-- Every `Instr` is well formed: it carries no operand, so nothing in it can be out of range (R96, R97). The checks
stand on the fields of a word, above. -/
def Instr.wellFormed (_ : Instr) : Bool := true

end Sys2Proof
end

