-- ==== Sys2Proof/Decode.lean ====
section
/-! DEFINITION. The decoder, total on 32-bit words and rejecting by name, and the encoder (spec/30_encoding.md). -/

namespace Sys2Proof

/-- Why a word is no command (spec/30_encoding.md R98); the engine reports every one as `ERR_ILLEGAL_CMD`. -/
inductive Illegal where
  /-- Bit 11 or one of bits 31:14 is set (R91). -/
  | reservedBits
  /-- `OPC` is not in the opcode map (R93). -/
  | unknownOpcode (opc : BitVec 8)
  /-- A field that the format leaves dead is not zero (R92). -/
  | deadField
  /-- The width is not one the opcode admits (R94). -/
  | illegalWidth (width : BitVec 3)
  /-- The key selector is 0 or 3 (R95). -/
  | illegalKeySelector (ksel : BitVec 2)
deriving DecidableEq, Repr

/-- The fields of a word, by bit positions (spec/30_encoding.md R91). -/
def CmdFields.ofWord (w : Word) : CmdFields where
  opc := w.extractLsb' 0 8
  width := w.extractLsb' 8 3
  zero11 := w.extractLsb' 11 1
  ksel := w.extractLsb' 12 2
  zeroHi := w.extractLsb' 14 18

/-- The opcode map (spec/30_encoding.md R93). -/
def opcodeMap : List (BitVec 8 × Opcode) :=
  [(0x01, .srst), (0x10, .rdbe), (0x11, .wrbe), (0x12, .rdle), (0x13, .wrle), (0x14, .ztype),
   (0x20, .ivld), (0x21, .ivinc), (0x22, .ctrdec), (0x23, .ctrenc),
   (0x28, .sngdet), (0x29, .sngprobe), (0x2A, .sngdec), (0x2B, .sngenc),
   (0x30, .tocdec), (0x31, .tocenc), (0x40, .inflate), (0x41, .blkdec)]

/-- A format-N word: `W` and `KSEL` are zero (R92). -/
def decodePlain (f : CmdFields) (i : Instr) : Except Illegal Instr :=
  if f.width = 0 ∧ f.ksel = 0 then .ok i else .error .deadField

/-- A format-W word: `KSEL` is zero and `W` is one of the listed widths (R92, R94). -/
def decodeWidth (f : CmdFields) (widths : List (BitVec 3 × Instr)) : Except Illegal Instr :=
  if f.ksel = 0 then
    match widths.lookup f.width with
    | some i => .ok i
    | none => .error (.illegalWidth f.width)
  else .error .deadField

/-- A format-K word: `W` is zero and `KSEL` is 1 (PC) or 2 (MAC) (R92, R95). -/
def decodeKey (f : CmdFields) (pc mac : Instr) : Except Illegal Instr :=
  if f.width = 0 then
    if f.ksel = 1 then .ok pc
    else if f.ksel = 2 then .ok mac
    else .error (.illegalKeySelector f.ksel)
  else .error .deadField

/-- The command of an opcode and the fields beside it (spec/30_encoding.md R93 to R95). -/
def decodeOpcode (f : CmdFields) : Opcode → Except Illegal Instr
  | .srst => decodePlain f .srst
  | .rdbe => decodeWidth f [(2, .rdbe2), (3, .rdbe3), (4, .rdbe4), (5, .rdbe5)]
  | .wrbe => decodeWidth f [(2, .wrbe2), (3, .wrbe3), (4, .wrbe4), (5, .wrbe5)]
  | .rdle => decodeWidth f [(4, .rdle4)]
  | .wrle => decodeWidth f [(4, .wrle4)]
  | .ztype => decodePlain f .ztype
  | .ivld => decodePlain f .ivld
  | .ivinc => decodePlain f .ivinc
  | .ctrdec => decodeKey f .ctrdecPc .ctrdecMac
  | .ctrenc => decodeKey f .ctrencPc .ctrencMac
  | .sngdet => decodePlain f .sngdet
  | .sngprobe => decodePlain f .sngprobe
  | .sngdec => decodePlain f .sngdec
  | .sngenc => decodePlain f .sngenc
  | .tocdec => decodePlain f .tocdec
  | .tocenc => decodePlain f .tocenc
  | .inflate => decodePlain f .inflate
  | .blkdec => decodePlain f .blkdec

/-- Decode the fields of a word (spec/30_encoding.md R91 to R96). -/
def decodeFields (f : CmdFields) : Except Illegal Instr :=
  if f.zero11 = 0 ∧ f.zeroHi = 0 then
    match opcodeMap.lookup f.opc with
    | some op => decodeOpcode f op
    | none => .error (.unknownOpcode f.opc)
  else .error .reservedBits

/-- Decode a command word: step (2) of spec/30_encoding.md R90. -/
def decode (w : Word) : Except Illegal Instr :=
  decodeFields (CmdFields.ofWord w)

/-- What the decoder reads from a table row's bits; a command word is one 32-bit bus value, not bytes of `MEM`
(spec/20_memory.md R63), and bits above `nbits` are 0. -/
def decodeTableWord (nbits w : Nat) : Option Instr :=
  match decode (BitVec.ofNat 32 (w % 2 ^ nbits)) with
  | .ok i => some i
  | .error _ => none

/-- A word from its fields: `OPC | (W << 8) | (KSEL << 12)` (spec/30_encoding.md R102), the reserved bits beside. -/
def CmdFields.toWord (f : CmdFields) : Word :=
  f.opc.setWidth 32 ||| (f.width.setWidth 32 <<< 8) ||| (f.zero11.setWidth 32 <<< 11)
    ||| (f.ksel.setWidth 32 <<< 12) ||| (f.zeroHi.setWidth 32 <<< 14)

/-- Fields of a command: opcode, width and key selector, reserved bits zero. -/
def fieldsOf (opc : BitVec 8) (width : BitVec 3) (ksel : BitVec 2) : CmdFields :=
  { opc := opc, width := width, zero11 := 0, ksel := ksel, zeroHi := 0 }

/-- The fields of each command (spec/30_encoding.md R93 to R95). -/
def Instr.fields : Instr → CmdFields
  | .srst => fieldsOf 0x01 0 0
  | .rdbe2 => fieldsOf 0x10 2 0
  | .rdbe3 => fieldsOf 0x10 3 0
  | .rdbe4 => fieldsOf 0x10 4 0
  | .rdbe5 => fieldsOf 0x10 5 0
  | .wrbe2 => fieldsOf 0x11 2 0
  | .wrbe3 => fieldsOf 0x11 3 0
  | .wrbe4 => fieldsOf 0x11 4 0
  | .wrbe5 => fieldsOf 0x11 5 0
  | .rdle4 => fieldsOf 0x12 4 0
  | .wrle4 => fieldsOf 0x13 4 0
  | .ztype => fieldsOf 0x14 0 0
  | .ivld => fieldsOf 0x20 0 0
  | .ivinc => fieldsOf 0x21 0 0
  | .ctrdecPc => fieldsOf 0x22 0 1
  | .ctrdecMac => fieldsOf 0x22 0 2
  | .ctrencPc => fieldsOf 0x23 0 1
  | .ctrencMac => fieldsOf 0x23 0 2
  | .sngdet => fieldsOf 0x28 0 0
  | .sngprobe => fieldsOf 0x29 0 0
  | .sngdec => fieldsOf 0x2A 0 0
  | .sngenc => fieldsOf 0x2B 0 0
  | .tocdec => fieldsOf 0x30 0 0
  | .tocenc => fieldsOf 0x31 0 0
  | .inflate => fieldsOf 0x40 0 0
  | .blkdec => fieldsOf 0x41 0 0

/-- The command word of a command. -/
def encode (i : Instr) : Word :=
  i.fields.toWord

end Sys2Proof
end

