-- ==== Sys2Proof/Config.lean ====
section
/-! DEFINITION. What an implementation fixes (spec/00_scope.md R6), the constants the spec fixes, and the free values. -/

namespace Sys2Proof

/-- The parameters of the step relation (spec/00_scope.md R6, spec/10_state.md R43), with the constraints R6 puts on
them. A state carries one (`State.cfg`) and no step changes it (log 1): a statement over all states is a statement over
all parameters. `windowBigEndian` is the model's own: the byte order of a WORD access to the `MEM` window, which the
spec does not state (log 7). -/
structure Config where
  /-- `MEMSIZE`, the size of `MEM` in bytes. -/
  memSize : Nat
  /-- `MEM_BASE`, the host-bus offset of the `MEM` window. -/
  memBase : Nat
  /-- `KEY_ARC`, the archive key of the table of contents. -/
  keyArc : Key
  /-- `KEY_PC`. -/
  keyPc : Key
  /-- `KEY_MAC`. -/
  keyMac : Key
  /-- `ZSIG`, the two-byte zlib stream signature, first byte in the upper half. -/
  zsig : BitVec 16
  /-- The byte order of a word access to the `MEM` window (log 7, DESIGN CHOICE). -/
  windowBigEndian : Bool
  memSize_pos : 1 ≤ memSize := by decide
  memSize_le : memSize ≤ 2 ^ 31 := by decide
  memBase_aligned : memBase % 4 = 0 := by decide
  memBase_ge : 0x100 ≤ memBase := by decide
deriving DecidableEq, Repr

/-- First little-endian word of an encrypted container (spec/00_scope.md R6). -/
def sngMagic : Nat := 0x4A

/-- Second little-endian word of an encrypted container (spec/00_scope.md R6). -/
def sngVersion : Nat := 0x03

/-- Granule of the table-of-contents cipher range, the `& ~31` (spec/00_scope.md R6). -/
def tocTrunc : Nat := 32

/-- The value of the `ID` register (spec/10_state.md R33). -/
def engineId : Word := 0x52434301

/-- FREE VALUE (log 3): the byte that address `a` of `MEM` drew at power-on number `n` (spec/10_state.md R42,
spec/70_reset_and_hazards.md R351). Nothing is known of it. -/
opaque Config.powerOnByte : (n a : Nat) → Byte

/-- FREE VALUE (log 2): the bytes of `KEY_ARC` are not in the spec (N1). -/
opaque Config.someKeyArc : Key

/-- FREE VALUE (log 2): the bytes of `KEY_PC` are not in the spec (N1). -/
opaque Config.someKeyPc : Key

/-- FREE VALUE (log 2): the bytes of `KEY_MAC` are not in the spec (N1). -/
opaque Config.someKeyMac : Key

/-- The parameters of `State.reset` (log 2, DESIGN CHOICE): `MEMSIZE` as the spec's vectors take it
(spec/95_test_vectors.md), `MEM_BASE` and `ZSIG` as spec/00_scope.md R6 suggests, keys unknown. -/
def Config.board : Config where
  memSize := 0x1000
  memBase := 0x00010000
  keyArc := Config.someKeyArc
  keyPc := Config.someKeyPc
  keyMac := Config.someKeyMac
  zsig := 0x78DA
  windowBigEndian := true

/-- The test key set T (spec/95_test_vectors.md section 2), for tests only: these are not the format's keys (N1). -/
def Config.vectors : Config where
  memSize := 0x1000
  memBase := 0x00010000
  keyArc := 0x1F1E1D1C1B1A191817161514131211100F0E0D0C0B0A09080706050403020100
  keyPc := 0x000102030405060708090A0B0C0D0E0F101112131415161718191A1B1C1D1E1F
  keyMac := 0x603DEB1015CA71BE2B73AEF0857D77811F352C073B6108D72D9810A30914DFF4
  zsig := 0x78DA
  windowBigEndian := true

end Sys2Proof
end

