-- ==== Sys2Proof/Machine/State.lean ====
section
/-! DEFINITION. The state of the engine (spec/10_state.md R20), its stops, and the state after reset (R42). -/

namespace Sys2Proof.Machine

/-- `STATUS.CODE`: exactly the 13 values of spec/60_exceptions.md R311 (U8: no other is ever produced). -/
inductive ResultCode where
  | ok | illegalCmd | bounds | overlap | range | length | overrun
  | cryptoPlatform | infHeader | infData | infTrunc | infOverflow | infAdler
deriving DecidableEq, Repr

/-- The defined fields of `STATUS` (spec/10_state.md R31); bits 31:10 read 0 (U2). -/
structure Status where
  code : ResultCode
  sizeMis : Bool
  sticky : Bool
deriving DecidableEq, Repr

/-- `ECTX.PLAT`: the platform detected for a container (spec/10_state.md R32); 3 is never stored (U3). -/
inductive Platform where
  | unknown | pc | mac
deriving DecidableEq, Repr

/-- `ECTX.TPLAT`: the requested target platform (spec/10_state.md R32); 3 is never stored (U3). -/
inductive Target where
  | none | pc | mac
deriving DecidableEq, Repr

/-- The defined fields of `ECTX` (spec/10_state.md R32); its reserved bits read 0 (U2). -/
structure Ectx where
  plat : Platform
  tplat : Target
  enc : Bool
deriving DecidableEq, Repr

/-- The bytes of `MEM` written since power-on, by rising address (log 4). An unlisted address holds no written byte:
it reads as the byte it drew at power-on (log 3). -/
abbrev Memory := List Host.Cell

/-- What happens to the engine from outside, one a step (spec/00_scope.md R3; log 5). Offsets are host-bus byte
offsets (spec/10_state.md R38). -/
inductive HostAction where
  /-- A 32-bit word read (`rd`, spec/30_encoding.md R100). -/
  | readWord (off : Nat)
  /-- A 32-bit word write (`wr`); at offset 0 it executes a command (spec/10_state.md R30). -/
  | writeWord (off : Nat) (w : Word)
  /-- A read of `n` consecutive bytes (`mr`). -/
  | readBytes (off n : Nat)
  /-- A write of consecutive bytes (`mw`). -/
  | writeBytes (off : Nat) (bs : List Byte)
  /-- Power-on reset: an external event, not the host's (spec/70_reset_and_hazards.md R350; log 9). -/
  | powerOn
deriving DecidableEq, Repr

/-- What the host got from its last action (log 6). -/
inductive HostReply where
  | none
  | word (w : Word)
  | bytes (bs : List Byte)
deriving DecidableEq, Repr

/-- The model stops with a fault nowhere: every command completes (spec/60_exceptions.md R310) and nothing is stuck
(spec/93_implementation_defined.md, after U22). So the type has no constructor (log 16, DEDUCED). -/
inductive Fault where
deriving DecidableEq, Repr

/-- Why a step has no meaning. -/
inductive Refusal where
  /-- Raised by an arm of `exec` whose instruction has no meaning yet; safe. No arm raises it now. -/
  | notModelled (mnemonic : String)
  /-- Raised by the host bus: a register access that is narrower than a word or not word-aligned
  (spec/10_state.md R39, U9: "a model refuses it"); safe. -/
  | hostNarrowOrMisaligned (off : Nat)
  /-- Raised by the host bus: an access at or beyond `MEM_BASE + MEMSIZE` (spec/10_state.md R40, U10: "a model
  refuses it"); safe. -/
  | hostBeyondWindow (off : Nat)
deriving DecidableEq, Repr

/-- The architectural state (spec/10_state.md R20), the parameters it runs under (R43, log 1), and the model's own
fields `draw` (log 3), `inputs` (log 5) and `reply` (log 6). `ID` and `MEMSZ` are constants (R33, R34): the operation
that reads registers answers them. -/
structure State where
  /-- the parameters; no step changes them -/
  cfg : Config
  /-- `CMD` (R30) -/
  cmd : Word
  /-- `STATUS` (R31) -/
  status : Status
  /-- `SRC` (R21) -/
  src : Word
  /-- `DST` (R22) -/
  dst : Word
  /-- `LEN` (R23) -/
  len : Word
  /-- `XLEN` (R24) -/
  xlen : Word
  /-- `OUTLEN` (R25) -/
  outlen : Word
  /-- `INLEN` (R26) -/
  inlen : Word
  /-- `VAL` (R27) -/
  val : Val40
  /-- `BSIZE` (R29) -/
  bsize : Word
  /-- `ECTX` (R32) -/
  ectx : Ectx
  /-- `IV` (R35), `IV[0]` most significant -/
  iv : Block
  /-- `MEM` (R37) -/
  mem : Memory
  /-- which power-on drew the unwritten bytes of `MEM` (the model's own) -/
  draw : Nat
  /-- the host actions not yet performed, oldest first (the model's own) -/
  inputs : List HostAction
  /-- what the last host action returned (the model's own) -/
  reply : HostReply
deriving DecidableEq, Repr

/-- The power-on state under the parameters `c`, with `MEM` as drawn at power-on number `n` (spec/10_state.md R42,
spec/70_reset_and_hazards.md R350): every register 0. -/
def State.resetWith (c : Config) (n : Nat) : State where
  cfg := c
  cmd := 0
  status := { code := .ok, sizeMis := false, sticky := false }
  src := 0
  dst := 0
  len := 0
  xlen := 0
  outlen := 0
  inlen := 0
  val := 0
  bsize := 0
  ectx := { plat := .unknown, tplat := .none, enc := false }
  iv := 0
  mem := []
  draw := n
  inputs := []
  reply := .none

/-- The machine right after power-on reset (spec/70_reset_and_hazards.md R350), under `Config.board` (log 2). -/
def State.reset : State :=
  State.resetWith Config.board 0

end Sys2Proof.Machine
end

