-- ==== Sys2Proof/Machine/Flags.lean ====
section
/-! DEFINITION. `STATUS` and `ECTX` as bus words, and what a write of them stores (spec/10_state.md R31, R32). -/

namespace Sys2Proof.Machine

/-- The number of a result code (spec/60_exceptions.md R311). -/
def ResultCode.toByte : ResultCode → BitVec 8
  | .ok => 0x00
  | .illegalCmd => 0x01
  | .bounds => 0x02
  | .overlap => 0x03
  | .range => 0x04
  | .length => 0x05
  | .overrun => 0x06
  | .cryptoPlatform => 0x10
  | .infHeader => 0x20
  | .infData => 0x21
  | .infTrunc => 0x22
  | .infOverflow => 0x23
  | .infAdler => 0x24

/-- `STATUS` as the host reads it: `CODE` 7:0, `SIZEMIS` 8, `STICKY` 9, the rest 0 (spec/10_state.md R31). -/
def Status.toWord (s : Status) : Word :=
  s.code.toByte.setWidth 32 ||| ((BitVec.ofBool s.sizeMis).setWidth 32 <<< 8)
    ||| ((BitVec.ofBool s.sticky).setWidth 32 <<< 9)

/-- A host write of `STATUS`: bit 9 set clears `STICKY`, nothing else changes (spec/10_state.md R31). -/
def Status.hostWrite (s : Status) (w : Word) : Status :=
  { s with sticky := s.sticky && !w.getLsbD 9 }

/-- `STATUS` at completion: `CODE`, `SIZEMIS`, and `STICKY` set by a non-zero code (spec/60_exceptions.md R312). -/
def Status.completed (s : Status) (code : ResultCode) (sizeMis : Bool) : Status :=
  { code := code, sizeMis := sizeMis, sticky := s.sticky || code != .ok }

/-- The number of a platform (spec/10_state.md R32). -/
def Platform.toBits : Platform → BitVec 2
  | .unknown => 0
  | .pc => 1
  | .mac => 2

/-- What a write of `PLAT` stores; the reserved 3 stores 0 (spec/10_state.md R32, U3). -/
def Platform.ofBits (b : BitVec 2) : Platform :=
  if b = 1 then .pc else if b = 2 then .mac else .unknown

/-- The number of a target platform (spec/10_state.md R32). -/
def Target.toBits : Target → BitVec 2
  | .none => 0
  | .pc => 1
  | .mac => 2

/-- What a write of `TPLAT` stores; the reserved 3 stores 0 (spec/10_state.md R32, U3). -/
def Target.ofBits (b : BitVec 2) : Target :=
  if b = 1 then .pc else if b = 2 then .mac else .none

/-- `ECTX` as the host reads it: `PLAT` 1:0, `TPLAT` 5:4, `ENC` 8, the rest 0 (spec/10_state.md R32). -/
def Ectx.toWord (e : Ectx) : Word :=
  e.plat.toBits.setWidth 32 ||| (e.tplat.toBits.setWidth 32 <<< 4) ||| ((BitVec.ofBool e.enc).setWidth 32 <<< 8)

/-- What a host write of `ECTX` stores; reserved bits are ignored (spec/10_state.md R32). -/
def Ectx.ofWord (w : Word) : Ectx where
  plat := Platform.ofBits (w.extractLsb' 0 2)
  tplat := Target.ofBits (w.extractLsb' 4 2)
  enc := w.getLsbD 8

end Sys2Proof.Machine
end

