-- ==== Sys2Proof/Machine/Operands.lean ====
section
/-! DEFINITION. Byte sequences and integers (spec/00_scope.md R10, R11), bounds and overlap (R12), block and key
bytes, the key selector, and `ZType`. -/

namespace Sys2Proof.Machine

/-- `BE(b)`: the big-endian value of a byte sequence (spec/00_scope.md R11). -/
def beNat (bs : List Byte) : Nat :=
  bs.foldl (fun v b => v * 256 + b.toNat) 0

/-- `LE(b)`: the little-endian value of a byte sequence (spec/00_scope.md R11). -/
def leNat : List Byte → Nat
  | [] => 0
  | b :: bs => b.toNat + 256 * leNat bs

/-- `toLE(v, n)`: the `n` bytes of `v`, least significant first (spec/00_scope.md R11). -/
def toLE (v : Nat) : Nat → List Byte
  | 0 => []
  | n + 1 => BitVec.ofNat 8 v :: toLE (v / 256) n

/-- `toBE(v, n)`: the `n` bytes of `v`, most significant first (spec/00_scope.md R11). -/
def toBE (v n : Nat) : List Byte :=
  (toLE v n).reverse

/-- The 16 bytes of a block, byte 0 first (spec/10_state.md R35). -/
def blockBytes (b : Block) : List Byte :=
  toBE b.toNat 16

/-- The block made of 16 bytes, byte 0 first (spec/10_state.md R35). -/
def bytesBlock (bs : List Byte) : Block :=
  BitVec.ofNat 128 (beNat bs)

/-- The 32 bytes of a key, byte 0 first (spec/10_state.md R36). -/
def keyBytes (k : Key) : List Byte :=
  toBE k.toNat 32

/-- The element-wise exclusive or, over the shorter of the two sequences (spec/00_scope.md R10). -/
def xorBytes (a b : List Byte) : List Byte :=
  List.zipWith (fun x y => x ^^^ y) a b

/-- `InBounds(a, n)`, over the integers: no wrap-around (spec/00_scope.md R12, spec/20_memory.md R61, U21). -/
abbrev InBounds (c : Config) (a n : Nat) : Prop :=
  a + n ≤ c.memSize

/-- `Overlap(a, n, b, m)` (spec/00_scope.md R12); an empty range overlaps nothing. -/
abbrev Overlap (a n b m : Nat) : Prop :=
  0 < n ∧ 0 < m ∧ a < b + m ∧ b < a + n

/-- The two keys a counter-mode command can select (spec/30_encoding.md R95, spec/10_state.md R36). -/
inductive KeySel where
  | pc | mac
deriving DecidableEq, Repr

/-- `Key(p)` for PC and MAC (spec/10_state.md R36). -/
def keyOf (c : Config) : KeySel → Key
  | .pc => c.keyPc
  | .mac => c.keyMac

/-- The key of a detected platform; UNKNOWN has none (spec/10_state.md R36). -/
def platformKey : Platform → Option KeySel
  | .unknown => none
  | .pc => some .pc
  | .mac => some .mac

/-- The key of a target platform; NONE has none (spec/10_state.md R36). -/
def targetKey : Target → Option KeySel
  | .none => none
  | .pc => some .pc
  | .mac => some .mac

/-- The loop of `ZType` after `w` widenings of the bound (spec/40_intcodec.md R128); `n` bounds the repetitions,
three of which reach `2^32`. -/
def zTypeLoop (b : Nat) : (n w bound : Nat) → Nat
  | 0, w, _ => w
  | n + 1, w, bound => if b ≤ bound * 256 then w + 1 else zTypeLoop b n (w + 1) (bound * 256)

/-- `ZType(b)`: the width of a block-size table element (spec/40_intcodec.md R128). -/
def zType (b : Word) : Nat :=
  zTypeLoop b.toNat 3 1 256

end Sys2Proof.Machine
end

