-- ==== Sys2Proof/Machine/Ops.lean ====
section
/-! DEFINITION. The named operations over `MEM` and the registers, and the completion of a command, the one shared
operation that reports a result (spec/60_exceptions.md R312). There is no trap to enter or return from (R319). -/

namespace Sys2Proof.Machine

/-- The canonical form of memory (log 4): strictly rising addresses. -/
abbrev Memory.wf (m : Memory) : Prop :=
  m.Pairwise fun c d => c.1 < d.1

/-- Every listed address exists (spec/10_state.md R37). -/
abbrev Memory.within (size : Nat) (m : Memory) : Prop :=
  ∀ c ∈ m, c.1 < size

/-- The byte written to an address since power-on, if one was. -/
def Memory.written (a : Nat) : Memory → Option Byte
  | [] => none
  | c :: m => if c.1 = a then some c.2 else Memory.written a m

/-- Write one byte, keeping the canonical form. -/
def Memory.insert (a : Nat) (b : Byte) : Memory → Memory
  | [] => [(a, b)]
  | c :: m =>
    if a < c.1 then (a, b) :: c :: m
    else if a = c.1 then (a, b) :: m
    else c :: Memory.insert a b m

/-- Write consecutive bytes from an address. -/
def Memory.insertAll (a : Nat) : List Byte → Memory → Memory
  | [], m => m
  | b :: bs, m => Memory.insertAll (a + 1) bs (Memory.insert a b m)

/-- `MEM[a]`: the byte last written there, else the byte drawn at power-on, the same at every read
(spec/20_memory.md R67, spec/10_state.md R42). -/
def State.byteAt (s : State) (a : Nat) : Byte :=
  match Memory.written a s.mem with
  | some b => b
  | none => Config.powerOnByte s.draw a

/-- `MemRead(a, n)` (spec/00_scope.md R12). -/
def State.readBytes (s : State) (a : Nat) : Nat → List Byte
  | 0 => []
  | n + 1 => s.byteAt a :: s.readBytes (a + 1) n

/-- `MemWrite(a, |bs|, bs)` (spec/00_scope.md R12). -/
def State.writeBytes (s : State) (a : Nat) (bs : List Byte) : State :=
  { s with mem := Memory.insertAll a bs s.mem }

/-- Completion of a command: the last action of every command but `SRST` (spec/60_exceptions.md R312). -/
def State.complete (s : State) (code : ResultCode) (sizeMis : Bool) : State :=
  { s with status := s.status.completed code sizeMis }

/-- `done` (spec/00_scope.md R13). -/
def State.done (s : State) : State :=
  s.complete .ok false

/-- `done(SIZEMIS)` when `mis` holds, else `done` (spec/00_scope.md R13). -/
def State.doneSize (s : State) (mis : Bool) : State :=
  s.complete .ok mis

/-- `raise E` (spec/00_scope.md R13). -/
def State.raise (s : State) (e : ResultCode) : State :=
  s.complete e false

/-- A data command begins: `OUTLEN <- 0`, `INLEN <- 0` (spec/30_encoding.md R90, step 3). -/
def State.beginData (s : State) : State :=
  { s with outlen := 0, inlen := 0 }

/-- The registers of the host bus (spec/10_state.md R38). -/
inductive Reg where
  | cmd | status | src | dst | len | xlen | outlen | inlen | valLo | valHi | bsize | ectx
  | iv0 | iv1 | iv2 | iv3 | id | memsz
deriving DecidableEq, Repr

/-- The register map (spec/10_state.md R38). -/
def registerMap : List (Nat × Reg) :=
  [(0x00, .cmd), (0x04, .status), (0x08, .src), (0x0C, .dst), (0x10, .len), (0x14, .xlen), (0x18, .outlen),
   (0x1C, .inlen), (0x20, .valLo), (0x24, .valHi), (0x28, .bsize), (0x2C, .ectx), (0x30, .iv0), (0x34, .iv1),
   (0x38, .iv2), (0x3C, .iv3), (0x40, .id), (0x44, .memsz)]

/-- Word `k` of `IV`: bytes `4k` to `4k+3`, big-endian (spec/10_state.md R35). -/
def ivWord (iv : Block) (k : Nat) : Word :=
  iv.extractLsb' (96 - 32 * k) 32

/-- `IV` with word `k` replaced (spec/10_state.md R35). -/
def ivSetWord (iv : Block) (k : Nat) (w : Word) : Block :=
  (iv &&& ~~~((0xFFFFFFFF#128) <<< (96 - 32 * k))) ||| (w.setWidth 128 <<< (96 - 32 * k))

/-- What the host reads from a register; no side effect (spec/10_state.md R39). -/
def State.readReg (s : State) : Reg → Word
  | .cmd => s.cmd
  | .status => s.status.toWord
  | .src => s.src
  | .dst => s.dst
  | .len => s.len
  | .xlen => s.xlen
  | .outlen => s.outlen
  | .inlen => s.inlen
  | .valLo => s.val.extractLsb' 0 32
  | .valHi => (s.val.extractLsb' 32 8).setWidth 32
  | .bsize => s.bsize
  | .ectx => s.ectx.toWord
  | .iv0 => ivWord s.iv 0
  | .iv1 => ivWord s.iv 1
  | .iv2 => ivWord s.iv 2
  | .iv3 => ivWord s.iv 3
  | .id => engineId
  | .memsz => BitVec.ofNat 32 s.cfg.memSize

/-- What a host write stores in a register (spec/10_state.md R25 to R35, R39). Writes to `OUTLEN`, `INLEN`, `ID` and
`MEMSZ` are ignored (U4). A write to `CMD` stores the word; running the command is the host bus's (R30). -/
def State.writeReg (s : State) (w : Word) : Reg → State
  | .cmd => { s with cmd := w }
  | .status => { s with status := s.status.hostWrite w }
  | .src => { s with src := w }
  | .dst => { s with dst := w }
  | .len => { s with len := w }
  | .xlen => { s with xlen := w }
  | .outlen => s
  | .inlen => s
  | .valLo => { s with val := s.val.extractLsb' 32 8 ++ w }
  | .valHi => { s with val := w.extractLsb' 0 8 ++ s.val.extractLsb' 0 32 }
  | .bsize => { s with bsize := w }
  | .ectx => { s with ectx := Ectx.ofWord w }
  | .iv0 => { s with iv := ivSetWord s.iv 0 w }
  | .iv1 => { s with iv := ivSetWord s.iv 1 w }
  | .iv2 => { s with iv := ivSetWord s.iv 2 w }
  | .iv3 => { s with iv := ivSetWord s.iv 3 w }
  | .id => s
  | .memsz => s

/-- Every register of the bus map at its reset value, `MEM` untouched (spec/10_state.md R42, spec/45_system.md
R300). -/
def State.resetRegisters (s : State) : State :=
  { s with
    cmd := 0
    status := { code := .ok, sizeMis := false, sticky := false }
    src := 0, dst := 0, len := 0, xlen := 0, outlen := 0, inlen := 0
    val := 0, bsize := 0
    ectx := { plat := .unknown, tplat := .none, enc := false }
    iv := 0 }

/-- Power-on reset: the registers reset and every byte of `MEM` drawn anew (spec/70_reset_and_hazards.md R350;
log 9). -/
def State.powerOn (s : State) : State :=
  { s.resetRegisters with mem := [], draw := s.draw + 1 }

end Sys2Proof.Machine
end

