-- ==== Sys2Proof/Machine/Codec.lean ====
section
/-! DEFINITION. The integer codec commands (spec/40_intcodec.md R121 to R125). -/

namespace Sys2Proof.Machine

/-- A read of `w` bytes at `SRC` into `VAL`, zero-extended, by the byte order `value` (spec/40_intcodec.md R121,
R123). -/
def codecRead (value : List Byte → Nat) (w : Nat) (s : State) : State :=
  if InBounds s.cfg s.src.toNat w then
    { s with
      val := BitVec.ofNat 40 (value (s.readBytes s.src.toNat w))
      src := s.src + BitVec.ofNat 32 w }.done
  else s.raise .bounds

/-- A write of `VAL` in `w` bytes at `DST`, by the byte order `layout`; the range of the value is checked first
(spec/40_intcodec.md R122, R124). -/
def codecWrite (layout : Nat → Nat → List Byte) (w : Nat) (s : State) : State :=
  if 2 ^ (8 * w) ≤ s.val.toNat then s.raise .range
  else if InBounds s.cfg s.dst.toNat w then
    { s.writeBytes s.dst.toNat (layout s.val.toNat w) with dst := s.dst + BitVec.ofNat 32 w }.done
  else s.raise .bounds

/-- `RDBE.2` (spec/40_intcodec.md R121). -/
def execRdbe2 (s : State) : Host.Outcome State Fault Refusal :=
  .next (codecRead beNat 2 s)

/-- `RDBE.3` (spec/40_intcodec.md R121). -/
def execRdbe3 (s : State) : Host.Outcome State Fault Refusal :=
  .next (codecRead beNat 3 s)

/-- `RDBE.4` (spec/40_intcodec.md R121). -/
def execRdbe4 (s : State) : Host.Outcome State Fault Refusal :=
  .next (codecRead beNat 4 s)

/-- `RDBE.5` (spec/40_intcodec.md R121). -/
def execRdbe5 (s : State) : Host.Outcome State Fault Refusal :=
  .next (codecRead beNat 5 s)

/-- `WRBE.2` (spec/40_intcodec.md R122). -/
def execWrbe2 (s : State) : Host.Outcome State Fault Refusal :=
  .next (codecWrite toBE 2 s)

/-- `WRBE.3` (spec/40_intcodec.md R122). -/
def execWrbe3 (s : State) : Host.Outcome State Fault Refusal :=
  .next (codecWrite toBE 3 s)

/-- `WRBE.4` (spec/40_intcodec.md R122). -/
def execWrbe4 (s : State) : Host.Outcome State Fault Refusal :=
  .next (codecWrite toBE 4 s)

/-- `WRBE.5` (spec/40_intcodec.md R122). -/
def execWrbe5 (s : State) : Host.Outcome State Fault Refusal :=
  .next (codecWrite toBE 5 s)

/-- `RDLE.4` (spec/40_intcodec.md R123). -/
def execRdle4 (s : State) : Host.Outcome State Fault Refusal :=
  .next (codecRead leNat 4 s)

/-- `WRLE.4` (spec/40_intcodec.md R124). -/
def execWrle4 (s : State) : Host.Outcome State Fault Refusal :=
  .next (codecWrite toLE 4 s)

/-- `ZTYPE` (spec/40_intcodec.md R125). -/
def execZtype (s : State) : Host.Outcome State Fault Refusal :=
  .next { s with val := BitVec.ofNat 40 (zType s.bsize) }.done

end Sys2Proof.Machine
end

