-- ==== Sys2Proof/Machine/Aes.lean ====
section
/-! DEFINITION. The AES-256 forward cipher function `AES256Enc` (spec/41_aes256.md R150 to R158). -/

namespace Sys2Proof.Machine

/-- The S-box table, one row of sixteen bytes per upper nibble (spec/41_aes256.md R153). -/
def sBoxRows : List Block :=
  [0x637C777BF26B6FC53001672BFED7AB76, 0xCA82C97DFA5947F0ADD4A2AF9CA472C0,
   0xB7FD9326363FF7CC34A5E5F171D83115, 0x04C723C31896059A071280E2EB27B275,
   0x09832C1A1B6E5AA0523BD6B329E32F84, 0x53D100ED20FCB15B6ACBBE394A4C58CF,
   0xD0EFAAFB434D338545F9027F503C9FA8, 0x51A3408F929D38F5BCB6DA2110FFF3D2,
   0xCD0C13EC5F974417C4A77E3D645D1973, 0x60814FDC222A908846EEB814DE5E0BDB,
   0xE0323A0A4906245CC2D3AC629195E479, 0xE7C8376D8DD54EA96C56F4EA657AAE08,
   0xBA78252E1CA6B4C6E8DD741F4BBD8B8A, 0x703EB5664803F60E613557B986C11D9E,
   0xE1F8981169D98E949B1E87E9CE5528DF, 0x8CA1890DBFE6426841992D0FB054BB16]

/-- `SBOX[x]`: row `x[7:4]`, column `x[3:0]` (spec/41_aes256.md R153). -/
def sBox (x : Byte) : Byte :=
  (sBoxRows.getD (x.toNat / 16) 0).extractLsb' (8 * (15 - x.toNat % 16)) 8

/-- `xtime(a)`, the product with `02` in GF(2^8) (spec/41_aes256.md R155). -/
def xtime (a : Byte) : Byte :=
  if a.msb then (a <<< 1) ^^^ 0x1B else a <<< 1

/-- The product with `03` (spec/41_aes256.md R155). -/
def times3 (a : Byte) : Byte :=
  xtime a ^^^ a

/-- `s[r][c]` of a cipher state held as the sixteen bytes of its block, `s[r][c] = B[r + 4c]`
(spec/41_aes256.md R152). -/
def cell (s : List Byte) (r c : Nat) : Byte :=
  s.getD (r + 4 * c) 0

/-- The cipher state whose byte `s[r][c]` is `f r c` (spec/41_aes256.md R152). -/
def cells (f : (r c : Nat) → Byte) : List Byte :=
  (List.range 16).map fun i => f (i % 4) (i / 4)

/-- `SubBytes` (spec/41_aes256.md R153). -/
def subBytes (s : List Byte) : List Byte :=
  s.map sBox

/-- `ShiftRows` (spec/41_aes256.md R154). -/
def shiftRows (s : List Byte) : List Byte :=
  cells fun r c => cell s r ((c + r) % 4)

/-- `MixColumns`: row `r` is `02` times its own byte, `03` times the next row's, and the other two rows' bytes, the
rows taken in a circle (spec/41_aes256.md R156). -/
def mixColumns (s : List Byte) : List Byte :=
  cells fun r c =>
    xtime (cell s r c) ^^^ times3 (cell s ((r + 1) % 4) c) ^^^ cell s ((r + 2) % 4) c ^^^ cell s ((r + 3) % 4) c

/-- A key schedule: 60 words of four bytes each (spec/41_aes256.md R158). -/
abbrev KeySchedule := List (List Byte)

/-- `AddRoundKey(state, w, round)` (spec/41_aes256.md R157). -/
def addRoundKey (w : KeySchedule) (round : Nat) (s : List Byte) : List Byte :=
  cells fun r c => cell s r c ^^^ (w.getD (4 * round + c) []).getD r 0

/-- `RotWord` (spec/41_aes256.md R158). -/
def rotWord (w : List Byte) : List Byte :=
  w.drop 1 ++ w.take 1

/-- `RCON[j] = 02^(j-1)`, `j` from 1 to 7 (spec/41_aes256.md R158). -/
def rcon (j : Nat) : Byte :=
  1#8 <<< (j - 1)

/-- The temporary word `t` of step `i` of the key expansion (spec/41_aes256.md R158). -/
def scheduleTemp (i : Nat) (prev : List Byte) : List Byte :=
  if i % 8 = 0 then xorBytes ((rotWord prev).map sBox) [rcon (i / 8), 0, 0, 0]
  else if i % 8 = 4 then prev.map sBox
  else prev

/-- `n` further steps of the key expansion from the words so far (spec/41_aes256.md R158). -/
def expandKey : (n : Nat) → KeySchedule → KeySchedule
  | 0, w => w
  | n + 1, w =>
    let i := w.length
    expandKey n (w ++ [xorBytes (w.getD (i - 8) []) (scheduleTemp i (w.getD (i - 1) []))])

/-- `KeyExpansion(K)` (spec/41_aes256.md R158). -/
def keyExpansion (k : Key) : KeySchedule :=
  expandKey 52 ((List.range 8).map fun i => ((keyBytes k).drop (4 * i)).take 4)

/-- Rounds `round` to `round + n - 1`, with `MixColumns` (spec/41_aes256.md R151). -/
def fullRounds (w : KeySchedule) : (n round : Nat) → List Byte → List Byte
  | 0, _, s => s
  | n + 1, round, s => fullRounds w n (round + 1) (addRoundKey w round (mixColumns (shiftRows (subBytes s))))

/-- The cipher under an expanded key (spec/41_aes256.md R151, R159). -/
def encryptBlock (w : KeySchedule) (b : Block) : Block :=
  bytesBlock (addRoundKey w 14 (shiftRows (subBytes (fullRounds w 13 1 (addRoundKey w 0 (blockBytes b))))))

/-- `AES256Enc(K, B)` (spec/41_aes256.md R151). -/
def aes256Enc (k : Key) (b : Block) : Block :=
  encryptBlock (keyExpansion k) b

end Sys2Proof.Machine
end

