-- ==== Sys2Proof/Machine/Chaining.lean ====
section
/-! DEFINITION. The two chainings: the counter mode `CtrXform` (spec/42_ctr_sng.md R181, R182) and the truncated CFB
mode `TocCfb` (spec/43_toc_cfb.md R221). -/

namespace Sys2Proof.Machine

/-- `Inc128(iv)`: the 128-bit big-endian counter plus one, modulo 2^128 (spec/42_ctr_sng.md R181). -/
def inc128 (iv : Block) : Block :=
  iv + 1

/-- `n` blocks of the counter mode: each is xored with the encrypted counter, which is then incremented, after the
last one too (spec/42_ctr_sng.md R182). -/
def ctrBlocks (w : KeySchedule) : (n : Nat) → Block → List Byte → List Byte × Block
  | 0, iv, _ => ([], iv)
  | n + 1, iv, data =>
    let rest := ctrBlocks w n (inc128 iv) (data.drop 16)
    (xorBytes (data.take 16) (blockBytes (encryptBlock w iv)) ++ rest.1, rest.2)

/-- `CtrXform(K, iv, data)`, answering `(out, ivf)` (spec/42_ctr_sng.md R182). -/
def ctrXform (k : Key) (iv : Block) (data : List Byte) : List Byte × Block :=
  ctrBlocks (keyExpansion k) ((data.length + 15) / 16) iv data

/-- The direction of `TocCfb` (spec/43_toc_cfb.md R221). -/
inductive CfbDir where
  | dec | enc
deriving DecidableEq, Repr

/-- The next feedback block: the ciphertext block, which is the input when decrypting and the output when encrypting
(spec/43_toc_cfb.md R221). -/
def cfbFeedback (dir : CfbDir) (inp out : List Byte) : List Byte :=
  match dir with
  | .dec => inp
  | .enc => out

/-- `n` blocks of CFB from the feedback block, then the tail unchanged (spec/43_toc_cfb.md R221). -/
def cfbBlocks (w : KeySchedule) (dir : CfbDir) : (n : Nat) → Block → List Byte → List Byte
  | 0, _, data => data
  | n + 1, fb, data =>
    let inp := data.take 16
    let out := xorBytes inp (blockBytes (encryptBlock w fb))
    out ++ cfbBlocks w dir n (bytesBlock (cfbFeedback dir inp out)) (data.drop 16)

/-- `TocCfb(K, data, dir)`: zero initialization vector, the range rounded down to a multiple of 32
(spec/43_toc_cfb.md R221). -/
def tocCfb (k : Key) (data : List Byte) (dir : CfbDir) : List Byte :=
  cfbBlocks (keyExpansion k) dir ((data.length - data.length % tocTrunc) / 16) 0 data

end Sys2Proof.Machine
end

