-- ==== Sys2Proof/Machine/Counter.lean ====
section
/-! DEFINITION. The raw counter-mode commands (spec/42_ctr_sng.md R183 to R186). -/

namespace Sys2Proof.Machine

/-- The range checks of a command that transforms `LEN` bytes at `SRC` into `LEN` bytes at `DST`, disjoint or with
`DST = SRC`: the error it raises, if any (spec/20_memory.md R61, R70). -/
def transformCheck (s : State) : Option ResultCode :=
  if ¬ InBounds s.cfg s.src.toNat s.len.toNat ∨ ¬ InBounds s.cfg s.dst.toNat s.len.toNat then some .bounds
  else if s.dst ≠ s.src ∧ Overlap s.src.toNat s.len.toNat s.dst.toNat s.len.toNat then some .overlap
  else none

/-- The counter mode over `[SRC, SRC+LEN)` under a key, from and into `IV` (spec/42_ctr_sng.md R185, R186). -/
def counterCommand (k : Key) (s : State) : State :=
  let s := s.beginData
  match transformCheck s with
  | some e => s.raise e
  | none =>
    let r := ctrXform k s.iv (s.readBytes s.src.toNat s.len.toNat)
    { s.writeBytes s.dst.toNat r.1 with iv := r.2, outlen := s.len, inlen := s.len }.done

/-- `IVLD` (spec/42_ctr_sng.md R183). -/
def execIvld (s : State) : Host.Outcome State Fault Refusal :=
  .next (if InBounds s.cfg s.src.toNat 16 then { s with iv := bytesBlock (s.readBytes s.src.toNat 16) }.done
    else s.raise .bounds)

/-- `IVINC` (spec/42_ctr_sng.md R184). -/
def execIvinc (s : State) : Host.Outcome State Fault Refusal :=
  .next { s with iv := inc128 s.iv }.done

/-- `CTRDEC.PC` (spec/42_ctr_sng.md R185). -/
def execCtrdecPc (s : State) : Host.Outcome State Fault Refusal :=
  .next (counterCommand (keyOf s.cfg .pc) s)

/-- `CTRDEC.MAC` (spec/42_ctr_sng.md R185). -/
def execCtrdecMac (s : State) : Host.Outcome State Fault Refusal :=
  .next (counterCommand (keyOf s.cfg .mac) s)

/-- `CTRENC.PC` (spec/42_ctr_sng.md R186). -/
def execCtrencPc (s : State) : Host.Outcome State Fault Refusal :=
  .next (counterCommand (keyOf s.cfg .pc) s)

/-- `CTRENC.MAC` (spec/42_ctr_sng.md R186). -/
def execCtrencMac (s : State) : Host.Outcome State Fault Refusal :=
  .next (counterCommand (keyOf s.cfg .mac) s)

end Sys2Proof.Machine
end

