-- ==== Sys2Proof/Machine/Sng.lean ====
section
/-! DEFINITION. The `.sng` container commands (spec/42_ctr_sng.md R187 to R193). -/

namespace Sys2Proof.Machine

/-- `Detect(base, len)` (spec/42_ctr_sng.md R188). -/
def detect (s : State) (base len : Nat) : Bool :=
  decide (8 ≤ len) && leNat (s.readBytes base 4) == sngMagic && leNat (s.readBytes (base + 4) 4) == sngVersion

/-- The signature test of one key: bytes 4 and 5 of the decrypted probe block are `ZSIG` (spec/42_ctr_sng.md R190). -/
def probeMatches (k : Key) (iv0 : Block) (zsig : BitVec 16) (c : List Byte) : Bool :=
  ((xorBytes c (blockBytes (aes256Enc k iv0))).drop 4).take 2 == toBE zsig.toNat 2

/-- `Probe(base)`, answering `(plat, iv0)`: PC is tried first, then MAC with the same IV (spec/42_ctr_sng.md R190). -/
def probe (s : State) (base : Nat) : Platform × Block :=
  let iv0 := bytesBlock (s.readBytes (base + 8) 16)
  let c := s.readBytes (base + 24) 16
  if probeMatches s.cfg.keyPc iv0 s.cfg.zsig c then (.pc, iv0)
  else if probeMatches s.cfg.keyMac iv0 s.cfg.zsig c then (.mac, iv0)
  else (.unknown, iv0)

/-- `SNGDET` (spec/42_ctr_sng.md R189). -/
def execSngdet (s : State) : Host.Outcome State Fault Refusal :=
  .next (if InBounds s.cfg s.src.toNat s.len.toNat then
      { s with ectx := { s.ectx with enc := detect s s.src.toNat s.len.toNat } }.done
    else s.raise .bounds)

/-- `SNGPROBE` (spec/42_ctr_sng.md R191). -/
def execSngprobe (s : State) : Host.Outcome State Fault Refusal :=
  .next (if s.len.toNat < 40 then s.raise .length
    else if InBounds s.cfg s.src.toNat s.len.toNat then
      let r := probe s s.src.toNat
      { s with ectx := { s.ectx with plat := r.1 }, iv := r.2 }.done
    else s.raise .bounds)

/-- The part of `SNGDEC` after all its pre-checks: the context is written, then the payload is decrypted if its
platform is known (spec/42_ctr_sng.md R192). -/
def sngDecrypt (s : State) : State :=
  let n := s.len.toNat - 24
  let r := probe s s.src.toNat
  let s' := { s with ectx := { s.ectx with plat := r.1, enc := true }, iv := r.2 }
  match platformKey r.1 with
  | none => s'.raise .cryptoPlatform
  | some p =>
    let x := ctrXform (keyOf s.cfg p) r.2 (s.readBytes (s.src.toNat + 24) n)
    { s'.writeBytes s.dst.toNat x.1 with iv := x.2, outlen := BitVec.ofNat 32 n, inlen := s.len }.done

/-- `SNGDEC` (spec/42_ctr_sng.md R192). -/
def execSngdec (s : State) : Host.Outcome State Fault Refusal :=
  let s := s.beginData
  let n := s.len.toNat - 24
  .next (if ¬ InBounds s.cfg s.src.toNat s.len.toNat then s.raise .bounds
    else if detect s s.src.toNat s.len.toNat = false then
      { s with ectx := { s.ectx with plat := .unknown, enc := false } }.done
    else if s.len.toNat < 40 then s.raise .length
    else if ¬ InBounds s.cfg s.dst.toNat n then s.raise .bounds
    else if s.dst.toNat ≠ s.src.toNat + 24 ∧ Overlap s.src.toNat s.len.toNat s.dst.toNat n then s.raise .overlap
    else sngDecrypt s)

/-- The part of `SNGENC` that encrypts for target `p`, its length and range checks first: the IV is the container's
own, bytes 8 to 23 at `DST` (spec/42_ctr_sng.md R193, spec/90_conflicts.md C1). -/
def sngEncrypt (p : KeySel) (s : State) : State :=
  let n := s.len.toNat - 24
  if s.len.toNat < 40 then s.raise .length
  else if ¬ InBounds s.cfg s.src.toNat n ∨ ¬ InBounds s.cfg s.dst.toNat s.len.toNat then s.raise .bounds
  else if s.src.toNat ≠ s.dst.toNat + 24 ∧ Overlap s.src.toNat n s.dst.toNat s.len.toNat then s.raise .overlap
  else
    let iv0 := bytesBlock (s.readBytes (s.dst.toNat + 8) 16)
    let x := ctrXform (keyOf s.cfg p) iv0 (s.readBytes s.src.toNat n)
    { s.writeBytes (s.dst.toNat + 24) x.1 with
      iv := x.2, outlen := BitVec.ofNat 32 n, inlen := BitVec.ofNat 32 n }.done

/-- `SNGENC` (spec/42_ctr_sng.md R193): no-ops and the undetermined platform first, in that order. -/
def execSngenc (s : State) : Host.Outcome State Fault Refusal :=
  let s := s.beginData
  .next (if s.ectx.enc = false then s.done
    else match targetKey s.ectx.tplat with
      | none => s.done
      | some t =>
        match platformKey s.ectx.plat with
        | none => s.raise .cryptoPlatform
        | some p => if p = t then s.done else sngEncrypt t s)

end Sys2Proof.Machine
end

