-- ==== Sys2Proof/Machine/System.lean ====
section
/-! DEFINITION. The system command (spec/45_system.md). -/

namespace Sys2Proof.Machine

/-- `SRST` (spec/45_system.md R300): the registers at their reset values, `MEM` as it was, no completion step. -/
def execSrst (s : State) : Host.Outcome State Fault Refusal :=
  .next s.resetRegisters

end Sys2Proof.Machine
end

