-- ==== Sys2Proof/Machine/Toc.lean ====
section
/-! DEFINITION. The table-of-contents cipher commands (spec/43_toc_cfb.md R222, R223). -/

namespace Sys2Proof.Machine

/-- `TocCfb` over `[SRC, SRC+LEN)` into `[DST, DST+LEN)` under `KEY_ARC` (spec/43_toc_cfb.md R222, R223). -/
def tocCommand (dir : CfbDir) (s : State) : State :=
  let s := s.beginData
  match transformCheck s with
  | some e => s.raise e
  | none =>
    { s.writeBytes s.dst.toNat (tocCfb s.cfg.keyArc (s.readBytes s.src.toNat s.len.toNat) dir) with
      outlen := s.len, inlen := s.len }.done

/-- `TOCDEC` (spec/43_toc_cfb.md R222). -/
def execTocdec (s : State) : Host.Outcome State Fault Refusal :=
  .next (tocCommand .dec s)

/-- `TOCENC` (spec/43_toc_cfb.md R223). -/
def execTocenc (s : State) : Host.Outcome State Fault Refusal :=
  .next (tocCommand .enc s)

end Sys2Proof.Machine
end

