-- ==== Sys2Proof/Machine/Huffman.lean ====
section
/-! DEFINITION. The inflate unit's decoder variables, its input and output primitives, and Huffman codes
(spec/44_inflate.md R242 to R246, R250 to R252). -/

namespace Sys2Proof.Machine

/-- The errors `Inflate` can return (spec/44_inflate.md R241, R258). -/
inductive InfError where
  | header | data | trunc | overflow | adler
deriving DecidableEq, Repr

/-- The decoder variables, local to one call (spec/44_inflate.md R242, spec/10_state.md R41): `input` is `src` from
`pos` on, `out` the output so far, NEWEST byte first, `limit` is `xlen`. -/
structure Inflater where
  input : List Byte
  pos : Nat
  bitbuf : Nat
  bitcnt : Nat
  out : List Byte
  limit : Nat
deriving DecidableEq, Repr

/-- A decoding step: it answers a value, or fails; either way with the decoder as it then is, so that a failure keeps
the bytes emitted before it (spec/44_inflate.md R241). -/
abbrev Inf := EStateM InfError Inflater

/-- `NextByte()` (spec/44_inflate.md R245). -/
def nextByte : Inf Nat := fun d =>
  match d.input with
  | [] => .error .trunc d
  | b :: rest => .ok b.toNat { d with input := rest, pos := d.pos + 1 }

/-- `GetBit()` (spec/44_inflate.md R245). -/
def getBit : Inf Nat := fun d =>
  if d.bitcnt = 0 then
    match nextByte d with
    | .ok b d' => .ok (b % 2) { d' with bitbuf := b / 2, bitcnt := 7 }
    | .error e d' => .error e d'
  else .ok (d.bitbuf % 2) { d with bitbuf := d.bitbuf / 2, bitcnt := d.bitcnt - 1 }

/-- `Bits(n)`: the first bit read is the least significant (spec/44_inflate.md R245, R246). -/
def bits : (n : Nat) → Inf Nat
  | 0 => pure 0
  | n + 1 => do
    let b ← getBit
    let v ← bits n
    pure (b + 2 * v)

/-- `AlignByte()` (spec/44_inflate.md R245). -/
def alignByte : Inf Unit := fun d =>
  .ok () { d with bitbuf := 0, bitcnt := 0 }

/-- `Emit(b)` (spec/44_inflate.md R243). -/
def emit (b : Byte) : Inf Unit := fun d =>
  if d.out.length = d.limit then .error .overflow d
  else .ok () { d with out := b :: d.out }

/-- The byte-by-byte copy of a back-reference; it may overlap its own output (spec/44_inflate.md R256). -/
def copyBack (distance : Nat) : (n : Nat) → Inf Unit
  | 0 => pure ()
  | n + 1 => do
    let d ← get
    emit (d.out.getD (distance - 1) 0)
    copyBack distance n

/-- One entry of a code's partial map `(length, bits) -> symbol` (spec/44_inflate.md R250). -/
structure CodeEntry where
  len : Nat
  bits : Nat
  sym : Nat
deriving DecidableEq, Repr

/-- A Huffman code (spec/44_inflate.md R250). -/
abbrev Code := List CodeEntry

/-- `count[l]`, 0 for `l = 0` (spec/44_inflate.md R250). -/
def lengthCount (lens : List Nat) (l : Nat) : Nat :=
  if l = 0 then 0 else lens.count l

/-- The first code of length `l` (spec/44_inflate.md R250). -/
def firstCode (lens : List Nat) : (l : Nat) → Nat
  | 0 => 0
  | l + 1 => (firstCode lens l + lengthCount lens l) * 2

/-- The codes of the symbols from `sym` on, in symbol order; `next` gives the next unused code of each length
(spec/44_inflate.md R250). -/
def assignCodes : (sym : Nat) → (next : List Nat) → (lens : List Nat) → Code
  | _, _, [] => []
  | sym, next, l :: lens =>
    if l = 0 then assignCodes (sym + 1) next lens
    else
      { len := l, bits := next.getD l 0, sym := sym } ::
        assignCodes (sym + 1) (next.set l (next.getD l 0 + 1)) lens

/-- `BuildCode(lens)` (spec/44_inflate.md R250). -/
def buildCode (lens : List Nat) : Code :=
  assignCodes 0 ((List.range 16).map (firstCode lens)) lens

/-- `Kraft(lens)` in units of `2^(-15)`: the set is complete when it is `2^15` (spec/44_inflate.md R250). -/
def kraft (lens : List Nat) : Nat :=
  (lens.map fun l => if l = 0 then 0 else 2 ^ (15 - l)).sum

/-- `Kraft = 1` in the units of `kraft`. -/
def kraftOne : Nat := 2 ^ 15

/-- The symbol whose code is the `l` bits `v`, if one is (spec/44_inflate.md R250). -/
def codeSymbol (code : Code) (l v : Nat) : Option Nat :=
  (code.find? fun e => e.len == l && e.bits == v).map CodeEntry.sym

/-- The loop of `Decode` with `n` lengths left to try, from length `l` with `v` read so far
(spec/44_inflate.md R251). -/
def decodeFrom (code : Code) : (n l v : Nat) → Inf Nat
  | 0, _, _ => throw .data
  | n + 1, l, v => do
    let b ← getBit
    match codeSymbol code l (v * 2 + b) with
    | some s => pure s
    | none => decodeFrom code n (l + 1) (v * 2 + b)

/-- `Decode(code)` (spec/44_inflate.md R251). -/
def decodeSymbol (code : Code) : Inf Nat :=
  decodeFrom code 15 1 0

/-- The literal/length lengths of the fixed codes (spec/44_inflate.md R252). -/
def fixedLitLens : List Nat :=
  List.replicate 144 8 ++ List.replicate 112 9 ++ List.replicate 24 7 ++ List.replicate 8 8

/-- The distance lengths of the fixed codes (spec/44_inflate.md R252). -/
def fixedDistLens : List Nat :=
  List.replicate 32 5

/-- `FixedCodes()` (spec/44_inflate.md R252). -/
def fixedCodes : Code × Code :=
  (buildCode fixedLitLens, buildCode fixedDistLens)

end Sys2Proof.Machine
end

