-- ==== Sys2Proof/Machine/Inflate.lean ====
section
/-! DEFINITION. The function `Inflate`: the zlib container, the blocks and the compressed data
(spec/44_inflate.md R241, R244, R247 to R249, R253 to R257). -/

namespace Sys2Proof.Machine

/-- `ReadZlibHeader()` (spec/44_inflate.md R244). -/
def readZlibHeader : Inf Unit := do
  let cmf ← nextByte
  let flg ← nextByte
  if cmf % 16 ≠ 8 ∨ cmf / 16 > 7 ∨ (cmf * 256 + flg) % 31 ≠ 0 ∨ flg / 32 % 2 = 1 then throw .header
  else pure ()

/-- `for i = 1 .. n: Emit(NextByte())` (spec/44_inflate.md R249). -/
def copyStored : (n : Nat) → Inf Unit
  | 0 => pure ()
  | n + 1 => do
    let b ← nextByte
    emit (BitVec.ofNat 8 b)
    copyStored n

/-- `StoredBlock()` (spec/44_inflate.md R249). -/
def storedBlock : Inf Unit := do
  alignByte
  let l0 ← nextByte
  let l1 ← nextByte
  let n0 ← nextByte
  let n1 ← nextByte
  if l0 + 256 * l1 ≠ (n0 + 256 * n1) ^^^ 0xFFFF then throw .data
  else copyStored (l0 + 256 * l1)

/-- `n` values of three bits, in the order read (spec/44_inflate.md R253). -/
def readTriples : (n : Nat) → Inf (List Nat)
  | 0 => pure []
  | n + 1 => do
    let v ← bits 3
    let vs ← readTriples n
    pure (v :: vs)

/-- `ORDER`: the symbols of the code-length code in the order their lengths stand (spec/44_inflate.md R253). -/
def clOrder : List Nat :=
  [16, 17, 18, 0, 8, 7, 9, 6, 10, 5, 11, 4, 12, 3, 13, 2, 14, 1, 15]

/-- `cl[0..18]` from the lengths read, 0 where none was (spec/44_inflate.md R253). -/
def clLengths (vs : List Nat) : List Nat :=
  (List.range 19).map fun s => ((clOrder.zip vs).lookup s).getD 0

/-- The repeat of a code length symbol 16, 17 or 18: the value and how often (spec/44_inflate.md R254). -/
def repeatOf (s : Nat) (lens : List Nat) : Inf (Nat × Nat) :=
  if s = 16 then
    match lens.getLast? with
    | none => throw .data
    | some v => do
      let r ← bits 2
      pure (v, 3 + r)
  else if s = 17 then do
    let r ← bits 3
    pure (0, 3 + r)
  else do
    let r ← bits 7
    pure (0, 11 + r)

/-- The loop that decodes `total` code lengths (spec/44_inflate.md R254). Each repetition appends at least one, so
`total` repetitions, the first argument's first value, are enough. -/
def readLengths (clcode : Code) (total : Nat) : (n : Nat) → (lens : List Nat) → Inf (List Nat)
  | 0, lens => pure lens
  | n + 1, lens =>
    if total ≤ lens.length then pure lens
    else do
      let s ← decodeSymbol clcode
      if s ≤ 15 then readLengths clcode total n (lens ++ [s])
      else do
        let r ← repeatOf s lens
        if total < lens.length + r.2 then throw .data
        else readLengths clcode total n (lens ++ List.replicate r.2 r.1)

/-- The greatest of a list of lengths, 0 for none. -/
def maxLength (lens : List Nat) : Nat :=
  lens.foldl max 0

/-- The validity of the two sets of a dynamic block (spec/44_inflate.md R255); every violation is `ERR_INF_DATA`. -/
def lengthsValid (ll dl : List Nat) : Bool :=
  decide (ll.getD 256 0 ≠ 0) && decide (kraft ll ≤ kraftOne)
    && decide (kraft ll < kraftOne → maxLength ll = 1)
    && decide (kraft dl ≤ kraftOne)
    && decide (0 < kraft dl ∧ kraft dl < kraftOne → maxLength dl = 1)

/-- `DynamicCodes()` (spec/44_inflate.md R253 to R255). -/
def dynamicCodes : Inf (Code × Code) := do
  let h ← bits 5
  let d ← bits 5
  let c ← bits 4
  let hlit := h + 257
  let hdist := d + 1
  if hlit > 286 ∨ hdist > 30 then throw .data
  else do
    let vs ← readTriples (c + 4)
    if kraft (clLengths vs) ≠ kraftOne then throw .data
    else do
      let lens ← readLengths (buildCode (clLengths vs)) (hlit + hdist) (hlit + hdist) []
      let ll := lens.take hlit
      let dl := lens.drop hlit
      if lengthsValid ll dl then pure (buildCode ll, buildCode dl)
      else throw .data

/-- `LBASE` and `LEXT` from symbol 257 on (spec/44_inflate.md R256). -/
def lengthTable : List (Nat × Nat) :=
  [(3, 0), (4, 0), (5, 0), (6, 0), (7, 0), (8, 0), (9, 0), (10, 0), (11, 1), (13, 1), (15, 1), (17, 1),
   (19, 2), (23, 2), (27, 2), (31, 2), (35, 3), (43, 3), (51, 3), (59, 3), (67, 4), (83, 4), (99, 4), (115, 4),
   (131, 5), (163, 5), (195, 5), (227, 5), (258, 0)]

/-- `DBASE` and `DEXT` (spec/44_inflate.md R256). -/
def distanceTable : List (Nat × Nat) :=
  [(1, 0), (2, 0), (3, 0), (4, 0), (5, 1), (7, 1), (9, 2), (13, 2), (17, 3), (25, 3), (33, 4), (49, 4),
   (65, 5), (97, 5), (129, 6), (193, 6), (257, 7), (385, 7), (513, 8), (769, 8), (1025, 9), (1537, 9),
   (2049, 10), (3073, 10), (4097, 11), (6145, 11), (8193, 12), (12289, 12), (16385, 13), (24577, 13)]

/-- The match of a length symbol `s`, 257 to 285: its distance and the copy (spec/44_inflate.md R256). -/
def matchCopy (dist : Code) (s : Nat) : Inf Unit := do
  let lrow := lengthTable.getD (s - 257) (0, 0)
  let lext ← bits lrow.2
  let dsym ← decodeSymbol dist
  if dsym ≥ 30 then throw .data
  else do
    let drow := distanceTable.getD dsym (0, 0)
    let dext ← bits drow.2
    let d ← get
    if drow.1 + dext > d.out.length then throw .data
    else copyBack (drow.1 + dext) (lrow.1 + lext)

/-- `CompressedData(lit, dist)` (spec/44_inflate.md R256). The first argument after the codes bounds the repetitions;
each reads at least one bit, so a bound above the number of bits left is never reached (log 11). -/
def compressedData (lit dist : Code) : (n : Nat) → Inf Unit
  | 0 => throw .trunc
  | n + 1 => do
    let s ← decodeSymbol lit
    if s ≤ 255 then do
      emit (BitVec.ofNat 8 s)
      compressedData lit dist n
    else if s = 256 then pure ()
    else if s ≥ 286 then throw .data
    else do
      matchCopy dist s
      compressedData lit dist n

/-- The body of one block of type `btype` (spec/44_inflate.md R241, R247, R248). -/
def blockBody (bound btype : Nat) : Inf Unit :=
  if btype = 0 then storedBlock
  else if btype = 1 then compressedData fixedCodes.1 fixedCodes.2 bound
  else if btype = 2 then do
    let codes ← dynamicCodes
    compressedData codes.1 codes.2 bound
  else throw .data

/-- The blocks up to the one with `BFINAL = 1` (spec/44_inflate.md R241, R247). The second argument bounds their
number; each reads at least three bits (log 11). -/
def inflateBlocks (bound : Nat) : (n : Nat) → Inf Unit
  | 0 => throw .trunc
  | n + 1 => do
    let bfinal ← bits 1
    let btype ← bits 2
    blockBody bound btype
    if bfinal = 1 then pure () else inflateBlocks bound n

/-- `Adler32(d)` (spec/44_inflate.md R257). -/
def adler32 (bs : List Byte) : Nat :=
  let p := bs.foldl (fun (p : Nat × Nat) x =>
    let a := (p.1 + x.toNat) % 65521
    (a, (p.2 + a) % 65521)) (1, 0)
  p.2 * 65536 + p.1

/-- `CheckTrailer()` (spec/44_inflate.md R257). -/
def checkTrailer : Inf Unit := do
  alignByte
  let b3 ← nextByte
  let b2 ← nextByte
  let b1 ← nextByte
  let b0 ← nextByte
  let d ← get
  if b3 * 2 ^ 24 + b2 * 2 ^ 16 + b1 * 2 ^ 8 + b0 ≠ adler32 d.out.reverse then throw .adler
  else pure ()

/-- The whole stream, the repetitions bounded by `bound` (spec/44_inflate.md R241). -/
def inflateStream (bound : Nat) : Inf Unit := do
  readZlibHeader
  inflateBlocks bound bound
  checkTrailer

/-- What `Inflate` returns: `Ok(out, used)` or `Err(code, out)` (spec/44_inflate.md R241). -/
inductive InflateResult where
  | ok (out : List Byte) (used : Nat)
  | err (code : InfError) (out : List Byte)
deriving DecidableEq, Repr

/-- The decoder at the start of a call (spec/44_inflate.md R241). -/
def inflaterStart (src : List Byte) (xlen : Nat) : Inflater :=
  { input := src, pos := 0, bitbuf := 0, bitcnt := 0, out := [], limit := xlen }

/-- `Inflate(src, xlen)` (spec/44_inflate.md R241). -/
def inflate (src : List Byte) (xlen : Nat) : InflateResult :=
  match inflateStream (8 * src.length + 1) (inflaterStart src xlen) with
  | .ok _ d => .ok d.out.reverse d.pos
  | .error e d => .err e d.out.reverse

/-- The result code of a decoder error (spec/60_exceptions.md R311). -/
def InfError.toCode : InfError → ResultCode
  | .header => .infHeader
  | .data => .infData
  | .trunc => .infTrunc
  | .overflow => .infOverflow
  | .adler => .infAdler

end Sys2Proof.Machine
end

