-- ==== Sys2Proof/Machine/Zlib.lean ====
section
/-! DEFINITION. The zlib decompressor commands (spec/44_inflate.md R260 to R262). -/

namespace Sys2Proof.Machine

/-- A stream failed: the bytes emitted so far are kept at `DST` and counted, operands unchanged
(spec/44_inflate.md R260, R262). -/
def inflateFailed (s : State) (e : InfError) (out : List Byte) : State :=
  { s.writeBytes s.dst.toNat out with outlen := BitVec.ofNat 32 out.length, inlen := 0 }.raise e.toCode

/-- `INFLATE` (spec/44_inflate.md R260). -/
def execInflate (s : State) : Host.Outcome State Fault Refusal :=
  let s := s.beginData
  .next (if ¬ InBounds s.cfg s.src.toNat s.len.toNat ∨ ¬ InBounds s.cfg s.dst.toNat s.xlen.toNat then s.raise .bounds
    else if Overlap s.src.toNat s.len.toNat s.dst.toNat s.xlen.toNat then s.raise .overlap
    else
      match inflate (s.readBytes s.src.toNat s.len.toNat) s.xlen.toNat with
      | .err e out => inflateFailed s e out
      | .ok out used =>
        { s.writeBytes s.dst.toNat out with
          outlen := BitVec.ofNat 32 out.length, inlen := BitVec.ofNat 32 used }.doneSize
          (decide (out.length ≠ s.xlen.toNat)))

/-- The stored length of the block at hand: `BSIZE` for code 0, else the code (spec/44_inflate.md R262). -/
def storedLength (s : State) : Nat :=
  if s.val = 0 then s.bsize.toNat else s.val.toNat

/-- A block is compressed when its code is not 0 and it begins with `ZSIG` (spec/44_inflate.md R262). -/
def blockCompressed (s : State) : Bool :=
  decide (s.val ≠ 0) && decide (2 ≤ storedLength s) &&
    s.readBytes s.src.toNat 2 == toBE s.cfg.zsig.toNat 2

/-- The end of a decoded block: the bytes stored at `DST`, the lengths, and the cursors advanced
(spec/44_inflate.md R262). -/
def blockDone (s : State) (n : Nat) (out : List Byte) (mis : Bool) : State :=
  { s.writeBytes s.dst.toNat out with
    outlen := BitVec.ofNat 32 out.length
    inlen := BitVec.ofNat 32 n
    src := s.src + BitVec.ofNat 32 n
    dst := s.dst + BitVec.ofNat 32 out.length
    xlen := s.xlen - BitVec.ofNat 32 out.length }.doneSize mis

/-- A compressed block of `n` stored bytes (spec/44_inflate.md R262). -/
def compressedBlock (s : State) (n : Nat) : State :=
  let m := min s.xlen.toNat s.bsize.toNat
  if ¬ InBounds s.cfg s.dst.toNat m then s.raise .bounds
  else if Overlap s.src.toNat n s.dst.toNat m then s.raise .overlap
  else
    match inflate (s.readBytes s.src.toNat n) m with
    | .err e out => inflateFailed s e out
    | .ok out _ => blockDone s n out (decide (out.length ≠ m))

/-- A raw or verbatim block of `n` stored bytes (spec/44_inflate.md R262). -/
def verbatimBlock (s : State) (n : Nat) : State :=
  if s.xlen.toNat < n then s.raise .overrun
  else if ¬ InBounds s.cfg s.dst.toNat n then s.raise .bounds
  else if Overlap s.src.toNat n s.dst.toNat n then s.raise .overlap
  else blockDone s n (s.readBytes s.src.toNat n) false

/-- `BLKDEC` (spec/44_inflate.md R262). -/
def execBlkdec (s : State) : Host.Outcome State Fault Refusal :=
  let s := s.beginData
  let n := storedLength s
  .next (if s.bsize = 0 then s.raise .range
    else if ¬ InBounds s.cfg s.src.toNat n then s.raise .bounds
    else if blockCompressed s then compressedBlock s n
    else verbatimBlock s n)

end Sys2Proof.Machine
end

