-- ==== Sys2Proof/Machine/Dispatch.lean ====
section
/-! DEFINITION. One arm per command: steps (3) to (5) of spec/30_encoding.md R90. -/

namespace Sys2Proof.Machine

def exec (i : Instr) (s : State) : Host.Outcome State Fault Refusal :=
  match i with
  | .srst => Sys2Proof.Machine.execSrst s
  | .rdbe2 => Sys2Proof.Machine.execRdbe2 s
  | .rdbe3 => Sys2Proof.Machine.execRdbe3 s
  | .rdbe4 => Sys2Proof.Machine.execRdbe4 s
  | .rdbe5 => Sys2Proof.Machine.execRdbe5 s
  | .wrbe2 => Sys2Proof.Machine.execWrbe2 s
  | .wrbe3 => Sys2Proof.Machine.execWrbe3 s
  | .wrbe4 => Sys2Proof.Machine.execWrbe4 s
  | .wrbe5 => Sys2Proof.Machine.execWrbe5 s
  | .rdle4 => Sys2Proof.Machine.execRdle4 s
  | .wrle4 => Sys2Proof.Machine.execWrle4 s
  | .ztype => Sys2Proof.Machine.execZtype s
  | .ivld => Sys2Proof.Machine.execIvld s
  | .ivinc => Sys2Proof.Machine.execIvinc s
  | .ctrdecPc => Sys2Proof.Machine.execCtrdecPc s
  | .ctrdecMac => Sys2Proof.Machine.execCtrdecMac s
  | .ctrencPc => Sys2Proof.Machine.execCtrencPc s
  | .ctrencMac => Sys2Proof.Machine.execCtrencMac s
  | .sngdet => Sys2Proof.Machine.execSngdet s
  | .sngprobe => Sys2Proof.Machine.execSngprobe s
  | .sngdec => Sys2Proof.Machine.execSngdec s
  | .sngenc => Sys2Proof.Machine.execSngenc s
  | .tocdec => Sys2Proof.Machine.execTocdec s
  | .tocenc => Sys2Proof.Machine.execTocenc s
  | .inflate => Sys2Proof.Machine.execInflate s
  | .blkdec => Sys2Proof.Machine.execBlkdec s

end Sys2Proof.Machine
end

