-- ==== Sys2Proof/Machine/HostBus.lean ====
section
/-! DEFINITION. One host action (spec/00_scope.md R3): register and window accesses, the command a write to `CMD`
runs, and power-on. -/

namespace Sys2Proof.Machine

/-- A host write of `w` to `CMD`: store the word, decode it, run the command or raise `ERR_ILLEGAL_CMD`
(spec/30_encoding.md R90, R98). -/
def runCommand (w : Word) (s : State) : Host.Outcome State Fault Refusal :=
  let s := s.writeReg w .cmd
  match decode w with
  | .ok i => exec i s
  | .error _ => .next (s.raise .illegalCmd)

/-- The four bytes of a word in the window's byte order, lowest address first (log 7). -/
def windowBytes (c : Config) (w : Word) : List Byte :=
  if c.windowBigEndian then toBE w.toNat 4 else toLE w.toNat 4

/-- The word made of four bytes in the window's byte order (log 7). -/
def windowWord (c : Config) (bs : List Byte) : Word :=
  BitVec.ofNat 32 (if c.windowBigEndian then beNat bs else leNat bs)

/-- An access of `n` bytes at host-bus offset `off` to the `MEM` window: run `k` with the `MEM` address, or refuse what
does not lie inside the window (spec/10_state.md R38, R40, U10; below it, R39, U9). -/
def windowAccess (s : State) (off n : Nat) (k : Nat → Host.Outcome State Fault Refusal) :
    Host.Outcome State Fault Refusal :=
  if off < s.cfg.memBase then .refused (.hostNarrowOrMisaligned off)
  else if s.cfg.memBase + s.cfg.memSize < off + n then .refused (.hostBeyondWindow off)
  else k (off - s.cfg.memBase)

/-- A word read: a register, 0 at a reserved offset, or four bytes of the window (spec/10_state.md R38 to R40). -/
def hostReadWord (off : Nat) (s : State) : Host.Outcome State Fault Refusal :=
  if s.cfg.memBase ≤ off then
    windowAccess s off 4 fun a => .next { s with reply := .word (windowWord s.cfg (s.readBytes a 4)) }
  else if off % 4 ≠ 0 then .refused (.hostNarrowOrMisaligned off)
  else
    match registerMap.lookup off with
    | some r => .next { s with reply := .word (s.readReg r) }
    | none => .next { s with reply := .word 0 }

/-- A word write: a command at `CMD`, a register, nothing at a reserved offset, or four bytes of the window
(spec/10_state.md R30, R38 to R40). -/
def hostWriteWord (off : Nat) (w : Word) (s : State) : Host.Outcome State Fault Refusal :=
  let s := { s with reply := .none }
  if s.cfg.memBase ≤ off then
    windowAccess s off 4 fun a => .next (s.writeBytes a (windowBytes s.cfg w))
  else if off % 4 ≠ 0 then .refused (.hostNarrowOrMisaligned off)
  else
    match registerMap.lookup off with
    | some .cmd => runCommand w s
    | some r => .next (s.writeReg w r)
    | none => .next s

/-- One host action on the engine (spec/00_scope.md R3, spec/30_encoding.md R100); a byte access outside the window is
a narrow register access (spec/10_state.md R39, U9). -/
def hostStep (a : HostAction) (s : State) : Host.Outcome State Fault Refusal :=
  match a with
  | .readWord off => hostReadWord off s
  | .writeWord off w => hostWriteWord off w s
  | .readBytes off n => windowAccess s off n fun a => .next { s with reply := .bytes (s.readBytes a n) }
  | .writeBytes off bs =>
    windowAccess s off bs.length fun a => .next { s.writeBytes a bs with reply := .none }
  | .powerOn => .next { s.powerOn with reply := .none }

/-- Where the host's next command word stands: a pending write of `CMD` (log 5). -/
def commandWrite (nbits w : Nat) : HostAction :=
  .writeWord 0x00 (BitVec.ofNat 32 (w % 2 ^ nbits))

end Sys2Proof.Machine
end

