-- ==== Sys2Proof/Machine/Step.lean ====
section
/-! DEFINITION. The step: the next pending host action (spec/00_scope.md R3). -/

namespace Sys2Proof.Machine

/-- One step: the oldest pending host action is taken and performed; with none pending the engine waits
(spec/70_reset_and_hazards.md R350, spec/20_memory.md R73). -/
def step (s : State) : Host.Outcome State Fault Refusal :=
  match s.inputs with
  | [] => .next s
  | a :: rest => hostStep a { s with inputs := rest }

/-- The state whose next host action writes the command word `w` to `CMD` (log 5). -/
def State.withFetchWord (s : State) (nbits w : Nat) : State :=
  { s with inputs := commandWrite nbits w :: s.inputs }

end Sys2Proof.Machine
end

