-- ==== Sys2Proof/Safety.lean ====
section
/-! DEFINITION. The terms in which statements speak of a run: result records, what each command may raise, read and
write, and the invariant of the engine. -/

namespace Sys2Proof.Machine

/-- `STATUS` after `done` (spec/60_exceptions.md R312): `STICKY` stays. -/
def State.okStatus (s : State) : Status :=
  { code := .ok, sizeMis := false, sticky := s.status.sticky }

/-- `STATUS` after `raise e`, `e` not `OK` (spec/60_exceptions.md R312): `STICKY` is set. -/
def State.errStatus (_ : State) (e : ResultCode) : Status :=
  { code := e, sizeMis := false, sticky := true }

/-- The state after a pre-check fault `e` of a command that is no data command: nothing but `STATUS` changes
(spec/60_exceptions.md R313). -/
def State.faulted (s : State) (e : ResultCode) : State :=
  { s with status := s.errStatus e }

/-- The state after a pre-check fault `e` of a data command: `OUTLEN = INLEN = 0` beside `STATUS`
(spec/60_exceptions.md R313). -/
def State.dataFaulted (s : State) (e : ResultCode) : State :=
  { s with status := s.errStatus e, outlen := 0, inlen := 0 }

/-- The data commands (spec/10_state.md R25). -/
def isData : Instr → Bool
  | .ctrdecPc | .ctrdecMac | .ctrencPc | .ctrencMac | .sngdec | .sngenc | .tocdec | .tocenc | .inflate | .blkdec => true
  | _ => false

/-- The codes that report a pre-check (spec/60_exceptions.md R313). -/
def preCheckCodes : List ResultCode :=
  [.illegalCmd, .bounds, .overlap, .range, .length, .overrun]

/-- The codes that report a stream error (spec/60_exceptions.md R313). -/
def streamCodes : List ResultCode :=
  [.infHeader, .infData, .infTrunc, .infOverflow, .infAdler]

/-- The codes each command can complete with: the "raised by" column of spec/60_exceptions.md R311, `OK` for all. -/
def raisable : Instr → List ResultCode
  | .srst | .ztype | .ivinc => [.ok]
  | .rdbe2 | .rdbe3 | .rdbe4 | .rdbe5 | .rdle4 | .ivld | .sngdet => [.ok, .bounds]
  | .wrbe2 | .wrbe3 | .wrbe4 | .wrbe5 | .wrle4 => [.ok, .range, .bounds]
  | .ctrdecPc | .ctrdecMac | .ctrencPc | .ctrencMac | .tocdec | .tocenc => [.ok, .bounds, .overlap]
  | .sngprobe => [.ok, .length, .bounds]
  | .sngdec | .sngenc => [.ok, .bounds, .length, .overlap, .cryptoPlatform]
  | .inflate => [.ok, .bounds, .overlap] ++ streamCodes
  | .blkdec => [.ok, .range, .bounds, .overlap, .overrun] ++ streamCodes

/-- What `STATUS.CODE` may hold beside the word in `CMD`: a code of the command the word stands for, or
`ERR_ILLEGAL_CMD` beside a word that is none, or `OK` beside the 0 that a reset leaves (spec/60_exceptions.md R311,
spec/10_state.md R30, R42). -/
def codeFits (cmd : Word) (code : ResultCode) : Prop :=
  match decode cmd with
  | .ok i => code ∈ raisable i
  | .error _ => code = .illegalCmd ∨ (cmd = 0 ∧ code = .ok)

/-- The invariant of the engine. -/
structure State.Inv (s : State) : Prop where
  /-- memory keeps its canonical form (the model's choice, log 4) -/
  memWf : Memory.wf s.mem
  /-- no byte outside `MEM` was ever written (spec/20_memory.md R61, spec/10_state.md R37) -/
  memWithin : Memory.within s.cfg.memSize s.mem
  /-- no command wrote more bytes than `MEM` has (spec/10_state.md R25) -/
  outlenLe : s.outlen.toNat ≤ s.cfg.memSize
  /-- no command consumed more bytes than `MEM` has (spec/10_state.md R26) -/
  inlenLe : s.inlen.toNat ≤ s.cfg.memSize
  /-- `CODE` is one the last command raises (spec/60_exceptions.md R311) -/
  codeFits : codeFits s.cmd s.status.code
  /-- `SIZEMIS` is set only beside `OK` of `INFLATE` or `BLKDEC` (spec/10_state.md R31) -/
  sizeMis : s.status.sizeMis = true → s.status.code = .ok ∧ (s.cmd = encode .inflate ∨ s.cmd = encode .blkdec)

/-- The address and length of the range a command may write, given the state before and after it: the W column of
spec/20_memory.md R78. -/
def writeRange (i : Instr) (s t : State) : Nat × Nat :=
  match i with
  | .wrbe2 => (s.dst.toNat, 2)
  | .wrbe3 => (s.dst.toNat, 3)
  | .wrbe4 => (s.dst.toNat, 4)
  | .wrbe5 => (s.dst.toNat, 5)
  | .wrle4 => (s.dst.toNat, 4)
  | .ctrdecPc | .ctrdecMac | .ctrencPc | .ctrencMac | .tocdec | .tocenc => (s.dst.toNat, s.len.toNat)
  | .sngdec => (s.dst.toNat, s.len.toNat - 24)
  | .sngenc => (s.dst.toNat + 24, s.len.toNat - 24)
  | .inflate | .blkdec => (s.dst.toNat, t.outlen.toNat)
  | _ => (0, 0)

/-- The ranges a command may read, address and length: the R column of spec/20_memory.md R78. -/
def readRanges (i : Instr) (s : State) : List (Nat × Nat) :=
  match i with
  | .rdbe2 => [(s.src.toNat, 2)]
  | .rdbe3 => [(s.src.toNat, 3)]
  | .rdbe4 => [(s.src.toNat, 4)]
  | .rdbe5 => [(s.src.toNat, 5)]
  | .rdle4 => [(s.src.toNat, 4)]
  | .ivld => [(s.src.toNat, 16)]
  | .sngdet => [(s.src.toNat, if 8 ≤ s.len.toNat then 8 else 0)]
  | .sngprobe => [(s.src.toNat + 8, 32)]
  | .sngenc => [(s.src.toNat, s.len.toNat - 24), (s.dst.toNat + 8, 16)]
  | .ctrdecPc | .ctrdecMac | .ctrencPc | .ctrencMac | .sngdec | .tocdec | .tocenc | .inflate =>
    [(s.src.toNat, s.len.toNat)]
  | .blkdec => [(s.src.toNat, storedLength s)]
  | _ => []

/-- Address `a` lies in the range `r`, an address and a length. -/
def inRange (r : Nat × Nat) (a : Nat) : Prop :=
  r.1 ≤ a ∧ a < r.1 + r.2

/-- The 26 legal command words as spec/30_encoding.md R102 lists them. -/
def legalWords : List Word :=
  [0x00000001, 0x00000210, 0x00000310, 0x00000410, 0x00000510, 0x00000211, 0x00000311, 0x00000411, 0x00000511,
   0x00000412, 0x00000413, 0x00000014, 0x00000020, 0x00000021, 0x00001022, 0x00002022, 0x00001023, 0x00002023,
   0x00000028, 0x00000029, 0x0000002A, 0x0000002B, 0x00000030, 0x00000031, 0x00000040, 0x00000041]

/-- The big-endian reads by width (spec/40_intcodec.md R121). -/
def rdbeCommands : List (Nat × Instr) :=
  [(2, .rdbe2), (3, .rdbe3), (4, .rdbe4), (5, .rdbe5)]

/-- The big-endian writes by width (spec/40_intcodec.md R122). -/
def wrbeCommands : List (Nat × Instr) :=
  [(2, .wrbe2), (3, .wrbe3), (4, .wrbe4), (5, .wrbe5)]

/-- Each codec write beside the read that undoes it, with their width (spec/40_intcodec.md R127). -/
def codecPairs : List (Nat × Instr × Instr) :=
  [(2, .wrbe2, .rdbe2), (3, .wrbe3, .rdbe3), (4, .wrbe4, .rdbe4), (5, .wrbe5, .rdbe5), (4, .wrle4, .rdle4)]

/-- The raw counter-mode commands with the key each selects (spec/42_ctr_sng.md R185, R186). -/
def counterCommands : List (Instr × KeySel) :=
  [(.ctrdecPc, .pc), (.ctrdecMac, .mac), (.ctrencPc, .pc), (.ctrencMac, .mac)]

/-- The table-of-contents commands with their direction (spec/43_toc_cfb.md R222, R223). -/
def tocCommands : List (Instr × CfbDir) :=
  [(.tocdec, .dec), (.tocenc, .enc)]

/-- The range checks of a command that transforms `LEN` bytes at `SRC` into `LEN` bytes at `DST` pass: both ranges in
bounds, and disjoint or in place (spec/20_memory.md R61, R70). -/
def rangesInBounds (s : State) : Prop :=
  InBounds s.cfg s.src.toNat s.len.toNat ∧ InBounds s.cfg s.dst.toNat s.len.toNat

/-- The two ranges overlap without being in place (spec/20_memory.md R70). -/
def rangesOverlap (s : State) : Prop :=
  s.dst ≠ s.src ∧ Overlap s.src.toNat s.len.toNat s.dst.toNat s.len.toNat

/-- The byte-by-byte increment of spec/42_ctr_sng.md R181 on a sequence whose FIRST byte is the least significant. -/
def incBytesLe : List Byte → List Byte
  | [] => []
  | b :: bs => if b + 1 ≠ 0 then (b + 1) :: bs else (b + 1) :: incBytesLe bs

/-- Byte `j` of the keystream of the counter mode from the counter `iv` (spec/42_ctr_sng.md R182). -/
def keystreamByte (k : Key) (iv : Block) (j : Nat) : Byte :=
  (blockBytes (aes256Enc k (iv + BitVec.ofNat 128 (j / 16)))).getD (j % 16) 0

/-- Block `k` of a byte sequence. -/
def blockAt (bs : List Byte) (k : Nat) : Block :=
  bytesBlock ((bs.drop (16 * k)).take 16)

/-- Byte `j` of the keystream of full-block CFB whose ciphertext is `cipher`: the encryption of the previous
ciphertext block, of zero for the first (spec/43_toc_cfb.md R221). -/
def cfbKeystreamByte (k : Key) (cipher : List Byte) (j : Nat) : Byte :=
  (blockBytes (aes256Enc k (if j / 16 = 0 then 0 else blockAt cipher (j / 16 - 1)))).getD (j % 16) 0

/-- The product in GF(2^8) modulo 0x11B, over the lowest `n` bits of `b` (spec/41_aes256.md R155). -/
def gfMulBits (a b : Byte) : (n : Nat) → Byte
  | 0 => 0
  | n + 1 =>
    let a2 := (a <<< 1) ^^^ (if a.getLsbD 7 then 0x1B else 0)
    (if b.getLsbD 0 then a else 0) ^^^ gfMulBits a2 (b >>> 1) n

/-- The product `a • b` in GF(2^8) (spec/41_aes256.md R155). -/
def gfMul (a b : Byte) : Byte :=
  gfMulBits a b 8

/-- The affine map of the S-box: bit `i` of the result is `t[i]`, `t[i+4]` to `t[i+7]` (indices modulo 8) and bit `i`
of 0x63 added up (spec/41_aes256.md R155). -/
def sBoxAffine (t : Byte) : Byte :=
  t ^^^ t.rotateRight 4 ^^^ t.rotateRight 5 ^^^ t.rotateRight 6 ^^^ t.rotateRight 7 ^^^ 0x63

/-- The bytes of an encrypted container's tag and version words (spec/42_ctr_sng.md R187). -/
def sngHeader : List Byte :=
  [0x4A, 0x00, 0x00, 0x00, 0x03, 0x00, 0x00, 0x00]

/-- A container of `len` bytes at `base` is one the detection takes as encrypted (spec/42_ctr_sng.md R188). -/
def looksEncrypted (s : State) (base len : Nat) : Prop :=
  8 ≤ len ∧ ∀ j, j < 8 → s.byteAt (base + j) = sngHeader.getD j 0

/-- Container bytes 8 to 23 (spec/42_ctr_sng.md R187). -/
def containerIv (s : State) (base : Nat) : Block :=
  bytesBlock (s.readBytes (base + 8) 16)

/-- The probe block at `base`, decrypted under `k`, shows `ZSIG` at offsets 4 and 5 (spec/42_ctr_sng.md R190). -/
def showsSignature (k : Key) (s : State) (base : Nat) : Prop :=
  (s.byteAt (base + 28) ^^^ keystreamByte k (containerIv s base) 4)
    ++ (s.byteAt (base + 29) ^^^ keystreamByte k (containerIv s base) 5) = s.cfg.zsig

/-- The platform the probe of the container at `base` finds: PC first, then MAC (spec/42_ctr_sng.md R190). -/
def probesAs (s : State) (base : Nat) : Platform → Prop
  | .pc => showsSignature s.cfg.keyPc s base
  | .mac => ¬ showsSignature s.cfg.keyPc s base ∧ showsSignature s.cfg.keyMac s base
  | .unknown => ¬ showsSignature s.cfg.keyPc s base ∧ ¬ showsSignature s.cfg.keyMac s base

/-- The checks of `SNGDEC` before the probe all pass for an encrypted container (spec/42_ctr_sng.md R192). -/
def sngdecReady (s : State) : Prop :=
  InBounds s.cfg s.src.toNat s.len.toNat ∧ looksEncrypted s s.src.toNat s.len.toNat ∧ 40 ≤ s.len.toNat ∧
    InBounds s.cfg s.dst.toNat (s.len.toNat - 24) ∧
    ¬ (s.dst.toNat ≠ s.src.toNat + 24 ∧ Overlap s.src.toNat s.len.toNat s.dst.toNat (s.len.toNat - 24))

/-- `SNGENC` is to encrypt for target `t`: encrypted, a target named, the platform known and another one
(spec/42_ctr_sng.md R193). -/
def sngencWanted (s : State) (t : KeySel) : Prop :=
  s.ectx.enc = true ∧ targetKey s.ectx.tplat = some t ∧ ∃ p, platformKey s.ectx.plat = some p ∧ p ≠ t

/-- The two ranges of `SNGENC` are in bounds (spec/42_ctr_sng.md R193). -/
def sngencInBounds (s : State) : Prop :=
  InBounds s.cfg s.src.toNat (s.len.toNat - 24) ∧ InBounds s.cfg s.dst.toNat s.len.toNat

/-- The two ranges of `SNGENC` overlap without being in place (spec/42_ctr_sng.md R193, spec/20_memory.md R70). -/
def sngencOverlap (s : State) : Prop :=
  s.src.toNat ≠ s.dst.toNat + 24 ∧ Overlap s.src.toNat (s.len.toNat - 24) s.dst.toNat s.len.toNat

/-- The stored length of `BLKDEC`'s block is `n`: `BSIZE` for code 0, else the code (spec/44_inflate.md R262). -/
def blockLength (s : State) (n : Nat) : Prop :=
  (s.val = 0 ∧ n = s.bsize.toNat) ∨ (s.val ≠ 0 ∧ n = s.val.toNat)

/-- `BLKDEC`'s block is compressed: a code of 2 or more, and the two bytes at `SRC` are `ZSIG` (spec/44_inflate.md
R262). -/
def blockIsStream (s : State) : Prop :=
  2 ≤ s.val.toNat ∧ s.byteAt s.src.toNat ++ s.byteAt (s.src.toNat + 1) = s.cfg.zsig

/-- `t` holds the bytes `out` at `a`, and every other byte of `MEM` as `s` does. -/
def storesAt (s t : State) (a : Nat) (out : List Byte) : Prop :=
  (∀ j, j < out.length → t.byteAt (a + j) = out.getD j 0) ∧
    ∀ x, x < a ∨ a + out.length ≤ x → t.byteAt x = s.byteAt x

/-- The zlib stream of one final stored block (spec/44_inflate.md R244, R249, R257). -/
def storedStream (bs : List Byte) : List Byte :=
  [0x78, 0x01, 0x01] ++ toLE bs.length 2 ++ toLE (bs.length ^^^ 0xFFFF) 2 ++ bs ++ toBE (adler32 bs) 4

end Sys2Proof.Machine
end

