-- ==== Sys2Proof/Certificates/Slice0/Obligations.lean ====
section
/-! DEFINITION. The statements about the engine, one for each entry of OBLIGATIONS.json. -/

open Sys2Proof Sys2Proof.Machine

/-! ### The command word -/

/-- spec/30_encoding.md R91 to R96, R102: a word decodes to a command exactly when it is that command's word; so no bit
of an encoding is dropped and no two words share a command. -/
def Obligations.DecodeEncodeAgree : Prop :=
  ∀ (w : Word) (i : Instr), decode w = .ok i ↔ w = encode i

/-- spec/30_encoding.md R96: the legal words are exactly the 26 that R102 lists. -/
def Obligations.LegalWordsAreTheListedTwentySix : Prop :=
  legalWords.Nodup ∧ legalWords.length = 26 ∧ ∀ w : Word, (∃ i, decode w = .ok i) ↔ w ∈ legalWords

/-- spec/30_encoding.md R91 to R95: the decoder accepts exactly the words whose fields meet the field rules. -/
def Obligations.DecoderFollowsTheFieldRules : Prop :=
  ∀ w : Word, (∃ i, decode w = .ok i) ↔ (CmdFields.ofWord w).wellFormed = true

/-- Words written out from spec/30_encoding.md R91 to R95 bit by bit decode to the commands they stand for. -/
def Obligations.WrittenOutWordsDecode : Prop :=
  decode 0b000000000000000000_00_0_000_00000001 = .ok .srst ∧
  decode 0b000000000000000000_00_0_101_00010000 = .ok .rdbe5 ∧
  decode 0b000000000000000000_00_0_011_00010001 = .ok .wrbe3 ∧
  decode 0b000000000000000000_10_0_000_00100010 = .ok .ctrdecMac ∧
  decode 0b000000000000000000_00_0_000_00101011 = .ok .sngenc ∧
  decode 0b000000000000000000_00_0_000_00110000 = .ok .tocdec ∧
  decode 0b000000000000000000_00_0_000_01000001 = .ok .blkdec

/-! ### One host action -/

/-- spec/30_encoding.md R90: when the next host action writes to `CMD` a word that decodes to `i`, the step stores the
word and is `exec` of `i`; the action is taken from the queue. -/
def Obligations.StepRunsTheDecodedCommand : Prop :=
  ∀ (s : State) (w : Word) (rest : List HostAction) (i : Instr),
    s.inputs = .writeWord 0x00 w :: rest → decode w = .ok i → i.wellFormed = true →
      step s = exec i { s with inputs := rest, reply := .none, cmd := w }

/-- spec/30_encoding.md R98: an illegal word is stored in `CMD`, reported with `STICKY` set, and changes nothing
else. -/
def Obligations.IllegalWordChangesNothingElse : Prop :=
  ∀ (s : State) (w : Word) (rest : List HostAction),
    s.inputs = .writeWord 0x00 w :: rest → w ∉ legalWords →
      step s = .next { s with
        inputs := rest, reply := .none, cmd := w
        status := { code := .illegalCmd, sizeMis := false, sticky := true } }

/-- spec/00_scope.md R3, spec/20_memory.md R73, spec/10_state.md R43: a step that answers takes the oldest host action,
and the parameters never change. -/
def Obligations.StepTakesOneHostAction : Prop :=
  ∀ s t : State, step s = .next t → t.inputs = s.inputs.tail ∧ t.cfg = s.cfg

/-- spec/10_state.md R38, R39, R21 to R26, R29, R30, R33, R34: a word read at an offset of the register map answers the
register that stands there, `ID` its constant and `MEMSZ` the size, and has no side effect. What the words of `STATUS`,
`VAL`, `ECTX` and `IV` are is said with their fields below. -/
def Obligations.RegisterReadHasNoSideEffect : Prop :=
  ∀ (s : State) (off : Nat) (rest : List HostAction), s.inputs = .readWord off :: rest →
    let answers (w : Word) : Prop := step s = .next { s with inputs := rest, reply := .word w }
    (off = 0x00 → answers s.cmd) ∧ (off = 0x04 → answers (s.readReg .status)) ∧
    (off = 0x08 → answers s.src) ∧ (off = 0x0C → answers s.dst) ∧
    (off = 0x10 → answers s.len) ∧ (off = 0x14 → answers s.xlen) ∧
    (off = 0x18 → answers s.outlen) ∧ (off = 0x1C → answers s.inlen) ∧
    (off = 0x20 → answers (s.readReg .valLo)) ∧ (off = 0x24 → answers (s.readReg .valHi)) ∧
    (off = 0x28 → answers s.bsize) ∧ (off = 0x2C → answers (s.readReg .ectx)) ∧
    (off = 0x30 → answers (s.readReg .iv0)) ∧ (off = 0x34 → answers (s.readReg .iv1)) ∧
    (off = 0x38 → answers (s.readReg .iv2)) ∧ (off = 0x3C → answers (s.readReg .iv3)) ∧
    (off = 0x40 → answers 0x52434301) ∧ (off = 0x44 → answers (BitVec.ofNat 32 s.cfg.memSize))

/-- spec/10_state.md R25, R26, R33, R34, R38: a write to `OUTLEN`, `INLEN`, `ID` or `MEMSZ` is ignored; a write to
`SRC`, `DST`, `LEN`, `XLEN` or `BSIZE` stores the word. -/
def Obligations.PlainRegisterWrites : Prop :=
  ∀ (s : State) (w : Word) (rest : List HostAction) (off : Nat), s.inputs = .writeWord off w :: rest →
    let u := { s with inputs := rest, reply := HostReply.none }
    (off = 0x08 → step s = .next { u with src := w }) ∧
    (off = 0x0C → step s = .next { u with dst := w }) ∧
    (off = 0x10 → step s = .next { u with len := w }) ∧
    (off = 0x14 → step s = .next { u with xlen := w }) ∧
    (off = 0x28 → step s = .next { u with bsize := w }) ∧
    (off = 0x18 ∨ off = 0x1C ∨ off = 0x40 ∨ off = 0x44 → step s = .next u)

/-- spec/10_state.md R31, R38: a host write at 0x04 changes nothing but `STICKY`, cleared when bit 9 is written 1; a
host read there answers the fields of `STATUS`, the reserved bits 0. -/
def Obligations.StatusWriteClearsStickyOnly : Prop :=
  ∀ (s : State) (w : Word) (rest : List HostAction),
    (s.inputs = .writeWord 0x04 w :: rest →
      step s = .next { s with
        inputs := rest, reply := .none
        status := { s.status with sticky := s.status.sticky && !w.getLsbD 9 } }) ∧
    (s.inputs = .readWord 0x04 :: rest →
      ∃ r : Word, step s = .next { s with inputs := rest, reply := .word r } ∧
        r.extractLsb' 0 8 = s.status.code.toByte ∧
        r.getLsbD 8 = s.status.sizeMis ∧
        r.getLsbD 9 = s.status.sticky ∧
        r.extractLsb' 10 22 = 0)

/-- spec/10_state.md R32, R38: a host read at 0x2C answers the fields of `ECTX`, the reserved bits 0; a host write there
stores the defined fields, 0 for the reserved value 3 of `PLAT` and `TPLAT`, and nothing else. -/
def Obligations.EctxStoresDefinedFieldsOnly : Prop :=
  ∀ (s : State) (w : Word) (rest : List HostAction),
    (s.inputs = .readWord 0x2C :: rest →
      ∃ r : Word, step s = .next { s with inputs := rest, reply := .word r } ∧
        r.extractLsb' 0 2 = (match s.ectx.plat with | .unknown => 0 | .pc => 1 | .mac => 2) ∧
        r.extractLsb' 2 2 = 0 ∧
        r.extractLsb' 4 2 = (match s.ectx.tplat with | .none => 0 | .pc => 1 | .mac => 2) ∧
        r.extractLsb' 6 2 = 0 ∧
        r.getLsbD 8 = s.ectx.enc ∧
        r.extractLsb' 9 23 = 0) ∧
    (s.inputs = .writeWord 0x2C w :: rest →
      ∃ t, step s = .next t ∧
        t = { s with inputs := rest, reply := .none, ectx := t.ectx } ∧
        t.ectx.plat = (if w.extractLsb' 0 2 = 1 then .pc else if w.extractLsb' 0 2 = 2 then .mac else .unknown) ∧
        t.ectx.tplat = (if w.extractLsb' 4 2 = 1 then .pc else if w.extractLsb' 4 2 = 2 then .mac else .none) ∧
        t.ectx.enc = w.getLsbD 8)

/-- spec/10_state.md R35, R38: the word at the offset of `IVk` reads as the big-endian value of `IV` bytes `4k` to
`4k+3`, and a write there replaces exactly those bytes and changes nothing else. -/
def Obligations.IvWordsAreItsBytes : Prop :=
  ∀ (s : State) (w : Word) (k off : Nat) (rest : List HostAction),
    (k, off) ∈ [(0, 0x30), (1, 0x34), (2, 0x38), (3, 0x3C)] →
      (s.inputs = .readWord off :: rest →
        ∃ r : Word, step s = .next { s with inputs := rest, reply := .word r } ∧
          r.toNat = beNat (((blockBytes s.iv).drop (4 * k)).take 4)) ∧
      (s.inputs = .writeWord off w :: rest →
        ∃ t, step s = .next t ∧
          blockBytes t.iv
            = (blockBytes s.iv).take (4 * k) ++ toBE w.toNat 4 ++ (blockBytes s.iv).drop (4 * k + 4) ∧
          t = { s with inputs := rest, reply := .none, iv := t.iv })

/-- spec/10_state.md R27, R38: the word at 0x20, `VALLO`, is bits 31:0 of `VAL`, the word at 0x24, `VALHI`, its bits
39:32; `VALHI[31:8]` read 0 and are ignored on write; a write of one half changes nothing else. -/
def Obligations.ValHalves : Prop :=
  ∀ (s : State) (w : Word) (rest : List HostAction),
    (s.inputs = .readWord 0x20 :: rest →
      ∃ r : Word, step s = .next { s with inputs := rest, reply := .word r } ∧ r.toNat = s.val.toNat % 2 ^ 32) ∧
    (s.inputs = .readWord 0x24 :: rest →
      ∃ r : Word, step s = .next { s with inputs := rest, reply := .word r } ∧ r.toNat = s.val.toNat / 2 ^ 32) ∧
    (s.inputs = .writeWord 0x20 w :: rest →
      ∃ t, step s = .next t ∧ t.val.toNat = s.val.toNat / 2 ^ 32 * 2 ^ 32 + w.toNat ∧
        t = { s with inputs := rest, reply := .none, val := t.val }) ∧
    (s.inputs = .writeWord 0x24 w :: rest →
      ∃ t, step s = .next t ∧ t.val.toNat = w.toNat % 256 * 2 ^ 32 + s.val.toNat % 2 ^ 32 ∧
        t = { s with inputs := rest, reply := .none, val := t.val })

/-- spec/10_state.md R40: a reserved offset reads 0 and ignores writes. -/
def Obligations.ReservedOffsetsReadZero : Prop :=
  ∀ (s : State) (off : Nat) (w : Word) (rest : List HostAction),
    0x48 ≤ off → off < s.cfg.memBase → off % 4 = 0 →
      (s.inputs = .readWord off :: rest → step s = .next { s with inputs := rest, reply := .word 0 }) ∧
      (s.inputs = .writeWord off w :: rest → step s = .next { s with inputs := rest, reply := .none })

/-- spec/10_state.md R39, R40 (U9, U10): a misaligned register word, a byte access that begins below the window, and a
word or byte access that begins in the window or beyond and ends beyond it have no meaning; each is refused by name. -/
def Obligations.AccessOutsideTheBusDomainIsRefused : Prop :=
  ∀ (s : State) (off n : Nat) (w : Word) (bs : List Byte) (rest : List HostAction),
    (off < s.cfg.memBase → off % 4 ≠ 0 →
      (s.inputs = .readWord off :: rest → step s = .refused (.hostNarrowOrMisaligned off)) ∧
      (s.inputs = .writeWord off w :: rest → step s = .refused (.hostNarrowOrMisaligned off))) ∧
    (off < s.cfg.memBase →
      (s.inputs = .readBytes off n :: rest → step s = .refused (.hostNarrowOrMisaligned off)) ∧
      (s.inputs = .writeBytes off bs :: rest → step s = .refused (.hostNarrowOrMisaligned off))) ∧
    (s.cfg.memBase ≤ off → s.cfg.memBase + s.cfg.memSize < off + 4 →
      (s.inputs = .readWord off :: rest → step s = .refused (.hostBeyondWindow off)) ∧
      (s.inputs = .writeWord off w :: rest → step s = .refused (.hostBeyondWindow off))) ∧
    (s.cfg.memBase ≤ off →
      (s.cfg.memBase + s.cfg.memSize < off + n →
        s.inputs = .readBytes off n :: rest → step s = .refused (.hostBeyondWindow off)) ∧
      (s.cfg.memBase + s.cfg.memSize < off + bs.length →
        s.inputs = .writeBytes off bs :: rest → step s = .refused (.hostBeyondWindow off)))

/-- spec/10_state.md R37, R38, spec/20_memory.md R67, R73: a byte read through the window answers the bytes of `MEM` and
changes nothing else; bytes written through it are in `MEM` at once, no other byte changes, and reading them back gives
them. A word access at any address of the window does the same with four bytes; their order is the parameter of log 7,
the model's choice where the spec is silent, and the statement holds for either order. -/
def Obligations.WindowReadAfterWrite : Prop :=
  ∀ (s : State) (a : Nat) (rest : List HostAction),
    (∀ n : Nat, a + n ≤ s.cfg.memSize → s.inputs = .readBytes (s.cfg.memBase + a) n :: rest →
      step s = .next { s with
        inputs := rest, reply := .bytes ((List.range n).map fun j => s.byteAt (a + j)) }) ∧
    (∀ bs : List Byte, a + bs.length ≤ s.cfg.memSize →
      s.inputs = .writeBytes (s.cfg.memBase + a) bs :: .readBytes (s.cfg.memBase + a) bs.length :: rest →
        ∃ t u, step s = .next t ∧ step t = .next u ∧ storesAt s t a bs ∧
          t = { s with mem := t.mem, inputs := t.inputs, reply := .none } ∧
          u = { t with inputs := rest, reply := .bytes bs }) ∧
    (a + 4 ≤ s.cfg.memSize → s.inputs = .readWord (s.cfg.memBase + a) :: rest →
      ∃ r : Word, step s = .next { s with inputs := rest, reply := .word r } ∧
        (List.range 4).map (fun j => s.byteAt (a + j))
          = if s.cfg.windowBigEndian then toBE r.toNat 4 else toLE r.toNat 4) ∧
    (∀ w : Word, a + 4 ≤ s.cfg.memSize →
      s.inputs = .writeWord (s.cfg.memBase + a) w :: .readWord (s.cfg.memBase + a) :: rest →
        ∃ t u, step s = .next t ∧ step t = .next u ∧
          storesAt s t a (if s.cfg.windowBigEndian then toBE w.toNat 4 else toLE w.toNat 4) ∧
          t = { s with mem := t.mem, inputs := t.inputs, reply := .none } ∧
          u = { t with inputs := rest, reply := .word w })

/-! ### Reset -/

/-- spec/10_state.md R38, R42, for every parameter set and every power-on draw: registers read 0 but `ID` and `MEMSZ`.
That every byte of `MEM` then reads as a free value is the model's choice for "arbitrary" (log 3). -/
def Obligations.ResetRegisterValues : Prop :=
  ∀ (c : Config) (n : Nat) (r : Reg),
    (State.resetWith c n).readReg r
      = (match r with
        | .id => 0x52434301
        | .memsz => BitVec.ofNat 32 c.memSize
        | _ => 0) ∧
    ∀ a, (State.resetWith c n).byteAt a = Config.powerOnByte n a

/-- spec/45_system.md R300: `SRST` leaves every register at its reset value, `CMD` and `STATUS` among them, `MEM` as it
was, and twice is the same as once. -/
def Obligations.SrstRestoresRegisters : Prop :=
  ∀ s : State, ∃ t, exec .srst s = .next t ∧
    t = { State.resetWith s.cfg s.draw with mem := s.mem, inputs := s.inputs, reply := s.reply } ∧
    (∀ r, t.readReg r = (State.resetWith s.cfg s.draw).readReg r) ∧
    (∀ a, t.byteAt a = s.byteAt a) ∧
    exec .srst t = .next t

/-- spec/70_reset_and_hazards.md R350 (the event itself is the model's, log 9): power-on leaves the register state of
R42 and draws `MEM` anew. -/
def Obligations.PowerOnResetsAndRedraws : Prop :=
  ∀ (s : State) (rest : List HostAction), s.inputs = .powerOn :: rest →
    step s = .next { State.resetWith s.cfg (s.draw + 1) with inputs := rest }

/-! ### Integer codec -/

/-- spec/40_intcodec.md R121: `RDBE.W` in bounds gives the unsigned big-endian value in `VAL` and moves `SRC` by `W`
without wrapping; out of bounds it raises `ERR_BOUNDS` and changes nothing else. -/
def Obligations.RdbeReadsBigEndian : Prop :=
  ∀ (s : State) (w : Nat) (i : Instr), (w, i) ∈ rdbeCommands →
    decode (BitVec.ofNat 32 (0x10 + w * 2 ^ 8)) = .ok i ∧
    (s.src.toNat + w ≤ s.cfg.memSize →
      ∃ t, exec i s = .next t ∧
        t.val.toNat = ∑ j ∈ Finset.range w, (s.byteAt (s.src.toNat + j)).toNat * 256 ^ (w - 1 - j) ∧
        t.src.toNat = s.src.toNat + w ∧
        t = { s with val := t.val, src := t.src, status := s.okStatus }) ∧
    (s.cfg.memSize < s.src.toNat + w → exec i s = .next (s.faulted .bounds))

/-- spec/40_intcodec.md R123: `RDLE.4`, little-endian. -/
def Obligations.RdleReadsLittleEndian : Prop :=
  ∀ s : State,
    decode (BitVec.ofNat 32 (0x12 + 4 * 2 ^ 8)) = .ok .rdle4 ∧
    (s.src.toNat + 4 ≤ s.cfg.memSize →
      ∃ t, exec .rdle4 s = .next t ∧
        t.val.toNat = ∑ j ∈ Finset.range 4, (s.byteAt (s.src.toNat + j)).toNat * 256 ^ j ∧
        t.src.toNat = s.src.toNat + 4 ∧
        t = { s with val := t.val, src := t.src, status := s.okStatus }) ∧
    (s.cfg.memSize < s.src.toNat + 4 → exec .rdle4 s = .next (s.faulted .bounds))

/-- spec/40_intcodec.md R122: `WRBE.W` writes the `W` bytes of `VAL`, most significant first, and no other byte; a value
that does not fit raises `ERR_RANGE` first, a range out of `MEM` raises `ERR_BOUNDS`, and both change nothing else. -/
def Obligations.WrbeWritesBigEndian : Prop :=
  ∀ (s : State) (w : Nat) (i : Instr), (w, i) ∈ wrbeCommands →
    decode (BitVec.ofNat 32 (0x11 + w * 2 ^ 8)) = .ok i ∧
    (2 ^ (8 * w) ≤ s.val.toNat → exec i s = .next (s.faulted .range)) ∧
    (s.val.toNat < 2 ^ (8 * w) → s.cfg.memSize < s.dst.toNat + w → exec i s = .next (s.faulted .bounds)) ∧
    (s.val.toNat < 2 ^ (8 * w) → s.dst.toNat + w ≤ s.cfg.memSize →
      ∃ t, exec i s = .next t ∧
        (∀ j, j < w → (t.byteAt (s.dst.toNat + j)).toNat = s.val.toNat / 256 ^ (w - 1 - j) % 256) ∧
        (∀ a, a < s.dst.toNat ∨ s.dst.toNat + w ≤ a → t.byteAt a = s.byteAt a) ∧
        t.dst.toNat = s.dst.toNat + w ∧
        t = { s with mem := t.mem, dst := t.dst, status := s.okStatus })

/-- spec/40_intcodec.md R124: `WRLE.4`, least significant byte first. -/
def Obligations.WrleWritesLittleEndian : Prop :=
  ∀ s : State,
    decode (BitVec.ofNat 32 (0x13 + 4 * 2 ^ 8)) = .ok .wrle4 ∧
    (2 ^ 32 ≤ s.val.toNat → exec .wrle4 s = .next (s.faulted .range)) ∧
    (s.val.toNat < 2 ^ 32 → s.cfg.memSize < s.dst.toNat + 4 → exec .wrle4 s = .next (s.faulted .bounds)) ∧
    (s.val.toNat < 2 ^ 32 → s.dst.toNat + 4 ≤ s.cfg.memSize →
      ∃ t, exec .wrle4 s = .next t ∧
        (∀ j, j < 4 → (t.byteAt (s.dst.toNat + j)).toNat = s.val.toNat / 256 ^ j % 256) ∧
        (∀ a, a < s.dst.toNat ∨ s.dst.toNat + 4 ≤ a → t.byteAt a = s.byteAt a) ∧
        t.dst.toNat = s.dst.toNat + 4 ∧
        t = { s with mem := t.mem, dst := t.dst, status := s.okStatus })

/-- spec/40_intcodec.md R125, R128: `ZTYPE` gives 2, 3 or 4 by the nominal block size, in every state. -/
def Obligations.ZtypeGivesTheFieldWidth : Prop :=
  ∀ s : State,
    exec .ztype s = .next { s with
      val := if s.bsize.toNat ≤ 65536 then 2 else if s.bsize.toNat ≤ 16777216 then 3 else 4
      status := s.okStatus }

/-- spec/40_intcodec.md R127: writing a value that fits and reading it back at the same address gives the value; reading
bytes and writing the value elsewhere gives the bytes. -/
def Obligations.CodecRoundTrips : Prop :=
  ∀ (s : State) (w : Nat) (wr rd : Instr), (w, wr, rd) ∈ codecPairs →
    (s.val.toNat < 2 ^ (8 * w) → s.dst.toNat + w ≤ s.cfg.memSize →
      ∃ t u, exec wr s = .next t ∧ exec rd { t with src := s.dst } = .next u ∧ u.val = s.val) ∧
    (s.src.toNat + w ≤ s.cfg.memSize → s.dst.toNat + w ≤ s.cfg.memSize →
      ∃ t u, exec rd s = .next t ∧ exec wr t = .next u ∧
        u.readBytes s.dst.toNat w = s.readBytes s.src.toNat w)

/-! ### Counter mode -/

/-- spec/42_ctr_sng.md R183: `IVLD` loads the 16 bytes at `SRC` into `IV` in order, `SRC` stays; out of bounds it raises
`ERR_BOUNDS` and `IV` stays. -/
def Obligations.IvldLoadsSixteenBytes : Prop :=
  ∀ s : State,
    (s.src.toNat + 16 ≤ s.cfg.memSize →
      ∃ t, exec .ivld s = .next t ∧
        (∀ j, j < 16 → (blockBytes t.iv).getD j 0 = s.byteAt (s.src.toNat + j)) ∧
        t = { s with iv := t.iv, status := s.okStatus }) ∧
    (s.cfg.memSize < s.src.toNat + 16 → exec .ivld s = .next (s.faulted .bounds))

/-- spec/42_ctr_sng.md R181, R184: `IVINC` adds one to the 128-bit big-endian counter modulo 2^128; byte by byte that is
the carry loop from byte 15 down. -/
def Obligations.IvincCarriesFromByteFifteen : Prop :=
  ∀ s : State, ∃ t, exec .ivinc s = .next t ∧
    beNat (blockBytes t.iv) = (beNat (blockBytes s.iv) + 1) % 2 ^ 128 ∧
    (blockBytes t.iv).reverse = incBytesLe (blockBytes s.iv).reverse ∧
    t = { s with iv := t.iv, status := s.okStatus }

/-- spec/42_ctr_sng.md R182, R185, R186: `CTRDEC` and `CTRENC` xor byte `j` of the input with byte `j` of the keystream
`AES256Enc(K, IV + j/16)`, for the key the word selects, advance `IV` once per started block, and touch nothing else;
their checks come first and change nothing but `STATUS`, `OUTLEN` and `INLEN`. -/
def Obligations.CounterCommandsXorTheKeystream : Prop :=
  ∀ (s : State) (i : Instr) (k : KeySel), (i, k) ∈ counterCommands →
    (¬ rangesInBounds s → exec i s = .next (s.dataFaulted .bounds)) ∧
    (rangesInBounds s → rangesOverlap s → exec i s = .next (s.dataFaulted .overlap)) ∧
    (rangesInBounds s → ¬ rangesOverlap s →
      ∃ t, exec i s = .next t ∧
        (∀ j, j < s.len.toNat →
          t.byteAt (s.dst.toNat + j) = s.byteAt (s.src.toNat + j) ^^^ keystreamByte (keyOf s.cfg k) s.iv j) ∧
        (∀ a, a < s.dst.toNat ∨ s.dst.toNat + s.len.toNat ≤ a → t.byteAt a = s.byteAt a) ∧
        t = { s with
          mem := t.mem
          iv := s.iv + BitVec.ofNat 128 ((s.len.toNat + 15) / 16)
          outlen := s.len, inlen := s.len
          status := s.okStatus })

/-- spec/42_ctr_sng.md R195: the counter mode undoes itself, and byte `i` of its output depends on byte `i` of the
data alone. -/
def Obligations.CounterModeUndoesItself : Prop :=
  ∀ (k : Key) (iv : Block) (d e : List Byte) (i : Nat),
    (ctrXform k iv (ctrXform k iv d).1).1 = d ∧
    (d.length = e.length → d[i]? = e[i]? → (ctrXform k iv d).1[i]? = (ctrXform k iv e).1[i]?)

/-- spec/70_reset_and_hazards.md R362: two pieces give the bytes of one when the first is a multiple of 16 bytes
long, the second starting at the counter the first left. -/
def Obligations.CounterModeSplitsAtBlocks : Prop :=
  ∀ (k : Key) (iv : Block) (d e : List Byte), d.length % 16 = 0 →
    ctrXform k iv (d ++ e)
      = ((ctrXform k iv d).1 ++ (ctrXform k (ctrXform k iv d).2 e).1, (ctrXform k (ctrXform k iv d).2 e).2)

/-- spec/41_aes256.md R155: every S-box entry is the affine image of the multiplicative inverse of its index (of 0 for
0), and `xtime` and the product with 03 are the field's products. -/
def Obligations.SBoxIsInverseThenAffine : Prop :=
  (∀ x : Byte, ∃ t : Byte, (x = 0 → t = 0) ∧ (x ≠ 0 → gfMul x t = 1) ∧ sBox x = sBoxAffine t) ∧
    ∀ a : Byte, xtime a = gfMul a 2 ∧ times3 a = gfMul a 3

/-! ### The `.sng` container -/

/-- spec/42_ctr_sng.md R188, R189: `SNGDET` sets `ENC` exactly when the container has at least 8 bytes and begins with
the tag and version words; nothing else changes; out of bounds raises `ERR_BOUNDS`. -/
def Obligations.SngdetDetectsTheHeader : Prop :=
  ∀ s : State,
    decode 0x00000028 = .ok .sngdet ∧
    (s.cfg.memSize < s.src.toNat + s.len.toNat → exec .sngdet s = .next (s.faulted .bounds)) ∧
    (s.src.toNat + s.len.toNat ≤ s.cfg.memSize →
      ∃ t, exec .sngdet s = .next t ∧
        (t.ectx.enc = true ↔ looksEncrypted s s.src.toNat s.len.toNat) ∧
        t = { s with ectx := { s.ectx with enc := t.ectx.enc }, status := s.okStatus })

/-- spec/42_ctr_sng.md R190, R191: `SNGPROBE` reports the platform the signature test finds, PC before MAC, and leaves
container bytes 8 to 23 in `IV`; exactly one outcome holds; a container under 40 bytes raises `ERR_LENGTH`, and only
then is `ERR_BOUNDS` tried. -/
def Obligations.SngprobeFindsThePlatform : Prop :=
  ∀ (s : State) (p : Platform),
    (∃! q : Platform, probesAs s s.src.toNat q) ∧
    (s.len.toNat < 40 → exec .sngprobe s = .next (s.faulted .length)) ∧
    (40 ≤ s.len.toNat → s.cfg.memSize < s.src.toNat + s.len.toNat → exec .sngprobe s = .next (s.faulted .bounds)) ∧
    (40 ≤ s.len.toNat → s.src.toNat + s.len.toNat ≤ s.cfg.memSize → probesAs s s.src.toNat p →
      ∃ t, exec .sngprobe s = .next t ∧
        (∀ j, j < 16 → (blockBytes t.iv).getD j 0 = s.byteAt (s.src.toNat + 8 + j)) ∧
        t = { s with ectx := { s.ectx with plat := p }, iv := t.iv, status := s.okStatus })

/-- spec/42_ctr_sng.md R192: a container whose platform is found is decrypted with that platform's key from its own IV
into `[DST, DST+LEN-24)`; the context, `IV`, `OUTLEN` and `INLEN` are written and nothing else. -/
def Obligations.SngdecDecryptsThePayload : Prop :=
  ∀ (s : State) (p : Platform) (k : KeySel),
    sngdecReady s → probesAs s s.src.toNat p → platformKey p = some k →
      ∃ t, exec .sngdec s = .next t ∧
        (∀ j, j < s.len.toNat - 24 →
          t.byteAt (s.dst.toNat + j) = s.byteAt (s.src.toNat + 24 + j)
            ^^^ keystreamByte (keyOf s.cfg k) (containerIv s s.src.toNat) j) ∧
        (∀ a, a < s.dst.toNat ∨ s.dst.toNat + (s.len.toNat - 24) ≤ a → t.byteAt a = s.byteAt a) ∧
        t = { s with
          mem := t.mem
          ectx := { s.ectx with enc := true, plat := p }
          iv := containerIv s s.src.toNat + BitVec.ofNat 128 ((s.len.toNat - 24 + 15) / 16)
          outlen := BitVec.ofNat 32 (s.len.toNat - 24), inlen := s.len
          status := s.okStatus }

/-- spec/42_ctr_sng.md R192, spec/60_exceptions.md R313: a container no key opens raises `ERR_CRYPTO_PLATFORM` after the
context and `IV` are written, with `MEM` as it was. -/
def Obligations.SngdecUnknownPlatformKeepsMemory : Prop :=
  ∀ s : State, sngdecReady s → probesAs s s.src.toNat .unknown →
    exec .sngdec s = .next { s with
      ectx := { s.ectx with enc := true, plat := .unknown }
      iv := containerIv s s.src.toNat
      outlen := 0, inlen := 0
      status := { code := .cryptoPlatform, sizeMis := false, sticky := true } }

/-- spec/42_ctr_sng.md R192, spec/60_exceptions.md R315: the pre-checks of `SNGDEC` and their order; a container that is
not detected as encrypted is left alone before the length, destination and overlap checks, and the context says so. -/
def Obligations.SngdecChecksInOrder : Prop :=
  ∀ s : State,
    let inb := s.src.toNat + s.len.toNat ≤ s.cfg.memSize
    let enc := looksEncrypted s s.src.toNat s.len.toNat
    let n := s.len.toNat - 24
    (¬ inb → exec .sngdec s = .next (s.dataFaulted .bounds)) ∧
    (inb → ¬ enc → exec .sngdec s = .next { s with
      ectx := { s.ectx with enc := false, plat := .unknown }
      outlen := 0, inlen := 0
      status := s.okStatus }) ∧
    (inb → enc → s.len.toNat < 40 → exec .sngdec s = .next (s.dataFaulted .length)) ∧
    (inb → enc → 40 ≤ s.len.toNat → s.cfg.memSize < s.dst.toNat + n →
      exec .sngdec s = .next (s.dataFaulted .bounds)) ∧
    (inb → enc → 40 ≤ s.len.toNat → s.dst.toNat + n ≤ s.cfg.memSize →
      s.dst.toNat ≠ s.src.toNat + 24 → Overlap s.src.toNat s.len.toNat s.dst.toNat n →
      exec .sngdec s = .next (s.dataFaulted .overlap))

/-- spec/42_ctr_sng.md R193: when the platforms differ, `SNGENC` encrypts the plaintext at `SRC` for the target into the
payload of the container at `DST`, from the container's own IV; the header bytes, `ECTX` and all else stay. -/
def Obligations.SngencEncryptsForTheTarget : Prop :=
  ∀ (s : State) (k : KeySel),
    sngencWanted s k → 40 ≤ s.len.toNat → sngencInBounds s → ¬ sngencOverlap s →
      ∃ t, exec .sngenc s = .next t ∧
        (∀ j, j < s.len.toNat - 24 →
          t.byteAt (s.dst.toNat + 24 + j) = s.byteAt (s.src.toNat + j)
            ^^^ keystreamByte (keyOf s.cfg k) (containerIv s s.dst.toNat) j) ∧
        (∀ a, a < s.dst.toNat + 24 ∨ s.dst.toNat + s.len.toNat ≤ a → t.byteAt a = s.byteAt a) ∧
        t = { s with
          mem := t.mem
          iv := containerIv s s.dst.toNat + BitVec.ofNat 128 ((s.len.toNat - 24 + 15) / 16)
          outlen := BitVec.ofNat 32 (s.len.toNat - 24), inlen := BitVec.ofNat 32 (s.len.toNat - 24)
          status := s.okStatus }

/-- spec/42_ctr_sng.md R193: the three no-ops of `SNGENC`, and the undetermined platform, in that order. -/
def Obligations.SngencNoOpsAndUnknownPlatform : Prop :=
  ∀ s : State,
    (s.ectx.enc = false → exec .sngenc s = .next { s with outlen := 0, inlen := 0, status := s.okStatus }) ∧
    (s.ectx.enc = true → s.ectx.tplat = .none →
      exec .sngenc s = .next { s with outlen := 0, inlen := 0, status := s.okStatus }) ∧
    (s.ectx.enc = true → s.ectx.tplat ≠ .none → s.ectx.plat = .unknown →
      exec .sngenc s = .next (s.dataFaulted .cryptoPlatform)) ∧
    (s.ectx.enc = true → (s.ectx.plat = .pc ∧ s.ectx.tplat = .pc ∨ s.ectx.plat = .mac ∧ s.ectx.tplat = .mac) →
      exec .sngenc s = .next { s with outlen := 0, inlen := 0, status := s.okStatus })

/-- spec/42_ctr_sng.md R193, spec/60_exceptions.md R315: the pre-checks of a `SNGENC` that is to encrypt, and their
order. -/
def Obligations.SngencChecksInOrder : Prop :=
  ∀ (s : State) (k : KeySel), sngencWanted s k →
    (s.len.toNat < 40 → exec .sngenc s = .next (s.dataFaulted .length)) ∧
    (40 ≤ s.len.toNat → ¬ sngencInBounds s → exec .sngenc s = .next (s.dataFaulted .bounds)) ∧
    (40 ≤ s.len.toNat → sngencInBounds s → sngencOverlap s → exec .sngenc s = .next (s.dataFaulted .overlap))

/-- spec/42_ctr_sng.md R193 with R190, R192, R195: a container that `SNGENC` re-encrypted for a target (R193) is, when
`SNGDEC` probes and decrypts it (R190, R192), reported for that target and, the counter mode undoing itself (R195),
gives back the plaintext, unless the new ciphertext happens to match under the PC key for target MAC (R193, R190). -/
def Obligations.SngencThenSngdecGivesThePlaintext : Prop :=
  ∀ (s : State) (k : KeySel) (d : Word),
    sngencWanted s k → 40 ≤ s.len.toNat → sngencInBounds s → ¬ sngencOverlap s →
    looksEncrypted s s.dst.toNat s.len.toNat →
    s.byteAt (s.src.toNat + 4) ++ s.byteAt (s.src.toNat + 5) = s.cfg.zsig →
    d.toNat + (s.len.toNat - 24) ≤ s.cfg.memSize →
    ¬ (d.toNat ≠ s.dst.toNat + 24 ∧ Overlap s.dst.toNat s.len.toNat d.toNat (s.len.toNat - 24)) →
      ∃ t, exec .sngenc s = .next t ∧
        ((k = .mac → ¬ showsSignature s.cfg.keyPc t s.dst.toNat) →
          ∃ u, exec .sngdec { t with src := s.dst, dst := d } = .next u ∧
            platformKey u.ectx.plat = some k ∧ u.status.code = .ok ∧
            ∀ j, j < s.len.toNat - 24 → u.byteAt (d.toNat + j) = s.byteAt (s.src.toNat + j))

/-! ### The table of contents -/

/-- spec/43_toc_cfb.md R221 to R223: `TOCDEC` and `TOCENC` xor the first `LEN - LEN mod 32` bytes with the encryption of
the previous ciphertext block (zero first) under `KEY_ARC`, copy the tail, and touch nothing else; the checks come
first. -/
def Obligations.TocCommandsTransformAndCopyTheTail : Prop :=
  ∀ (s : State) (i : Instr) (dir : CfbDir), (i, dir) ∈ tocCommands →
    (¬ rangesInBounds s → exec i s = .next (s.dataFaulted .bounds)) ∧
    (rangesInBounds s → rangesOverlap s → exec i s = .next (s.dataFaulted .overlap)) ∧
    (rangesInBounds s → ¬ rangesOverlap s →
      ∃ t, exec i s = .next t ∧
        (let cipher := match dir with
          | .dec => s.readBytes s.src.toNat s.len.toNat
          | .enc => t.readBytes s.dst.toNat s.len.toNat
        ∀ j, j < s.len.toNat - s.len.toNat % 32 →
          t.byteAt (s.dst.toNat + j) = s.byteAt (s.src.toNat + j) ^^^ cfbKeystreamByte s.cfg.keyArc cipher j) ∧
        (∀ j, s.len.toNat - s.len.toNat % 32 ≤ j → j < s.len.toNat →
          t.byteAt (s.dst.toNat + j) = s.byteAt (s.src.toNat + j)) ∧
        (∀ a, a < s.dst.toNat ∨ s.dst.toNat + s.len.toNat ≤ a → t.byteAt a = s.byteAt a) ∧
        t = { s with mem := t.mem, outlen := s.len, inlen := s.len, status := s.okStatus })

/-- spec/43_toc_cfb.md R224: the two directions undo each other, and under 32 bytes both are the identity. -/
def Obligations.TocDirectionsUndoEachOther : Prop :=
  ∀ (k : Key) (d : List Byte) (dir : CfbDir),
    tocCfb k (tocCfb k d .enc) .dec = d ∧ tocCfb k (tocCfb k d .dec) .enc = d ∧
    (d.length < 32 → tocCfb k d dir = d)

/-! ### Inflate -/

/-- spec/44_inflate.md R241, R243: `Inflate` never emits more than `xlen` bytes nor uses more than the bytes it is
given, whether it succeeds or fails. -/
def Obligations.InflateStaysInItsBounds : Prop :=
  ∀ (src : List Byte) (xlen : Nat),
    match inflate src xlen with
    | .ok out used => out.length ≤ xlen ∧ used ≤ src.length
    | .err _ out => out.length ≤ xlen

/-- spec/44_inflate.md R244, R249, R257 together: a stream of one stored block gives back the bytes it stores and uses
all of itself. -/
def Obligations.StoredStreamInflatesToItsBytes : Prop :=
  ∀ (bs : List Byte) (xlen : Nat), bs.length ≤ 65535 → bs.length ≤ xlen →
    inflate (storedStream bs) xlen = .ok bs (bs.length + 11)

/-- spec/44_inflate.md R259, R243: bytes after the trailer are not read and not counted, and room beyond what a stream
holds changes nothing. -/
def Obligations.InflateIgnoresTrailingBytes : Prop :=
  ∀ (src extra : List Byte) (xlen xlen' : Nat) (out : List Byte) (used : Nat),
    inflate src xlen = .ok out used → xlen ≤ xlen' → inflate (src ++ extra) xlen' = .ok out used

/-- spec/44_inflate.md R241, R245 (log 11 of the model): a larger bound on the decoder's repetitions changes nothing, so
the bound the model uses cuts no stream short. -/
def Obligations.InflateBoundIsNeverReached : Prop :=
  ∀ (src : List Byte) (xlen n : Nat), 8 * src.length + 1 ≤ n →
    inflateStream n (inflaterStart src xlen) = inflateStream (8 * src.length + 1) (inflaterStart src xlen)

/-- spec/44_inflate.md R260, R261: `INFLATE` stores what `Inflate` emitted at `DST`, counts it, and reports the error or
the size mismatch; the checks come first; operands and all other bytes stay; a `LEN` of 0 or 1 is `ERR_INF_TRUNC`. -/
def Obligations.InflateCommandStoresTheOutput : Prop :=
  ∀ s : State,
    let inb := InBounds s.cfg s.src.toNat s.len.toNat ∧ InBounds s.cfg s.dst.toNat s.xlen.toNat
    let ovl := Overlap s.src.toNat s.len.toNat s.dst.toNat s.xlen.toNat
    let r := inflate (s.readBytes s.src.toNat s.len.toNat) s.xlen.toNat
    decode 0x00000040 = .ok .inflate ∧
    (s.len.toNat ≤ 1 → r = .err .trunc []) ∧
    (¬ inb → exec .inflate s = .next (s.dataFaulted .bounds)) ∧
    (inb → ovl → exec .inflate s = .next (s.dataFaulted .overlap)) ∧
    (inb → ¬ ovl → ∀ e out, r = .err e out →
      ∃ t, exec .inflate s = .next t ∧ storesAt s t s.dst.toNat out ∧ t.outlen.toNat = out.length ∧
        t = { s with mem := t.mem, outlen := t.outlen, inlen := 0, status := s.errStatus e.toCode }) ∧
    (inb → ¬ ovl → ∀ out used, r = .ok out used →
      ∃ t, exec .inflate s = .next t ∧ storesAt s t s.dst.toNat out ∧ t.outlen.toNat = out.length ∧
        t.inlen.toNat = used ∧
        t = { s with
          mem := t.mem, outlen := t.outlen, inlen := t.inlen
          status := { code := .ok, sizeMis := decide (out.length ≠ s.xlen.toNat), sticky := s.status.sticky } })

/-- spec/44_inflate.md R262: a raw or verbatim block is copied to `DST` and the cursors advance past it. -/
def Obligations.BlkdecCopiesRawAndVerbatimBlocks : Prop :=
  ∀ (s : State) (n : Nat),
    s.bsize ≠ 0 → blockLength s n → InBounds s.cfg s.src.toNat n → ¬ blockIsStream s →
    n ≤ s.xlen.toNat → InBounds s.cfg s.dst.toNat n → ¬ Overlap s.src.toNat n s.dst.toNat n →
      ∃ t, exec .blkdec s = .next t ∧ storesAt s t s.dst.toNat (s.readBytes s.src.toNat n) ∧
        t.outlen.toNat = n ∧ t.inlen.toNat = n ∧ t.src.toNat = s.src.toNat + n ∧
        t.dst.toNat = s.dst.toNat + n ∧ t.xlen.toNat = s.xlen.toNat - n ∧
        t = { s with
          mem := t.mem, outlen := t.outlen, inlen := t.inlen, src := t.src, dst := t.dst, xlen := t.xlen
          status := s.okStatus }

/-- spec/44_inflate.md R262: a compressed block is inflated with the target `min(XLEN, BSIZE)`; on success the cursors
advance and `SIZEMIS` says whether the target was met, on failure the emitted bytes are kept and the operands stay. -/
def Obligations.BlkdecInflatesCompressedBlocks : Prop :=
  ∀ (s : State) (n m : Nat),
    s.bsize ≠ 0 → blockLength s n → InBounds s.cfg s.src.toNat n → blockIsStream s →
    m = min s.xlen.toNat s.bsize.toNat → InBounds s.cfg s.dst.toNat m → ¬ Overlap s.src.toNat n s.dst.toNat m →
      (∀ out used, inflate (s.readBytes s.src.toNat n) m = .ok out used →
        ∃ t, exec .blkdec s = .next t ∧ storesAt s t s.dst.toNat out ∧
          t.outlen.toNat = out.length ∧ t.inlen.toNat = n ∧ t.src.toNat = s.src.toNat + n ∧
          t.dst.toNat = s.dst.toNat + out.length ∧ t.xlen.toNat = s.xlen.toNat - out.length ∧
          t = { s with
            mem := t.mem, outlen := t.outlen, inlen := t.inlen, src := t.src, dst := t.dst, xlen := t.xlen
            status := { code := .ok, sizeMis := decide (out.length ≠ m), sticky := s.status.sticky } }) ∧
      (∀ e out, inflate (s.readBytes s.src.toNat n) m = .err e out →
        ∃ t, exec .blkdec s = .next t ∧ storesAt s t s.dst.toNat out ∧ t.outlen.toNat = out.length ∧
          t = { s with mem := t.mem, outlen := t.outlen, inlen := 0, status := s.errStatus e.toCode })

/-- spec/44_inflate.md R262, spec/60_exceptions.md R315: the pre-checks of `BLKDEC` and their order. -/
def Obligations.BlkdecChecksInOrder : Prop :=
  ∀ (s : State) (n : Nat), blockLength s n →
    let m := min s.xlen.toNat s.bsize.toNat
    (s.bsize = 0 → exec .blkdec s = .next (s.dataFaulted .range)) ∧
    (s.bsize ≠ 0 → ¬ InBounds s.cfg s.src.toNat n → exec .blkdec s = .next (s.dataFaulted .bounds)) ∧
    (s.bsize ≠ 0 → InBounds s.cfg s.src.toNat n → blockIsStream s →
      (¬ InBounds s.cfg s.dst.toNat m → exec .blkdec s = .next (s.dataFaulted .bounds)) ∧
      (InBounds s.cfg s.dst.toNat m → Overlap s.src.toNat n s.dst.toNat m →
        exec .blkdec s = .next (s.dataFaulted .overlap))) ∧
    (s.bsize ≠ 0 → InBounds s.cfg s.src.toNat n → ¬ blockIsStream s →
      (s.xlen.toNat < n → exec .blkdec s = .next (s.dataFaulted .overrun)) ∧
      (n ≤ s.xlen.toNat → ¬ InBounds s.cfg s.dst.toNat n → exec .blkdec s = .next (s.dataFaulted .bounds)) ∧
      (n ≤ s.xlen.toNat → InBounds s.cfg s.dst.toNat n → Overlap s.src.toNat n s.dst.toNat n →
        exec .blkdec s = .next (s.dataFaulted .overlap)))

/-! ### The whole machine -/

/-- spec/10_state.md R42: the invariant of the next statement holds after reset, whatever the parameters and the
power-on draw. Its clause on the canonical list form of `MEM` is the model's choice (log 4). -/
def Obligations.ResetMeetsTheInvariant : Prop :=
  ∀ (c : Config) (n : Nat), (State.resetWith c n).Inv

/-- Every step keeps the invariant: no written byte outside `MEM` (spec/20_memory.md R61), lengths within `MEMSIZE`
(spec/10_state.md R25, R26), a result code the command in `CMD` can raise (spec/60_exceptions.md R311), `SIZEMIS` only
beside `OK` of `INFLATE` or `BLKDEC` (spec/10_state.md R31); and, the model's choice (log 4) and no rule of the spec,
the canonical list form of `MEM`. -/
def Obligations.EveryStepKeepsTheInvariant : Prop :=
  ∀ s t : State, s.Inv → step s = .next t → t.Inv

/-- spec/60_exceptions.md R310: every command completes, in every state. It leaves the word in `CMD` (spec/10_state.md
R30, spec/30_encoding.md R90), but for `SRST`, which clears it (spec/45_system.md R300), and the parameters as they are
(spec/10_state.md R43); and it leaves the model's own fields `draw`, `inputs` and `reply` (logs 3, 5, 6) alone. -/
def Obligations.EveryCommandCompletes : Prop :=
  ∀ (i : Instr) (s : State), ∃ t, exec i s = .next t ∧
    t.cmd = (if i = .srst then 0 else s.cmd) ∧ t.cfg = s.cfg ∧ t.draw = s.draw ∧ t.inputs = s.inputs ∧
    t.reply = s.reply

/-- spec/60_exceptions.md R311: each command completes only with a code the table lists for it, and the codes have the
table's numbers. -/
def Obligations.CodesAreThoseTheTableLists : Prop :=
  (∀ (i : Instr) (s t : State), exec i s = .next t → t.status.code ∈ raisable i) ∧
    [ResultCode.ok, .illegalCmd, .bounds, .overlap, .range, .length, .overrun, .cryptoPlatform, .infHeader, .infData,
      .infTrunc, .infOverflow, .infAdler].map ResultCode.toByte
      = [0x00, 0x01, 0x02, 0x03, 0x04, 0x05, 0x06, 0x10, 0x20, 0x21, 0x22, 0x23, 0x24]

/-- spec/60_exceptions.md R312: every command but `SRST` sets `STICKY` when its code is not `OK` and leaves it
otherwise; spec/10_state.md R31, spec/44_inflate.md R261: only `INFLATE` and `BLKDEC` that end `OK` set `SIZEMIS`. -/
def Obligations.StickyRemembersEveryFault : Prop :=
  ∀ (i : Instr) (s t : State), exec i s = .next t → i ≠ .srst →
    t.status.sticky = (s.status.sticky || t.status.code != .ok) ∧
    (t.status.sizeMis = true → t.status.code = .ok ∧ (i = .inflate ∨ i = .blkdec))

/-- spec/60_exceptions.md R313: a pre-check fault changes nothing but `STATUS`, and `OUTLEN` and `INLEN` of a data
command; the other two kinds change what the rule names and nothing else. -/
def Obligations.FaultsArePrecise : Prop :=
  ∀ (i : Instr) (s t : State), exec i s = .next t →
    ((t.status.code ∈ preCheckCodes ∨ (i = .sngenc ∧ t.status.code = .cryptoPlatform)) →
      t = if isData i then s.dataFaulted t.status.code else s.faulted t.status.code) ∧
    (i = .sngdec → t.status.code = .cryptoPlatform →
      t = { s.dataFaulted .cryptoPlatform with
        ectx := { s.ectx with enc := true, plat := .unknown }
        iv := containerIv s s.src.toNat }) ∧
    (t.status.code ∈ streamCodes →
      t = { s with mem := t.mem, outlen := t.outlen, inlen := 0, status := s.errStatus t.status.code } ∧
      ∀ a, a < s.dst.toNat ∨ s.dst.toNat + t.outlen.toNat ≤ a → t.byteAt a = s.byteAt a)

/-- spec/20_memory.md R66, R78: a command writes no byte outside the range the W column gives it. -/
def Obligations.CommandsWriteOnlyTheirRange : Prop :=
  ∀ (i : Instr) (s t : State), exec i s = .next t →
    ∀ a, ¬ inRange (writeRange i s t) a → t.byteAt a = s.byteAt a

/-- spec/20_memory.md R66, R78: what a command does depends on no byte outside the ranges the R column gives it: on two
states that differ in other bytes only, every register ends the same, and every byte ends the same or was not
touched. -/
def Obligations.CommandsReadOnlyTheirRanges : Prop :=
  ∀ (i : Instr) (s s' t t' : State),
    s' = { s with mem := s'.mem } →
    (∀ r ∈ readRanges i s, ∀ a, inRange r a → s'.byteAt a = s.byteAt a) →
    exec i s = .next t → exec i s' = .next t' →
      t' = { t with mem := t'.mem } ∧
      ∀ a, t'.byteAt a = t.byteAt a ∨ (t.byteAt a = s.byteAt a ∧ t'.byteAt a = s'.byteAt a)

/-- Which commands write each operand, result and context register, `SRST` apart; what no listed command wrote is as
before. The cursors and `XLEN`: spec/70_reset_and_hazards.md R363, spec/10_state.md R24; `LEN`, `BSIZE`, `ECTX`, `IV`:
spec/10_state.md R23, R29, R32, R35; `VAL`: spec/10_state.md R27, spec/40_intcodec.md R121, R123, R125; `OUTLEN` and
`INLEN`, by the data commands alone: spec/10_state.md R25, R26. -/
def Obligations.RegistersKeepTheirWriters : Prop :=
  ∀ (i : Instr) (s t : State), exec i s = .next t → i ≠ .srst →
    (t.src ≠ s.src → i ∈ [.rdbe2, .rdbe3, .rdbe4, .rdbe5, .rdle4, .blkdec]) ∧
    (t.dst ≠ s.dst → i ∈ [.wrbe2, .wrbe3, .wrbe4, .wrbe5, .wrle4, .blkdec]) ∧
    (t.xlen ≠ s.xlen → i = .blkdec) ∧
    t.len = s.len ∧ t.bsize = s.bsize ∧ t.ectx.tplat = s.ectx.tplat ∧
    (t.val ≠ s.val → i ∈ [.rdbe2, .rdbe3, .rdbe4, .rdbe5, .rdle4, .ztype]) ∧
    (t.iv ≠ s.iv →
      i ∈ [.ivld, .ivinc, .ctrdecPc, .ctrdecMac, .ctrencPc, .ctrencMac, .sngprobe, .sngdec, .sngenc]) ∧
    (t.ectx.plat ≠ s.ectx.plat → i ∈ [.sngprobe, .sngdec]) ∧
    (t.ectx.enc ≠ s.ectx.enc → i ∈ [.sngdet, .sngdec]) ∧
    ((t.outlen ≠ s.outlen ∨ t.inlen ≠ s.inlen) → isData i = true)
end

