-- ==== Sys2Proof/Laws/Bytes.lean ====
section
/-! SUPPORT. Byte sequences and the integers they stand for (spec/00_scope.md R11): lengths, bounds, inverses. -/

namespace Sys2Proof.Machine

@[simp] theorem toLE_length (v n : Nat) : (toLE v n).length = n := by
  induction n generalizing v with
  | zero => rfl
  | succ n ih => simp [toLE, ih]

@[simp] theorem toBE_length (v n : Nat) : (toBE v n).length = n := by
  simp [toBE]

@[simp] theorem blockBytes_length (b : Block) : (blockBytes b).length = 16 :=
  toBE_length _ _

@[simp] theorem keyBytes_length (k : Key) : (keyBytes k).length = 32 :=
  toBE_length _ _

/-- Byte `j` of `toLE(v, n)`. -/
theorem toLE_getElem? (v n j : Nat) :
    (toLE v n)[j]? = if j < n then some (BitVec.ofNat 8 (v / 256 ^ j)) else none := by
  induction n generalizing v j with
  | zero => simp [toLE]
  | succ n ih =>
    cases j with
    | zero => simp [toLE]
    | succ j => simp [toLE, ih, Nat.pow_succ', Nat.div_div_eq_div_mul]

/-- Byte `j` of `toBE(v, n)`. -/
theorem toBE_getElem? (v n j : Nat) :
    (toBE v n)[j]? = if j < n then some (BitVec.ofNat 8 (v / 256 ^ (n - 1 - j))) else none := by
  unfold toBE
  by_cases h : j < n
  · rw [List.getElem?_reverse (by simpa using h), toLE_getElem?, if_pos h, toLE_length, if_pos (by omega)]
  · rw [if_neg h, List.getElem?_eq_none (by simpa using h)]

theorem leNat_lt (bs : List Byte) : leNat bs < 256 ^ bs.length := by
  induction bs with
  | nil => simp [leNat]
  | cons b bs ih =>
    have hb := b.isLt
    simp only [leNat, List.length_cons, Nat.pow_succ]
    omega

/-- The value of a sequence extended at its far end. -/
theorem leNat_append (bs cs : List Byte) : leNat (bs ++ cs) = leNat bs + 256 ^ bs.length * leNat cs := by
  induction bs with
  | nil => simp [leNat]
  | cons b bs ih =>
    simp only [List.cons_append, leNat, ih, List.length_cons, Nat.pow_succ]
    ring

/-- Big-endian is little-endian of the reversed sequence. -/
theorem beNat_eq_leNat_reverse (bs : List Byte) : beNat bs = leNat bs.reverse := by
  have h : ∀ (bs : List Byte) (v : Nat),
      bs.foldl (fun v b => v * 256 + b.toNat) v = leNat bs.reverse + 256 ^ bs.length * v := by
    intro bs
    induction bs with
    | nil => intro v; simp [leNat]
    | cons b bs ih =>
      intro v
      rw [List.foldl_cons, ih, List.reverse_cons, leNat_append, List.length_reverse, List.length_cons, Nat.pow_succ]
      simp only [leNat]
      ring
  have := h bs 0
  rw [Nat.mul_zero, Nat.add_zero] at this
  exact this

theorem beNat_lt (bs : List Byte) : beNat bs < 256 ^ bs.length := by
  rw [beNat_eq_leNat_reverse]
  simpa using leNat_lt bs.reverse

/-- `LE(toLE(v, n))` is `v`, the high part cut off. -/
theorem leNat_toLE (v n : Nat) : leNat (toLE v n) = v % 256 ^ n := by
  induction n generalizing v with
  | zero => simp [toLE, leNat, Nat.mod_one]
  | succ n ih =>
    rw [toLE, leNat, ih, BitVec.toNat_ofNat, Nat.pow_succ' (n := n), Nat.mod_mul]

/-- `BE(toBE(v, n))` is `v`, the high part cut off. -/
theorem beNat_toBE (v n : Nat) : beNat (toBE v n) = v % 256 ^ n := by
  rw [beNat_eq_leNat_reverse, toBE, List.reverse_reverse, leNat_toLE]

/-- `toLE` gives back the bytes whose value it is given. -/
theorem toLE_leNat (bs : List Byte) : toLE (leNat bs) bs.length = bs := by
  induction bs with
  | nil => rfl
  | cons b bs ih =>
    have hb := b.isLt
    have h2 : leNat (b :: bs) / 256 = leNat bs := by simp only [leNat]; omega
    have h1 : BitVec.ofNat 8 (leNat (b :: bs)) = b := by
      apply BitVec.eq_of_toNat_eq
      simp only [leNat, BitVec.toNat_ofNat]
      omega
    rw [List.length_cons, toLE, h1, h2, ih]

/-- `toBE` gives back the bytes whose value it is given. -/
theorem toBE_beNat (bs : List Byte) : toBE (beNat bs) bs.length = bs := by
  have h := toLE_leNat bs.reverse
  rw [List.length_reverse] at h
  rw [toBE, beNat_eq_leNat_reverse, h, List.reverse_reverse]

/-- The bytes of a block made of sixteen bytes are those bytes. -/
theorem blockBytes_bytesBlock (bs : List Byte) (h : bs.length = 16) : blockBytes (bytesBlock bs) = bs := by
  have hlt : beNat bs < 2 ^ 128 := by
    have := beNat_lt bs
    rw [h] at this
    exact this
  rw [blockBytes, bytesBlock, BitVec.toNat_ofNat, Nat.mod_eq_of_lt hlt]
  have := toBE_beNat bs
  rwa [h] at this

/-- The block made of a block's bytes is that block. -/
theorem bytesBlock_blockBytes (b : Block) : bytesBlock (blockBytes b) = b := by
  apply BitVec.eq_of_toNat_eq
  rw [bytesBlock, blockBytes, beNat_toBE, BitVec.toNat_ofNat]
  have : (256 : Nat) ^ 16 = 2 ^ 128 := by norm_num
  rw [this, Nat.mod_mod, Nat.mod_eq_of_lt b.isLt]

@[simp] theorem xorBytes_length (a b : List Byte) : (xorBytes a b).length = min a.length b.length := by
  simp [xorBytes]

/-- Byte `j` of an exclusive or. -/
theorem xorBytes_getElem? (a b : List Byte) (j : Nat) :
    (xorBytes a b)[j]? = if j < a.length ∧ j < b.length then some (a.getD j 0 ^^^ b.getD j 0) else none := by
  by_cases h : j < a.length ∧ j < b.length
  · simp [xorBytes, h]
  · rw [if_neg h, List.getElem?_eq_none]
    simp only [xorBytes_length]
    omega

/-- Xoring twice with the same long enough sequence gives the data back. -/
theorem xorBytes_cancel (a b : List Byte) (h : a.length ≤ b.length) : xorBytes (xorBytes a b) b = a := by
  induction a generalizing b with
  | nil => rfl
  | cons x a ih =>
    cases b with
    | nil => simp at h
    | cons y b =>
      simp only [List.length_cons] at h
      have := ih b (by omega)
      simp only [xorBytes, List.zipWith_cons_cons] at this ⊢
      rw [this, BitVec.xor_assoc, BitVec.xor_self, BitVec.xor_zero]

/-- `ZType` in closed form (spec/40_intcodec.md R128). -/
theorem zType_eq (b : Word) :
    zType b = if b.toNat ≤ 65536 then 2 else if b.toNat ≤ 16777216 then 3 else 4 := by
  have hb := b.isLt
  simp only [zType, zTypeLoop]
  split
  · rfl
  · split
    · rfl
    · rw [if_pos (by omega)]

end Sys2Proof.Machine
end

