-- ==== Sys2Proof/Laws/Cipher.lean ====
section
/-! SUPPORT. The two chainings byte by byte: lengths, what each output byte is, and the final counter
(spec/42_ctr_sng.md R182, spec/43_toc_cfb.md R221). -/

namespace Sys2Proof.Machine

theorem aes256Enc_eq (k : Key) (b : Block) : encryptBlock (keyExpansion k) b = aes256Enc k b := rfl

@[simp] theorem ctrBlocks_length (w : KeySchedule) (n : Nat) (iv : Block) (data : List Byte) :
    (ctrBlocks w n iv data).1.length = min data.length (16 * n) := by
  induction n generalizing iv data with
  | zero => simp [ctrBlocks]
  | succ n ih => simp [ctrBlocks, ih]; omega

/-- The counter after `n` blocks. -/
theorem ctrBlocks_iv (w : KeySchedule) (n : Nat) (iv : Block) (data : List Byte) :
    (ctrBlocks w n iv data).2 = iv + BitVec.ofNat 128 n := by
  induction n generalizing iv data with
  | zero => simp [ctrBlocks]
  | succ n ih =>
    simp only [ctrBlocks, ih, inc128]
    rw [BitVec.add_assoc, Nat.add_comm, BitVec.ofNat_add]
    rfl

/-- Byte `j` after `n` blocks. -/
theorem ctrBlocks_getElem? (w : KeySchedule) (n : Nat) (iv : Block) (data : List Byte) (j : Nat)
    (hj : j < data.length) (hn : j < 16 * n) :
    (ctrBlocks w n iv data).1[j]?
      = some (data.getD j 0 ^^^ (blockBytes (encryptBlock w (iv + BitVec.ofNat 128 (j / 16)))).getD (j % 16) 0) := by
  induction n generalizing iv data j with
  | zero => omega
  | succ n ih =>
    simp only [ctrBlocks]
    by_cases h : j < 16
    · rw [List.getElem?_append_left (by simp; omega), xorBytes_getElem?, if_pos (by simp; omega)]
      have h1 : j / 16 = 0 := by omega
      have h2 : j % 16 = j := by omega
      simp [h1, h2, List.getD_eq_getElem?_getD, h]
    · have hl : (xorBytes (data.take 16) (blockBytes (encryptBlock w iv))).length = 16 := by simp; omega
      rw [List.getElem?_append_right (by omega), hl, ih (inc128 iv) (data.drop 16) (j - 16) (by simp; omega) (by omega)]
      have h1 : j / 16 = (j - 16) / 16 + 1 := by omega
      have h2 : (j - 16) % 16 = j % 16 := by omega
      have h3 : 16 + (j - 16) = j := by omega
      have h4 : inc128 iv + BitVec.ofNat 128 ((j - 16) / 16) = iv + BitVec.ofNat 128 (j / 16) := by
        rw [h1, inc128, BitVec.add_assoc, Nat.add_comm, BitVec.ofNat_add]
        rfl
      rw [h2, h4]
      simp [List.getD_eq_getElem?_getD, h3]

/-- `CtrXform` keeps the length of the data. -/
@[simp] theorem ctrXform_length (k : Key) (iv : Block) (data : List Byte) :
    (ctrXform k iv data).1.length = data.length := by
  rw [ctrXform, ctrBlocks_length]
  omega

/-- The final counter of `CtrXform` (spec/42_ctr_sng.md R182). -/
@[simp] theorem ctrXform_iv (k : Key) (iv : Block) (data : List Byte) :
    (ctrXform k iv data).2 = iv + BitVec.ofNat 128 ((data.length + 15) / 16) :=
  ctrBlocks_iv _ _ _ _

/-- Byte `j` of `CtrXform` (spec/42_ctr_sng.md R182). -/
theorem ctrXform_getElem? (k : Key) (iv : Block) (data : List Byte) (j : Nat) (hj : j < data.length) :
    (ctrXform k iv data).1[j]? = some (data.getD j 0 ^^^ keystreamByte k iv j) :=
  ctrBlocks_getElem? _ _ _ _ _ hj (by omega)

/-- The same, with a default beyond the end. -/
theorem ctrXform_getD (k : Key) (iv : Block) (data : List Byte) (j : Nat) (hj : j < data.length) :
    (ctrXform k iv data).1.getD j 0 = data.getD j 0 ^^^ keystreamByte k iv j := by
  rw [List.getD_eq_getElem?_getD, ctrXform_getElem? k iv data j hj, Option.getD_some]

/-- `cfbBlocks` keeps the length of the data. -/
@[simp] theorem cfbBlocks_length (w : KeySchedule) (dir : CfbDir) (n : Nat) (fb : Block) (data : List Byte)
    (h : 16 * n ≤ data.length) : (cfbBlocks w dir n fb data).length = data.length := by
  induction n generalizing fb data with
  | zero => rfl
  | succ n ih =>
    rw [cfbBlocks, List.length_append, ih _ _ (by simp; omega)]
    simp
    omega

/-- The next block's feedback is the ciphertext block just done: of the data when decrypting, of the output when
encrypting. -/
theorem cfbBlocks_getElem? (w : KeySchedule) (dir : CfbDir) (n : Nat) (fb : Block) (data : List Byte) (j : Nat)
    (hn : 16 * n ≤ data.length) (hj : j < 16 * n) :
    (cfbBlocks w dir n fb data)[j]?
      = some (data.getD j 0 ^^^ (blockBytes (encryptBlock w (if j / 16 = 0 then fb
          else blockAt (cfbFeedback dir data (cfbBlocks w dir n fb data)) (j / 16 - 1)))).getD (j % 16) 0) := by
  induction n generalizing fb data j with
  | zero => omega
  | succ n ih =>
    have hl : (xorBytes (data.take 16) (blockBytes (encryptBlock w fb))).length = 16 := by simp; omega
    have hcut : ∀ k, blockAt (cfbFeedback dir data (cfbBlocks w dir (n + 1) fb data)) (k + 1)
        = blockAt (cfbFeedback dir (data.drop 16) (cfbBlocks w dir n (bytesBlock (cfbFeedback dir (data.take 16)
            (xorBytes (data.take 16) (blockBytes (encryptBlock w fb))))) (data.drop 16))) k := by
      intro k
      have hk : 16 * (k + 1) = 16 + 16 * k := by omega
      cases dir with
      | dec => simp [cfbFeedback, blockAt, hk]
      | enc =>
        simp only [cfbFeedback, blockAt, cfbBlocks]
        rw [hk, ← List.drop_drop, List.drop_left' hl]
    have hfirst : blockAt (cfbFeedback dir data (cfbBlocks w dir (n + 1) fb data)) 0
        = bytesBlock (cfbFeedback dir (data.take 16)
            (xorBytes (data.take 16) (blockBytes (encryptBlock w fb)))) := by
      cases dir with
      | dec => simp [cfbFeedback, blockAt]
      | enc =>
        simp only [cfbFeedback, blockAt, cfbBlocks, Nat.mul_zero, List.drop_zero]
        rw [List.take_append_of_le_length (by omega), List.take_of_length_le (by omega)]
    by_cases h : j < 16
    · rw [cfbBlocks, List.getElem?_append_left (by omega), xorBytes_getElem?, if_pos (by simp; omega)]
      have h1 : j / 16 = 0 := by omega
      have h2 : j % 16 = j := by omega
      simp [h1, h2, List.getD_eq_getElem?_getD, h]
    · have h1 : j / 16 = (j - 16) / 16 + 1 := by omega
      have h2 : (j - 16) % 16 = j % 16 := by omega
      have h3 : 16 + (j - 16) = j := by omega
      rw [show cfbBlocks w dir (n + 1) fb data = xorBytes (data.take 16) (blockBytes (encryptBlock w fb))
          ++ cfbBlocks w dir n (bytesBlock (cfbFeedback dir (data.take 16)
            (xorBytes (data.take 16) (blockBytes (encryptBlock w fb))))) (data.drop 16) from rfl] at hcut hfirst ⊢
      rw [List.getElem?_append_right (by omega), hl, ih _ (data.drop 16) (j - 16) (by simp; omega) (by omega), h2]
      have hd : (data.drop 16).getD (j - 16) 0 = data.getD j 0 := by
        simp [List.getD_eq_getElem?_getD, h3]
      rw [hd, if_neg (by omega : ¬ j / 16 = 0)]
      by_cases h0 : (j - 16) / 16 = 0
      · rw [if_pos h0, show j / 16 - 1 = 0 by omega, hfirst]
      · rw [if_neg h0, show j / 16 - 1 = ((j - 16) / 16 - 1) + 1 by omega, hcut]

/-- Beyond the blocks the data stands unchanged. -/
theorem cfbBlocks_tail (w : KeySchedule) (dir : CfbDir) (n : Nat) (fb : Block) (data : List Byte) (j : Nat)
    (hn : 16 * n ≤ data.length) (hj : 16 * n ≤ j) : (cfbBlocks w dir n fb data)[j]? = data[j]? := by
  induction n generalizing fb data j with
  | zero => rfl
  | succ n ih =>
    have hl : (xorBytes (data.take 16) (blockBytes (encryptBlock w fb))).length = 16 := by simp; omega
    rw [cfbBlocks, List.getElem?_append_right (by omega), hl, ih _ _ _ (by simp; omega) (by omega),
      List.getElem?_drop, show 16 + (j - 16) = j by omega]

/-- `TocCfb` keeps the length of the data (spec/43_toc_cfb.md R221). -/
@[simp] theorem tocCfb_length (k : Key) (data : List Byte) (dir : CfbDir) :
    (tocCfb k data dir).length = data.length :=
  cfbBlocks_length _ _ _ _ _ (by rw [tocTrunc]; omega)

/-- Byte `j` of `TocCfb` inside the transformed range (spec/43_toc_cfb.md R221). -/
theorem tocCfb_getD (k : Key) (data : List Byte) (dir : CfbDir) (j : Nat)
    (hj : j < data.length - data.length % 32) :
    (tocCfb k data dir).getD j 0
      = data.getD j 0 ^^^ cfbKeystreamByte k (cfbFeedback dir data (tocCfb k data dir)) j := by
  have h := cfbBlocks_getElem? (keyExpansion k) dir ((data.length - data.length % tocTrunc) / 16) 0 data j
    (by rw [tocTrunc]; omega) (by rw [tocTrunc]; omega)
  rw [List.getD_eq_getElem?_getD, tocCfb, h, Option.getD_some]
  rfl

/-- Byte `j` of `TocCfb` in the tail (spec/43_toc_cfb.md R221). -/
theorem tocCfb_tail (k : Key) (data : List Byte) (dir : CfbDir) (j : Nat)
    (hj : data.length - data.length % 32 ≤ j) : (tocCfb k data dir).getD j 0 = data.getD j 0 := by
  rw [List.getD_eq_getElem?_getD, List.getD_eq_getElem?_getD, tocCfb,
    cfbBlocks_tail _ _ _ _ _ _ (by rw [tocTrunc]; omega) (by rw [tocTrunc]; omega)]

end Sys2Proof.Machine
end

