-- ==== Sys2Proof/Laws/Memory.lean ====
section
/-! SUPPORT. `MEM`: the canonical form is kept by every operation, and what a read gives after a write. -/

namespace Sys2Proof.Machine

/-- What stands at an address after one byte was written. -/
theorem Memory.written_insert (a x : Nat) (b : Byte) (m : Memory) :
    Memory.written x (Memory.insert a b m) = if x = a then some b else Memory.written x m := by
  induction m with
  | nil => simp only [Memory.insert, Memory.written, eq_comm]
  | cons c m ih =>
    unfold Memory.insert
    split
    · simp only [Memory.written, eq_comm]
    · split
      · next heq =>
        subst heq
        simp only [Memory.written, eq_comm]
        split <;> rfl
      · next heq =>
        simp only [Memory.written, ih]
        split
        · next hx => rw [if_neg (fun e => heq (e.symm.trans hx.symm))]
        · rfl

theorem Memory.mem_insert (a : Nat) (b : Byte) (c : Host.Cell) :
    ∀ m : Memory, c ∈ Memory.insert a b m → c = (a, b) ∨ c ∈ m
  | [], h => by simpa [Memory.insert] using h
  | d :: m, h => by
    unfold Memory.insert at h
    split at h
    · simpa using h
    · split at h
      · rcases List.mem_cons.mp h with h | h
        · exact .inl h
        · exact .inr (List.mem_cons_of_mem _ h)
      · rcases List.mem_cons.mp h with h | h
        · exact .inr (by simp [h])
        · rcases Memory.mem_insert a b c m h with h | h
          · exact .inl h
          · exact .inr (List.mem_cons_of_mem _ h)

/-- Writing a byte keeps the canonical form. -/
theorem Memory.insert_wf (a : Nat) (b : Byte) : ∀ m : Memory, Memory.wf m → Memory.wf (Memory.insert a b m)
  | [], _ => by simp [Memory.insert, Memory.wf]
  | c :: m, hm => by
    obtain ⟨hgt, hm'⟩ := List.pairwise_cons.mp hm
    unfold Memory.insert
    split
    · next hlt =>
      refine List.pairwise_cons.mpr ⟨fun d hd => ?_, hm⟩
      rcases List.mem_cons.mp hd with h | h
      · subst h; exact hlt
      · exact hlt.trans (hgt d h)
    · split
      · next heq => exact List.pairwise_cons.mpr ⟨fun d hd => heq ▸ hgt d hd, hm'⟩
      · next hlt heq =>
        refine List.pairwise_cons.mpr ⟨fun d hd => ?_, Memory.insert_wf a b m hm'⟩
        rcases Memory.mem_insert a b d m hd with h | h
        · subst h; show c.1 < a; omega
        · exact hgt d h

/-- Writing a byte inside `MEM` keeps every listed address inside. -/
theorem Memory.insert_within {size a : Nat} (b : Byte) (m : Memory) (ha : a < size)
    (hm : Memory.within size m) : Memory.within size (Memory.insert a b m) := by
  intro c hc
  rcases Memory.mem_insert a b c m hc with h | h
  · subst h; exact ha
  · exact hm c h

/-- Writing bytes keeps the canonical form. -/
theorem Memory.insertAll_wf (bs : List Byte) :
    ∀ (a : Nat) (m : Memory), Memory.wf m → Memory.wf (Memory.insertAll a bs m) := by
  induction bs with
  | nil => intro a m hm; exact hm
  | cons b bs ih => intro a m hm; exact ih _ _ (Memory.insert_wf a b m hm)

/-- Writing bytes inside `MEM` keeps every listed address inside. -/
theorem Memory.insertAll_within {size : Nat} (bs : List Byte) :
    ∀ (a : Nat) (m : Memory), a + bs.length ≤ size → Memory.within size m →
      Memory.within size (Memory.insertAll a bs m) := by
  induction bs with
  | nil => intro a m _ hm; exact hm
  | cons b bs ih =>
    intro a m ha hm
    simp only [List.length_cons] at ha
    exact ih _ _ (by omega) (Memory.insert_within b m (by omega) hm)

/-- What stands at an address after bytes were written. -/
theorem Memory.written_insertAll (bs : List Byte) :
    ∀ (a x : Nat) (m : Memory),
      Memory.written x (Memory.insertAll a bs m)
        = if a ≤ x ∧ x < a + bs.length then bs[x - a]? else Memory.written x m := by
  induction bs with
  | nil => intro a x m; rw [if_neg (by simp only [List.length_nil]; omega)]; rfl
  | cons b bs ih =>
    intro a x m
    rw [Memory.insertAll, ih, Memory.written_insert]
    simp only [List.length_cons]
    rcases Nat.lt_trichotomy x a with h | h | h
    · rw [if_neg (by omega), if_neg (by omega), if_neg (by omega)]
    · subst h
      rw [if_neg (by omega), if_pos rfl, if_pos (by omega)]
      simp
    · by_cases hx : x < a + 1 + bs.length
      · rw [if_pos (by omega), if_pos (by omega)]
        obtain ⟨k, rfl⟩ : ∃ k, x = a + 1 + k := ⟨x - (a + 1), by omega⟩
        have e1 : a + 1 + k - (a + 1) = k := by omega
        have e2 : a + 1 + k - a = k + 1 := by omega
        simp [e1, e2]
      · rw [if_neg (by omega), if_neg (by omega), if_neg (by omega)]

@[simp] theorem readBytes_length (s : State) (a n : Nat) : (s.readBytes a n).length = n := by
  induction n generalizing a with
  | zero => rfl
  | succ n ih => simp [State.readBytes, ih]

/-- `MemRead` byte by byte (spec/00_scope.md R12). -/
theorem readBytes_getElem? (s : State) (a n j : Nat) :
    (s.readBytes a n)[j]? = if j < n then some (s.byteAt (a + j)) else none := by
  induction n generalizing a j with
  | zero => simp [State.readBytes]
  | succ n ih =>
    cases j with
    | zero => simp [State.readBytes]
    | succ j => simp [State.readBytes, ih, Nat.add_assoc, Nat.add_comm 1 j]

@[simp] theorem readBytes_getElem (s : State) (a n j : Nat) (h : j < (s.readBytes a n).length) :
    (s.readBytes a n)[j] = s.byteAt (a + j) := by
  have hj : j < n := by simpa using h
  have := readBytes_getElem? s a n j
  rw [List.getElem?_eq_getElem h, if_pos hj] at this
  exact Option.some.inj this

/-- Two states that agree on the bytes of a range read the same from it. -/
theorem readBytes_congr {s t : State} {a n : Nat} (h : ∀ x, a ≤ x → x < a + n → s.byteAt x = t.byteAt x) :
    s.readBytes a n = t.readBytes a n := by
  apply List.ext_getElem?
  intro j
  rw [readBytes_getElem?, readBytes_getElem?]
  split
  · rw [h (a + j) (by omega) (by omega)]
  · rfl

/-- `MEM` after a write: the bytes written inside the range, the bytes as before outside (spec/20_memory.md R67). -/
theorem byteAt_writeBytes (s : State) (a : Nat) (bs : List Byte) (x : Nat) :
    (s.writeBytes a bs).byteAt x = if a ≤ x ∧ x < a + bs.length then bs.getD (x - a) 0 else s.byteAt x := by
  show (match Memory.written x (Memory.insertAll a bs s.mem) with
    | some b => b
    | none => Config.powerOnByte s.draw x) = _
  rw [Memory.written_insertAll]
  by_cases h : a ≤ x ∧ x < a + bs.length
  · have hx : x - a < bs.length := by omega
    simp [h, hx]
  · rw [if_neg h, if_neg h]; rfl

/-- A write leaves every byte outside its range as it was. -/
theorem byteAt_writeBytes_outside (s : State) (a : Nat) (bs : List Byte) (x : Nat)
    (h : x < a ∨ a + bs.length ≤ x) : (s.writeBytes a bs).byteAt x = s.byteAt x := by
  rw [byteAt_writeBytes, if_neg (by omega)]

/-- A read outside the range of a write is not affected by it. -/
theorem readBytes_writeBytes_outside (s : State) (a : Nat) (bs : List Byte) (x n : Nat)
    (h : x + n ≤ a ∨ a + bs.length ≤ x) : (s.writeBytes a bs).readBytes x n = s.readBytes x n :=
  readBytes_congr fun y h1 h2 => byteAt_writeBytes_outside s a bs y (by omega)

/-- A read of what was just written gives it back. -/
theorem readBytes_writeBytes (s : State) (a : Nat) (bs : List Byte) :
    (s.writeBytes a bs).readBytes a bs.length = bs := by
  apply List.ext_getElem?
  intro j
  rw [readBytes_getElem?, byteAt_writeBytes]
  by_cases h : j < bs.length
  · rw [if_pos h, if_pos (by omega), Nat.add_sub_cancel_left]
    simp [h]
  · rw [if_neg h, List.getElem?_eq_none (Nat.le_of_not_lt h)]

end Sys2Proof.Machine
end

