-- ==== Sys2Proof/Laws/State.lean ====
section
/-! SUPPORT. One lemma per field per update of the state: what each named operation leaves in each field. -/

namespace Sys2Proof.Machine

@[simp] theorem complete_cfg (s : State) (c : ResultCode) (m : Bool) : (s.complete c m).cfg = s.cfg := rfl
@[simp] theorem complete_cmd (s : State) (c : ResultCode) (m : Bool) : (s.complete c m).cmd = s.cmd := rfl
@[simp] theorem complete_status (s : State) (c : ResultCode) (m : Bool) : (s.complete c m).status = s.status.completed c m := rfl
@[simp] theorem complete_src (s : State) (c : ResultCode) (m : Bool) : (s.complete c m).src = s.src := rfl
@[simp] theorem complete_dst (s : State) (c : ResultCode) (m : Bool) : (s.complete c m).dst = s.dst := rfl
@[simp] theorem complete_len (s : State) (c : ResultCode) (m : Bool) : (s.complete c m).len = s.len := rfl
@[simp] theorem complete_xlen (s : State) (c : ResultCode) (m : Bool) : (s.complete c m).xlen = s.xlen := rfl
@[simp] theorem complete_outlen (s : State) (c : ResultCode) (m : Bool) : (s.complete c m).outlen = s.outlen := rfl
@[simp] theorem complete_inlen (s : State) (c : ResultCode) (m : Bool) : (s.complete c m).inlen = s.inlen := rfl
@[simp] theorem complete_val (s : State) (c : ResultCode) (m : Bool) : (s.complete c m).val = s.val := rfl
@[simp] theorem complete_bsize (s : State) (c : ResultCode) (m : Bool) : (s.complete c m).bsize = s.bsize := rfl
@[simp] theorem complete_ectx (s : State) (c : ResultCode) (m : Bool) : (s.complete c m).ectx = s.ectx := rfl
@[simp] theorem complete_iv (s : State) (c : ResultCode) (m : Bool) : (s.complete c m).iv = s.iv := rfl
@[simp] theorem complete_mem (s : State) (c : ResultCode) (m : Bool) : (s.complete c m).mem = s.mem := rfl
@[simp] theorem complete_draw (s : State) (c : ResultCode) (m : Bool) : (s.complete c m).draw = s.draw := rfl
@[simp] theorem complete_inputs (s : State) (c : ResultCode) (m : Bool) : (s.complete c m).inputs = s.inputs := rfl
@[simp] theorem complete_reply (s : State) (c : ResultCode) (m : Bool) : (s.complete c m).reply = s.reply := rfl

@[simp] theorem done_cfg (s : State) : (s.done).cfg = s.cfg := rfl
@[simp] theorem done_cmd (s : State) : (s.done).cmd = s.cmd := rfl
@[simp] theorem done_status (s : State) : (s.done).status = s.status.completed .ok false := rfl
@[simp] theorem done_src (s : State) : (s.done).src = s.src := rfl
@[simp] theorem done_dst (s : State) : (s.done).dst = s.dst := rfl
@[simp] theorem done_len (s : State) : (s.done).len = s.len := rfl
@[simp] theorem done_xlen (s : State) : (s.done).xlen = s.xlen := rfl
@[simp] theorem done_outlen (s : State) : (s.done).outlen = s.outlen := rfl
@[simp] theorem done_inlen (s : State) : (s.done).inlen = s.inlen := rfl
@[simp] theorem done_val (s : State) : (s.done).val = s.val := rfl
@[simp] theorem done_bsize (s : State) : (s.done).bsize = s.bsize := rfl
@[simp] theorem done_ectx (s : State) : (s.done).ectx = s.ectx := rfl
@[simp] theorem done_iv (s : State) : (s.done).iv = s.iv := rfl
@[simp] theorem done_mem (s : State) : (s.done).mem = s.mem := rfl
@[simp] theorem done_draw (s : State) : (s.done).draw = s.draw := rfl
@[simp] theorem done_inputs (s : State) : (s.done).inputs = s.inputs := rfl
@[simp] theorem done_reply (s : State) : (s.done).reply = s.reply := rfl

@[simp] theorem doneSize_cfg (s : State) (m : Bool) : (s.doneSize m).cfg = s.cfg := rfl
@[simp] theorem doneSize_cmd (s : State) (m : Bool) : (s.doneSize m).cmd = s.cmd := rfl
@[simp] theorem doneSize_status (s : State) (m : Bool) : (s.doneSize m).status = s.status.completed .ok m := rfl
@[simp] theorem doneSize_src (s : State) (m : Bool) : (s.doneSize m).src = s.src := rfl
@[simp] theorem doneSize_dst (s : State) (m : Bool) : (s.doneSize m).dst = s.dst := rfl
@[simp] theorem doneSize_len (s : State) (m : Bool) : (s.doneSize m).len = s.len := rfl
@[simp] theorem doneSize_xlen (s : State) (m : Bool) : (s.doneSize m).xlen = s.xlen := rfl
@[simp] theorem doneSize_outlen (s : State) (m : Bool) : (s.doneSize m).outlen = s.outlen := rfl
@[simp] theorem doneSize_inlen (s : State) (m : Bool) : (s.doneSize m).inlen = s.inlen := rfl
@[simp] theorem doneSize_val (s : State) (m : Bool) : (s.doneSize m).val = s.val := rfl
@[simp] theorem doneSize_bsize (s : State) (m : Bool) : (s.doneSize m).bsize = s.bsize := rfl
@[simp] theorem doneSize_ectx (s : State) (m : Bool) : (s.doneSize m).ectx = s.ectx := rfl
@[simp] theorem doneSize_iv (s : State) (m : Bool) : (s.doneSize m).iv = s.iv := rfl
@[simp] theorem doneSize_mem (s : State) (m : Bool) : (s.doneSize m).mem = s.mem := rfl
@[simp] theorem doneSize_draw (s : State) (m : Bool) : (s.doneSize m).draw = s.draw := rfl
@[simp] theorem doneSize_inputs (s : State) (m : Bool) : (s.doneSize m).inputs = s.inputs := rfl
@[simp] theorem doneSize_reply (s : State) (m : Bool) : (s.doneSize m).reply = s.reply := rfl

@[simp] theorem raise_cfg (s : State) (e : ResultCode) : (s.raise e).cfg = s.cfg := rfl
@[simp] theorem raise_cmd (s : State) (e : ResultCode) : (s.raise e).cmd = s.cmd := rfl
@[simp] theorem raise_status (s : State) (e : ResultCode) : (s.raise e).status = s.status.completed e false := rfl
@[simp] theorem raise_src (s : State) (e : ResultCode) : (s.raise e).src = s.src := rfl
@[simp] theorem raise_dst (s : State) (e : ResultCode) : (s.raise e).dst = s.dst := rfl
@[simp] theorem raise_len (s : State) (e : ResultCode) : (s.raise e).len = s.len := rfl
@[simp] theorem raise_xlen (s : State) (e : ResultCode) : (s.raise e).xlen = s.xlen := rfl
@[simp] theorem raise_outlen (s : State) (e : ResultCode) : (s.raise e).outlen = s.outlen := rfl
@[simp] theorem raise_inlen (s : State) (e : ResultCode) : (s.raise e).inlen = s.inlen := rfl
@[simp] theorem raise_val (s : State) (e : ResultCode) : (s.raise e).val = s.val := rfl
@[simp] theorem raise_bsize (s : State) (e : ResultCode) : (s.raise e).bsize = s.bsize := rfl
@[simp] theorem raise_ectx (s : State) (e : ResultCode) : (s.raise e).ectx = s.ectx := rfl
@[simp] theorem raise_iv (s : State) (e : ResultCode) : (s.raise e).iv = s.iv := rfl
@[simp] theorem raise_mem (s : State) (e : ResultCode) : (s.raise e).mem = s.mem := rfl
@[simp] theorem raise_draw (s : State) (e : ResultCode) : (s.raise e).draw = s.draw := rfl
@[simp] theorem raise_inputs (s : State) (e : ResultCode) : (s.raise e).inputs = s.inputs := rfl
@[simp] theorem raise_reply (s : State) (e : ResultCode) : (s.raise e).reply = s.reply := rfl

@[simp] theorem beginData_cfg (s : State) : (s.beginData).cfg = s.cfg := rfl
@[simp] theorem beginData_cmd (s : State) : (s.beginData).cmd = s.cmd := rfl
@[simp] theorem beginData_status (s : State) : (s.beginData).status = s.status := rfl
@[simp] theorem beginData_src (s : State) : (s.beginData).src = s.src := rfl
@[simp] theorem beginData_dst (s : State) : (s.beginData).dst = s.dst := rfl
@[simp] theorem beginData_len (s : State) : (s.beginData).len = s.len := rfl
@[simp] theorem beginData_xlen (s : State) : (s.beginData).xlen = s.xlen := rfl
@[simp] theorem beginData_outlen (s : State) : (s.beginData).outlen = 0 := rfl
@[simp] theorem beginData_inlen (s : State) : (s.beginData).inlen = 0 := rfl
@[simp] theorem beginData_val (s : State) : (s.beginData).val = s.val := rfl
@[simp] theorem beginData_bsize (s : State) : (s.beginData).bsize = s.bsize := rfl
@[simp] theorem beginData_ectx (s : State) : (s.beginData).ectx = s.ectx := rfl
@[simp] theorem beginData_iv (s : State) : (s.beginData).iv = s.iv := rfl
@[simp] theorem beginData_mem (s : State) : (s.beginData).mem = s.mem := rfl
@[simp] theorem beginData_draw (s : State) : (s.beginData).draw = s.draw := rfl
@[simp] theorem beginData_inputs (s : State) : (s.beginData).inputs = s.inputs := rfl
@[simp] theorem beginData_reply (s : State) : (s.beginData).reply = s.reply := rfl

@[simp] theorem writeBytes_cfg (s : State) (a : Nat) (bs : List Byte) : (s.writeBytes a bs).cfg = s.cfg := rfl
@[simp] theorem writeBytes_cmd (s : State) (a : Nat) (bs : List Byte) : (s.writeBytes a bs).cmd = s.cmd := rfl
@[simp] theorem writeBytes_status (s : State) (a : Nat) (bs : List Byte) : (s.writeBytes a bs).status = s.status := rfl
@[simp] theorem writeBytes_src (s : State) (a : Nat) (bs : List Byte) : (s.writeBytes a bs).src = s.src := rfl
@[simp] theorem writeBytes_dst (s : State) (a : Nat) (bs : List Byte) : (s.writeBytes a bs).dst = s.dst := rfl
@[simp] theorem writeBytes_len (s : State) (a : Nat) (bs : List Byte) : (s.writeBytes a bs).len = s.len := rfl
@[simp] theorem writeBytes_xlen (s : State) (a : Nat) (bs : List Byte) : (s.writeBytes a bs).xlen = s.xlen := rfl
@[simp] theorem writeBytes_outlen (s : State) (a : Nat) (bs : List Byte) : (s.writeBytes a bs).outlen = s.outlen := rfl
@[simp] theorem writeBytes_inlen (s : State) (a : Nat) (bs : List Byte) : (s.writeBytes a bs).inlen = s.inlen := rfl
@[simp] theorem writeBytes_val (s : State) (a : Nat) (bs : List Byte) : (s.writeBytes a bs).val = s.val := rfl
@[simp] theorem writeBytes_bsize (s : State) (a : Nat) (bs : List Byte) : (s.writeBytes a bs).bsize = s.bsize := rfl
@[simp] theorem writeBytes_ectx (s : State) (a : Nat) (bs : List Byte) : (s.writeBytes a bs).ectx = s.ectx := rfl
@[simp] theorem writeBytes_iv (s : State) (a : Nat) (bs : List Byte) : (s.writeBytes a bs).iv = s.iv := rfl
@[simp] theorem writeBytes_mem (s : State) (a : Nat) (bs : List Byte) : (s.writeBytes a bs).mem = Memory.insertAll a bs s.mem := rfl
@[simp] theorem writeBytes_draw (s : State) (a : Nat) (bs : List Byte) : (s.writeBytes a bs).draw = s.draw := rfl
@[simp] theorem writeBytes_inputs (s : State) (a : Nat) (bs : List Byte) : (s.writeBytes a bs).inputs = s.inputs := rfl
@[simp] theorem writeBytes_reply (s : State) (a : Nat) (bs : List Byte) : (s.writeBytes a bs).reply = s.reply := rfl

@[simp] theorem resetRegisters_cfg (s : State) : (s.resetRegisters).cfg = s.cfg := rfl
@[simp] theorem resetRegisters_cmd (s : State) : (s.resetRegisters).cmd = 0 := rfl
@[simp] theorem resetRegisters_status (s : State) : (s.resetRegisters).status = { code := .ok, sizeMis := false, sticky := false } := rfl
@[simp] theorem resetRegisters_src (s : State) : (s.resetRegisters).src = 0 := rfl
@[simp] theorem resetRegisters_dst (s : State) : (s.resetRegisters).dst = 0 := rfl
@[simp] theorem resetRegisters_len (s : State) : (s.resetRegisters).len = 0 := rfl
@[simp] theorem resetRegisters_xlen (s : State) : (s.resetRegisters).xlen = 0 := rfl
@[simp] theorem resetRegisters_outlen (s : State) : (s.resetRegisters).outlen = 0 := rfl
@[simp] theorem resetRegisters_inlen (s : State) : (s.resetRegisters).inlen = 0 := rfl
@[simp] theorem resetRegisters_val (s : State) : (s.resetRegisters).val = 0 := rfl
@[simp] theorem resetRegisters_bsize (s : State) : (s.resetRegisters).bsize = 0 := rfl
@[simp] theorem resetRegisters_ectx (s : State) : (s.resetRegisters).ectx = { plat := .unknown, tplat := .none, enc := false } := rfl
@[simp] theorem resetRegisters_iv (s : State) : (s.resetRegisters).iv = 0 := rfl
@[simp] theorem resetRegisters_mem (s : State) : (s.resetRegisters).mem = s.mem := rfl
@[simp] theorem resetRegisters_draw (s : State) : (s.resetRegisters).draw = s.draw := rfl
@[simp] theorem resetRegisters_inputs (s : State) : (s.resetRegisters).inputs = s.inputs := rfl
@[simp] theorem resetRegisters_reply (s : State) : (s.resetRegisters).reply = s.reply := rfl

/-- Completion reads no byte and writes none. -/
@[simp] theorem complete_byteAt (s : State) (c : ResultCode) (m : Bool) (a : Nat) :
    (s.complete c m).byteAt a = s.byteAt a := rfl

@[simp] theorem done_byteAt (s : State) (a : Nat) : s.done.byteAt a = s.byteAt a := rfl

@[simp] theorem doneSize_byteAt (s : State) (m : Bool) (a : Nat) : (s.doneSize m).byteAt a = s.byteAt a := rfl

@[simp] theorem raise_byteAt (s : State) (e : ResultCode) (a : Nat) : (s.raise e).byteAt a = s.byteAt a := rfl

@[simp] theorem beginData_byteAt (s : State) (a : Nat) : s.beginData.byteAt a = s.byteAt a := rfl

@[simp] theorem resetRegisters_byteAt (s : State) (a : Nat) : s.resetRegisters.byteAt a = s.byteAt a := rfl

/-- A read depends on `MEM` alone: two states with the same memory and the same draw read the same. -/
theorem readBytes_of_mem {s t : State} (hm : s.mem = t.mem) (hd : s.draw = t.draw) (a n : Nat) :
    s.readBytes a n = t.readBytes a n := by
  induction n generalizing a with
  | zero => rfl
  | succ n ih => simp only [State.readBytes, State.byteAt, hm, hd, ih]

@[simp] theorem beginData_readBytes (s : State) (a n : Nat) : s.beginData.readBytes a n = s.readBytes a n :=
  readBytes_of_mem (s := s.beginData) (t := s) rfl rfl a n

end Sys2Proof.Machine
end

