-- ==== Sys2Proof/Laws/Ops.lean ====
section
/-! SUPPORT. For each shared operation of the meanings, one lemma that says everything it can do. -/

namespace Sys2Proof.Machine

/-- `done` writes `STATUS` and nothing else (spec/60_exceptions.md R312). -/
theorem done_eq (s : State) : s.done = { s with status := s.okStatus } := by
  simp [State.done, State.complete, Status.completed, State.okStatus]

/-- `done(SIZEMIS)` writes `STATUS` and nothing else (spec/60_exceptions.md R312). -/
theorem doneSize_eq (s : State) (mis : Bool) :
    s.doneSize mis = { s with status := { code := .ok, sizeMis := mis, sticky := s.status.sticky } } := by
  simp [State.doneSize, State.complete, Status.completed]

/-- `raise e` writes `STATUS` and nothing else (spec/60_exceptions.md R312). -/
theorem raise_eq (s : State) (e : ResultCode) (he : e ≠ .ok) : s.raise e = s.faulted e := by
  cases e <;> simp_all [State.raise, State.complete, Status.completed, State.faulted, State.errStatus]

/-- A data command that raises before it wrote anything (spec/60_exceptions.md R313). -/
theorem beginData_raise_eq (s : State) (e : ResultCode) (he : e ≠ .ok) : s.beginData.raise e = s.dataFaulted e := by
  rw [raise_eq _ _ he]
  rfl

/-- What a codec read does (spec/40_intcodec.md R121, R123). -/
theorem codecRead_spec (value : List Byte → Nat) (w : Nat) (s : State) :
    (InBounds s.cfg s.src.toNat w ∧
      codecRead value w s = { s with
        val := BitVec.ofNat 40 (value (s.readBytes s.src.toNat w))
        src := s.src + BitVec.ofNat 32 w
        status := s.okStatus }) ∨
    (¬ InBounds s.cfg s.src.toNat w ∧ codecRead value w s = s.faulted .bounds) := by
  by_cases h : InBounds s.cfg s.src.toNat w
  · refine .inl ⟨h, ?_⟩
    rw [codecRead, if_pos h, done_eq]
    rfl
  · refine .inr ⟨h, ?_⟩
    rw [codecRead, if_neg h, raise_eq _ _ (by decide)]

/-- What a codec write does (spec/40_intcodec.md R122, R124). -/
theorem codecWrite_spec (layout : Nat → Nat → List Byte) (w : Nat) (s : State) :
    (2 ^ (8 * w) ≤ s.val.toNat ∧ codecWrite layout w s = s.faulted .range) ∨
    (s.val.toNat < 2 ^ (8 * w) ∧ ¬ InBounds s.cfg s.dst.toNat w ∧ codecWrite layout w s = s.faulted .bounds) ∨
    (s.val.toNat < 2 ^ (8 * w) ∧ InBounds s.cfg s.dst.toNat w ∧
      codecWrite layout w s = { s.writeBytes s.dst.toNat (layout s.val.toNat w) with
        dst := s.dst + BitVec.ofNat 32 w
        status := s.okStatus }) := by
  by_cases h : 2 ^ (8 * w) ≤ s.val.toNat
  · refine .inl ⟨h, ?_⟩
    rw [codecWrite, if_pos h, raise_eq _ _ (by decide)]
  · by_cases h2 : InBounds s.cfg s.dst.toNat w
    · refine .inr (.inr ⟨by omega, h2, ?_⟩)
      rw [codecWrite, if_neg h, if_pos h2, done_eq]
      rfl
    · refine .inr (.inl ⟨by omega, h2, ?_⟩)
      rw [codecWrite, if_neg h, if_neg h2, raise_eq _ _ (by decide)]

/-- What the range checks of a transforming command answer (spec/20_memory.md R61, R70). -/
theorem transformCheck_spec (s : State) :
    (¬ (InBounds s.cfg s.src.toNat s.len.toNat ∧ InBounds s.cfg s.dst.toNat s.len.toNat) ∧
      transformCheck s = some .bounds) ∨
    ((InBounds s.cfg s.src.toNat s.len.toNat ∧ InBounds s.cfg s.dst.toNat s.len.toNat) ∧
      (s.dst ≠ s.src ∧ Overlap s.src.toNat s.len.toNat s.dst.toNat s.len.toNat) ∧
      transformCheck s = some .overlap) ∨
    ((InBounds s.cfg s.src.toNat s.len.toNat ∧ InBounds s.cfg s.dst.toNat s.len.toNat) ∧
      ¬ (s.dst ≠ s.src ∧ Overlap s.src.toNat s.len.toNat s.dst.toNat s.len.toNat) ∧
      transformCheck s = none) := by
  unfold transformCheck
  split
  · next h => exact .inl ⟨by tauto, rfl⟩
  · next h =>
    split
    · next h2 => exact .inr (.inl ⟨by tauto, h2, rfl⟩)
    · next h2 => exact .inr (.inr ⟨by tauto, h2, rfl⟩)

/-- What a counter-mode command does (spec/42_ctr_sng.md R185, R186). -/
theorem counterCommand_spec (k : Key) (s : State) :
    (transformCheck s.beginData = some .bounds ∧ counterCommand k s = s.dataFaulted .bounds) ∨
    (transformCheck s.beginData = some .overlap ∧ counterCommand k s = s.dataFaulted .overlap) ∨
    (transformCheck s.beginData = none ∧
      counterCommand k s = { s.writeBytes s.dst.toNat (ctrXform k s.iv (s.readBytes s.src.toNat s.len.toNat)).1 with
        iv := s.iv + BitVec.ofNat 128 ((s.len.toNat + 15) / 16)
        outlen := s.len, inlen := s.len
        status := s.okStatus }) := by
  rcases transformCheck_spec s.beginData with ⟨-, h⟩ | ⟨-, -, h⟩ | ⟨-, -, h⟩
  · refine .inl ⟨h, ?_⟩
    simp only [counterCommand, h]
    exact beginData_raise_eq s _ (by decide)
  · refine .inr (.inl ⟨h, ?_⟩)
    simp only [counterCommand, h]
    exact beginData_raise_eq s _ (by decide)
  · refine .inr (.inr ⟨h, ?_⟩)
    simp only [counterCommand, h, done_eq, ctrXform_iv, readBytes_length, beginData_readBytes]
    rfl

/-- What a table-of-contents command does (spec/43_toc_cfb.md R222, R223). -/
theorem tocCommand_spec (dir : CfbDir) (s : State) :
    (transformCheck s.beginData = some .bounds ∧ tocCommand dir s = s.dataFaulted .bounds) ∨
    (transformCheck s.beginData = some .overlap ∧ tocCommand dir s = s.dataFaulted .overlap) ∨
    (transformCheck s.beginData = none ∧
      tocCommand dir s =
        { s.writeBytes s.dst.toNat (tocCfb s.cfg.keyArc (s.readBytes s.src.toNat s.len.toNat) dir) with
          outlen := s.len, inlen := s.len
          status := s.okStatus }) := by
  rcases transformCheck_spec s.beginData with ⟨-, h⟩ | ⟨-, -, h⟩ | ⟨-, -, h⟩
  · refine .inl ⟨h, ?_⟩
    simp only [tocCommand, h]
    exact beginData_raise_eq s _ (by decide)
  · refine .inr (.inl ⟨h, ?_⟩)
    simp only [tocCommand, h]
    exact beginData_raise_eq s _ (by decide)
  · refine .inr (.inr ⟨h, ?_⟩)
    simp only [tocCommand, h, done_eq, beginData_readBytes]
    rfl

/-- The platforms `Probe` can report and the IV it reports (spec/42_ctr_sng.md R190). -/
theorem probe_iv (s : State) (base : Nat) : (probe s base).2 = bytesBlock (s.readBytes (base + 8) 16) := by
  unfold probe
  dsimp only
  split
  · rfl
  · split <;> rfl

/-- What `SNGDEC` does after its pre-checks (spec/42_ctr_sng.md R192). -/
theorem sngDecrypt_spec (s : State) :
    ((probe s s.src.toNat).1 = .unknown ∧
      sngDecrypt s = { s with
        ectx := { s.ectx with plat := .unknown, enc := true }
        iv := (probe s s.src.toNat).2
        status := s.errStatus .cryptoPlatform }) ∨
    (∃ p, platformKey (probe s s.src.toNat).1 = some p ∧
      sngDecrypt s =
        { s.writeBytes s.dst.toNat
            (ctrXform (keyOf s.cfg p) (probe s s.src.toNat).2
              (s.readBytes (s.src.toNat + 24) (s.len.toNat - 24))).1 with
          ectx := { s.ectx with plat := (probe s s.src.toNat).1, enc := true }
          iv := (probe s s.src.toNat).2 + BitVec.ofNat 128 ((s.len.toNat - 24 + 15) / 16)
          outlen := BitVec.ofNat 32 (s.len.toNat - 24), inlen := s.len
          status := s.okStatus }) := by
  cases hp : (probe s s.src.toNat).1 with
  | unknown =>
    refine .inl ⟨rfl, ?_⟩
    simp only [sngDecrypt, hp, platformKey]
    rw [raise_eq _ _ (by decide)]
    rfl
  | pc =>
    refine .inr ⟨.pc, rfl, ?_⟩
    simp only [sngDecrypt, hp, platformKey, done_eq, ctrXform_iv, readBytes_length]
    rfl
  | mac =>
    refine .inr ⟨.mac, rfl, ?_⟩
    simp only [sngDecrypt, hp, platformKey, done_eq, ctrXform_iv, readBytes_length]
    rfl

/-- What `SNGENC` does once it is to encrypt for target `p` (spec/42_ctr_sng.md R193). -/
theorem sngEncrypt_spec (p : KeySel) (s : State) :
    (s.len.toNat < 40 ∧ sngEncrypt p s = s.raise .length) ∨
    (40 ≤ s.len.toNat ∧
      ¬ (InBounds s.cfg s.src.toNat (s.len.toNat - 24) ∧ InBounds s.cfg s.dst.toNat s.len.toNat) ∧
      sngEncrypt p s = s.raise .bounds) ∨
    (40 ≤ s.len.toNat ∧
      (InBounds s.cfg s.src.toNat (s.len.toNat - 24) ∧ InBounds s.cfg s.dst.toNat s.len.toNat) ∧
      (s.src.toNat ≠ s.dst.toNat + 24 ∧ Overlap s.src.toNat (s.len.toNat - 24) s.dst.toNat s.len.toNat) ∧
      sngEncrypt p s = s.raise .overlap) ∨
    (40 ≤ s.len.toNat ∧
      (InBounds s.cfg s.src.toNat (s.len.toNat - 24) ∧ InBounds s.cfg s.dst.toNat s.len.toNat) ∧
      ¬ (s.src.toNat ≠ s.dst.toNat + 24 ∧ Overlap s.src.toNat (s.len.toNat - 24) s.dst.toNat s.len.toNat) ∧
      sngEncrypt p s =
        { s.writeBytes (s.dst.toNat + 24)
            (ctrXform (keyOf s.cfg p) (bytesBlock (s.readBytes (s.dst.toNat + 8) 16))
              (s.readBytes s.src.toNat (s.len.toNat - 24))).1 with
          iv := bytesBlock (s.readBytes (s.dst.toNat + 8) 16)
            + BitVec.ofNat 128 ((s.len.toNat - 24 + 15) / 16)
          outlen := BitVec.ofNat 32 (s.len.toNat - 24)
          inlen := BitVec.ofNat 32 (s.len.toNat - 24)
          status := s.okStatus }) := by
  by_cases h1 : s.len.toNat < 40
  · exact .inl ⟨h1, by simp only [sngEncrypt, if_pos h1]⟩
  by_cases h2 : InBounds s.cfg s.src.toNat (s.len.toNat - 24) ∧ InBounds s.cfg s.dst.toNat s.len.toNat
  · have h2' : ¬ (¬ InBounds s.cfg s.src.toNat (s.len.toNat - 24) ∨ ¬ InBounds s.cfg s.dst.toNat s.len.toNat) := by
      tauto
    by_cases h3 : s.src.toNat ≠ s.dst.toNat + 24 ∧
        Overlap s.src.toNat (s.len.toNat - 24) s.dst.toNat s.len.toNat
    · exact .inr (.inr (.inl ⟨by omega, h2, h3, by
        simp only [sngEncrypt, if_neg h1, if_neg h2', if_pos h3]⟩))
    · refine .inr (.inr (.inr ⟨by omega, h2, h3, ?_⟩))
      simp only [sngEncrypt, if_neg h1, if_neg h2', if_neg h3, done_eq, ctrXform_iv, readBytes_length]
      rfl
  · have h2' : ¬ InBounds s.cfg s.src.toNat (s.len.toNat - 24) ∨ ¬ InBounds s.cfg s.dst.toNat s.len.toNat := by
      tauto
    exact .inr (.inl ⟨by omega, h2, by simp only [sngEncrypt, if_neg h1, if_pos h2']⟩)

/-- A stream failure (spec/44_inflate.md R260, R262). -/
theorem inflateFailed_spec (s : State) (e : InfError) (out : List Byte) :
    inflateFailed s e out = { s.writeBytes s.dst.toNat out with
      outlen := BitVec.ofNat 32 out.length, inlen := 0
      status := s.errStatus e.toCode } := by
  rw [inflateFailed, raise_eq _ _ (by cases e <;> decide)]
  rfl

/-- The end of a decoded block (spec/44_inflate.md R262). -/
theorem blockDone_spec (s : State) (n : Nat) (out : List Byte) (mis : Bool) :
    blockDone s n out mis = { s.writeBytes s.dst.toNat out with
      outlen := BitVec.ofNat 32 out.length
      inlen := BitVec.ofNat 32 n
      src := s.src + BitVec.ofNat 32 n
      dst := s.dst + BitVec.ofNat 32 out.length
      xlen := s.xlen - BitVec.ofNat 32 out.length
      status := { code := .ok, sizeMis := mis, sticky := s.status.sticky } } := by
  rw [blockDone, doneSize_eq]
  rfl

/-- What `BLKDEC` does with a compressed block (spec/44_inflate.md R262). -/
theorem compressedBlock_spec (s : State) (n : Nat) :
    (¬ InBounds s.cfg s.dst.toNat (min s.xlen.toNat s.bsize.toNat) ∧ compressedBlock s n = s.raise .bounds) ∨
    (InBounds s.cfg s.dst.toNat (min s.xlen.toNat s.bsize.toNat) ∧
      Overlap s.src.toNat n s.dst.toNat (min s.xlen.toNat s.bsize.toNat) ∧
      compressedBlock s n = s.raise .overlap) ∨
    (InBounds s.cfg s.dst.toNat (min s.xlen.toNat s.bsize.toNat) ∧
      ¬ Overlap s.src.toNat n s.dst.toNat (min s.xlen.toNat s.bsize.toNat) ∧
      ((∃ e out, inflate (s.readBytes s.src.toNat n) (min s.xlen.toNat s.bsize.toNat) = .err e out ∧
          compressedBlock s n = inflateFailed s e out) ∨
        (∃ out used, inflate (s.readBytes s.src.toNat n) (min s.xlen.toNat s.bsize.toNat) = .ok out used ∧
          compressedBlock s n = blockDone s n out (decide (out.length ≠ min s.xlen.toNat s.bsize.toNat))))) := by
  by_cases h1 : InBounds s.cfg s.dst.toNat (min s.xlen.toNat s.bsize.toNat)
  · by_cases h2 : Overlap s.src.toNat n s.dst.toNat (min s.xlen.toNat s.bsize.toNat)
    · exact .inr (.inl ⟨h1, h2, by simp only [compressedBlock, if_neg (not_not_intro h1), if_pos h2]⟩)
    · refine .inr (.inr ⟨h1, h2, ?_⟩)
      cases h : inflate (s.readBytes s.src.toNat n) (min s.xlen.toNat s.bsize.toNat) with
      | ok out used =>
        exact .inr ⟨out, used, rfl, by simp only [compressedBlock, if_neg (not_not_intro h1), if_neg h2, h]⟩
      | err e out =>
        exact .inl ⟨e, out, rfl, by simp only [compressedBlock, if_neg (not_not_intro h1), if_neg h2, h]⟩
  · exact .inl ⟨h1, by simp only [compressedBlock, if_pos h1]⟩

/-- What `BLKDEC` does with a raw or verbatim block (spec/44_inflate.md R262). -/
theorem verbatimBlock_spec (s : State) (n : Nat) :
    (s.xlen.toNat < n ∧ verbatimBlock s n = s.raise .overrun) ∨
    (n ≤ s.xlen.toNat ∧ ¬ InBounds s.cfg s.dst.toNat n ∧ verbatimBlock s n = s.raise .bounds) ∨
    (n ≤ s.xlen.toNat ∧ InBounds s.cfg s.dst.toNat n ∧ Overlap s.src.toNat n s.dst.toNat n ∧
      verbatimBlock s n = s.raise .overlap) ∨
    (n ≤ s.xlen.toNat ∧ InBounds s.cfg s.dst.toNat n ∧ ¬ Overlap s.src.toNat n s.dst.toNat n ∧
      verbatimBlock s n = blockDone s n (s.readBytes s.src.toNat n) false) := by
  by_cases h1 : s.xlen.toNat < n
  · exact .inl ⟨h1, by simp only [verbatimBlock, if_pos h1]⟩
  by_cases h2 : InBounds s.cfg s.dst.toNat n
  · by_cases h3 : Overlap s.src.toNat n s.dst.toNat n
    · exact .inr (.inr (.inl ⟨by omega, h2, h3, by
        simp only [verbatimBlock, if_neg h1, if_neg (not_not_intro h2), if_pos h3]⟩))
    · exact .inr (.inr (.inr ⟨by omega, h2, h3, by
        simp only [verbatimBlock, if_neg h1, if_neg (not_not_intro h2), if_neg h3]⟩))
  · exact .inr (.inl ⟨by omega, h2, by simp only [verbatimBlock, if_neg h1, if_pos h2]⟩)

end Sys2Proof.Machine
end

