-- ==== Sys2Proof/Laws/Exec.lean ====
section
/-! SUPPORT. The meanings in the terms of the statements: the tests a command makes on `MEM`, and for each meaning
that chooses between outcomes one lemma that says everything it can do. -/

namespace Sys2Proof.Machine

/-- The two bytes of a 16-bit value are a given pair exactly when the pair makes the value. -/
theorem pair_eq_toBE (x y : Byte) (z : BitVec 16) : [x, y] = toBE z.toNat 2 ↔ x ++ y = z := by
  have hz := z.isLt
  have hx := x.isLt
  have hy := y.isLt
  have h1 : toBE z.toNat 2 = [BitVec.ofNat 8 (z.toNat / 256), BitVec.ofNat 8 z.toNat] := rfl
  have h2 : (x ++ y).toNat = x.toNat * 256 + y.toNat := by
    rw [BitVec.toNat_append, ← Nat.shiftLeft_add_eq_or_of_lt y.isLt, Nat.shiftLeft_eq]
  rw [h1]
  simp only [List.cons.injEq, and_true, BitVec.toNat_eq, h2, BitVec.toNat_ofNat]
  omega

/-- `LE` of four bytes is a small number `v` exactly when the bytes are `v, 0, 0, 0`. -/
theorem leNat_four (s : State) (a v : Nat) (hv : v < 256) :
    leNat (s.readBytes a 4) = v ↔
      s.byteAt a = BitVec.ofNat 8 v ∧ s.byteAt (a + 1) = 0 ∧ s.byteAt (a + 2) = 0 ∧ s.byteAt (a + 3) = 0 := by
  have hz : (0 : Byte).toNat = 0 := rfl
  simp only [State.readBytes, leNat, Nat.add_assoc, Nat.reduceAdd, BitVec.toNat_eq, BitVec.toNat_ofNat, hz]
  have h0 := (s.byteAt a).isLt
  have h1 := (s.byteAt (a + 1)).isLt
  have h2 := (s.byteAt (a + 2)).isLt
  have h3 := (s.byteAt (a + 3)).isLt
  omega

/-- `Detect` (spec/42_ctr_sng.md R188) tests the eight header bytes. -/
theorem detect_iff (s : State) (base len : Nat) : detect s base len = true ↔ looksEncrypted s base len := by
  simp only [detect, looksEncrypted, Bool.and_eq_true, decide_eq_true_eq, beq_iff_eq]
  rw [leNat_four _ _ _ (by decide), leNat_four _ _ _ (by decide), and_assoc]
  refine and_congr_right fun _ => ?_
  constructor
  · rintro ⟨⟨h0, h1, h2, h3⟩, h4, h5, h6, h7⟩ j hj
    match j, hj with
    | 0, _ => exact h0
    | 1, _ => exact h1
    | 2, _ => exact h2
    | 3, _ => exact h3
    | 4, _ => exact h4
    | 5, _ => exact h5
    | 6, _ => exact h6
    | 7, _ => exact h7
  · intro h
    exact ⟨⟨h 0 (by omega), h 1 (by omega), h 2 (by omega), h 3 (by omega)⟩,
      h 4 (by omega), h 5 (by omega), h 6 (by omega), h 7 (by omega)⟩

/-- The signature test of `Probe` (spec/42_ctr_sng.md R190). -/
theorem probeMatches_iff (k : Key) (s : State) (base : Nat) :
    probeMatches k (containerIv s base) s.cfg.zsig (s.readBytes (base + 24) 16) = true
      ↔ showsSignature k s base := by
  have hl : (blockBytes (aes256Enc k (containerIv s base))).length = 16 := blockBytes_length _
  have h : ((xorBytes (s.readBytes (base + 24) 16) (blockBytes (aes256Enc k (containerIv s base)))).drop 4).take 2
      = [s.byteAt (base + 28) ^^^ keystreamByte k (containerIv s base) 4,
         s.byteAt (base + 29) ^^^ keystreamByte k (containerIv s base) 5] := by
    apply List.ext_getElem?
    intro j
    rw [List.getElem?_take, List.getElem?_drop, xorBytes_getElem?]
    match j with
    | 0 => simp [keystreamByte, Nat.add_assoc, List.getD_eq_getElem?_getD]
    | 1 => simp [keystreamByte, Nat.add_assoc, List.getD_eq_getElem?_getD]
    | j + 2 => simp
  rw [probeMatches, beq_iff_eq, h, pair_eq_toBE]
  rfl

/-- The platform `Probe` answers (spec/42_ctr_sng.md R190). -/
theorem probe_fst (s : State) (base : Nat) (p : Platform) : (probe s base).1 = p ↔ probesAs s base p := by
  have h1 := probeMatches_iff s.cfg.keyPc s base
  have h2 := probeMatches_iff s.cfg.keyMac s base
  simp only [containerIv] at h1 h2
  unfold probe
  dsimp only
  by_cases c1 : probeMatches s.cfg.keyPc (bytesBlock (s.readBytes (base + 8) 16)) s.cfg.zsig
      (s.readBytes (base + 24) 16) = true
  · have := h1.mp c1
    rw [if_pos c1]
    cases p <;> simp [probesAs, this]
  · have n1 : ¬ showsSignature s.cfg.keyPc s base := fun h => c1 (h1.mpr h)
    rw [if_neg c1]
    by_cases c2 : probeMatches s.cfg.keyMac (bytesBlock (s.readBytes (base + 8) 16)) s.cfg.zsig
        (s.readBytes (base + 24) 16) = true
    · have := h2.mp c2
      rw [if_pos c2]
      cases p <;> simp [probesAs, n1, this]
    · have n2 : ¬ showsSignature s.cfg.keyMac s base := fun h => c2 (h2.mpr h)
      rw [if_neg c2]
      cases p <;> simp [probesAs, n1, n2]

/-- The stored length of a block (spec/44_inflate.md R262). -/
theorem blockLength_iff (s : State) (n : Nat) : blockLength s n ↔ n = storedLength s := by
  unfold blockLength storedLength
  split <;> simp_all

/-- The compressed test of a block (spec/44_inflate.md R262). -/
theorem blockCompressed_iff (s : State) : blockCompressed s = true ↔ blockIsStream s := by
  have h : s.readBytes s.src.toNat 2 = [s.byteAt s.src.toNat, s.byteAt (s.src.toNat + 1)] := rfl
  have hv : (s.val ≠ 0 ∧ 2 ≤ storedLength s) ↔ 2 ≤ s.val.toNat := by
    unfold storedLength
    by_cases hz : s.val = 0
    · simp [hz]
    · rw [if_neg hz]
      exact ⟨fun h => h.2, fun h => ⟨hz, h⟩⟩
  simp only [blockCompressed, blockIsStream, Bool.and_eq_true, decide_eq_true_eq, beq_iff_eq, h, pair_eq_toBE]
  rw [hv]

/-- What `IVLD` does (spec/42_ctr_sng.md R183). -/
theorem execIvld_spec (s : State) :
    (InBounds s.cfg s.src.toNat 16 ∧
      exec .ivld s = .next { s with iv := bytesBlock (s.readBytes s.src.toNat 16), status := s.okStatus }) ∨
    (¬ InBounds s.cfg s.src.toNat 16 ∧ exec .ivld s = .next (s.faulted .bounds)) := by
  show (_ ∧ execIvld s = _) ∨ (_ ∧ execIvld s = _)
  by_cases h : InBounds s.cfg s.src.toNat 16
  · exact .inl ⟨h, by rw [execIvld, if_pos h, done_eq]; rfl⟩
  · exact .inr ⟨h, by rw [execIvld, if_neg h, raise_eq _ _ (by decide)]⟩

/-- What `SNGDET` does (spec/42_ctr_sng.md R189). -/
theorem execSngdet_spec (s : State) :
    (InBounds s.cfg s.src.toNat s.len.toNat ∧
      exec .sngdet s = .next { s with
        ectx := { s.ectx with enc := detect s s.src.toNat s.len.toNat }, status := s.okStatus }) ∨
    (¬ InBounds s.cfg s.src.toNat s.len.toNat ∧ exec .sngdet s = .next (s.faulted .bounds)) := by
  show (_ ∧ execSngdet s = _) ∨ (_ ∧ execSngdet s = _)
  by_cases h : InBounds s.cfg s.src.toNat s.len.toNat
  · exact .inl ⟨h, by rw [execSngdet, if_pos h, done_eq]; rfl⟩
  · exact .inr ⟨h, by rw [execSngdet, if_neg h, raise_eq _ _ (by decide)]⟩

/-- What `SNGPROBE` does (spec/42_ctr_sng.md R191). -/
theorem execSngprobe_spec (s : State) :
    (s.len.toNat < 40 ∧ exec .sngprobe s = .next (s.faulted .length)) ∨
    (40 ≤ s.len.toNat ∧ ¬ InBounds s.cfg s.src.toNat s.len.toNat ∧
      exec .sngprobe s = .next (s.faulted .bounds)) ∨
    (40 ≤ s.len.toNat ∧ InBounds s.cfg s.src.toNat s.len.toNat ∧
      exec .sngprobe s = .next { s with
        ectx := { s.ectx with plat := (probe s s.src.toNat).1 }
        iv := containerIv s s.src.toNat
        status := s.okStatus }) := by
  show (_ ∧ execSngprobe s = _) ∨ (_ ∧ _ ∧ execSngprobe s = _) ∨ (_ ∧ _ ∧ execSngprobe s = _)
  by_cases h1 : s.len.toNat < 40
  · exact .inl ⟨h1, by rw [execSngprobe, if_pos h1, raise_eq _ _ (by decide)]⟩
  by_cases h2 : InBounds s.cfg s.src.toNat s.len.toNat
  · refine .inr (.inr ⟨by omega, h2, ?_⟩)
    rw [execSngprobe, if_neg h1, if_pos h2]
    simp only [done_eq, probe_iv]
    rfl
  · exact .inr (.inl ⟨by omega, h2, by rw [execSngprobe, if_neg h1, if_neg h2, raise_eq _ _ (by decide)]⟩)

/-- The probe reads `MEM` and the parameters only. -/
theorem probe_beginData (s : State) (base : Nat) : probe s.beginData base = probe s base := by
  simp only [probe, beginData_readBytes, beginData_cfg]

theorem detect_beginData (s : State) (base len : Nat) : detect s.beginData base len = detect s base len := by
  simp only [detect, beginData_readBytes]

/-- What `SNGDEC` does (spec/42_ctr_sng.md R192). -/
theorem execSngdec_spec (s : State) :
    (¬ InBounds s.cfg s.src.toNat s.len.toNat ∧ exec .sngdec s = .next (s.dataFaulted .bounds)) ∨
    (InBounds s.cfg s.src.toNat s.len.toNat ∧ ¬ looksEncrypted s s.src.toNat s.len.toNat ∧
      exec .sngdec s = .next { s with
        ectx := { s.ectx with enc := false, plat := .unknown }
        outlen := 0, inlen := 0, status := s.okStatus }) ∨
    (InBounds s.cfg s.src.toNat s.len.toNat ∧ looksEncrypted s s.src.toNat s.len.toNat ∧ s.len.toNat < 40 ∧
      exec .sngdec s = .next (s.dataFaulted .length)) ∨
    (InBounds s.cfg s.src.toNat s.len.toNat ∧ looksEncrypted s s.src.toNat s.len.toNat ∧ 40 ≤ s.len.toNat ∧
      ¬ InBounds s.cfg s.dst.toNat (s.len.toNat - 24) ∧ exec .sngdec s = .next (s.dataFaulted .bounds)) ∨
    (InBounds s.cfg s.src.toNat s.len.toNat ∧ looksEncrypted s s.src.toNat s.len.toNat ∧ 40 ≤ s.len.toNat ∧
      InBounds s.cfg s.dst.toNat (s.len.toNat - 24) ∧
      (s.dst.toNat ≠ s.src.toNat + 24 ∧ Overlap s.src.toNat s.len.toNat s.dst.toNat (s.len.toNat - 24)) ∧
      exec .sngdec s = .next (s.dataFaulted .overlap)) ∨
    (sngdecReady s ∧ probesAs s s.src.toNat .unknown ∧
      exec .sngdec s = .next { s with
        ectx := { s.ectx with enc := true, plat := .unknown }
        iv := containerIv s s.src.toNat
        outlen := 0, inlen := 0
        status := s.errStatus .cryptoPlatform }) ∨
    (sngdecReady s ∧ ∃ p k, probesAs s s.src.toNat p ∧ platformKey p = some k ∧
      exec .sngdec s = .next
        { s.writeBytes s.dst.toNat
            (ctrXform (keyOf s.cfg k) (containerIv s s.src.toNat)
              (s.readBytes (s.src.toNat + 24) (s.len.toNat - 24))).1 with
          ectx := { s.ectx with enc := true, plat := p }
          iv := containerIv s s.src.toNat + BitVec.ofNat 128 ((s.len.toNat - 24 + 15) / 16)
          outlen := BitVec.ofNat 32 (s.len.toNat - 24), inlen := s.len
          status := s.okStatus }) := by
  change (_ ∧ execSngdec s = _) ∨ (_ ∧ _ ∧ execSngdec s = _) ∨ (_ ∧ _ ∧ _ ∧ execSngdec s = _) ∨
    (_ ∧ _ ∧ _ ∧ _ ∧ execSngdec s = _) ∨ (_ ∧ _ ∧ _ ∧ _ ∧ _ ∧ execSngdec s = _) ∨ (_ ∧ _ ∧ execSngdec s = _) ∨
    (_ ∧ ∃ p k, _ ∧ _ ∧ execSngdec s = _)
  by_cases h1 : InBounds s.cfg s.src.toNat s.len.toNat
  swap
  · refine .inl ⟨h1, ?_⟩
    simp only [execSngdec, beginData_cfg, beginData_src, beginData_len, h1, not_false_eq_true, if_true]
    rw [beginData_raise_eq _ _ (by decide)]
  by_cases h2 : looksEncrypted s s.src.toNat s.len.toNat
  swap
  · refine .inr (.inl ⟨h1, h2, ?_⟩)
    have hd : detect s s.src.toNat s.len.toNat = false := by
      rw [← Bool.not_eq_true, detect_iff]; exact h2
    simp only [execSngdec, beginData_cfg, beginData_src, beginData_len, h1,
      detect_beginData, hd, done_eq, not_true_eq_false, if_true, if_false]
    rfl
  have hd : ¬ detect s s.src.toNat s.len.toNat = false := by
    rw [Bool.not_eq_false, detect_iff]; exact h2
  by_cases h3 : s.len.toNat < 40
  · refine .inr (.inr (.inl ⟨h1, h2, h3, ?_⟩))
    simp only [execSngdec, beginData_cfg, beginData_src, beginData_len, h1,
      detect_beginData, hd, h3, not_true_eq_false, if_true, if_false, Bool.true_eq_false]
    rw [beginData_raise_eq _ _ (by decide)]
  by_cases h4 : InBounds s.cfg s.dst.toNat (s.len.toNat - 24)
  swap
  · refine .inr (.inr (.inr (.inl ⟨h1, h2, by omega, h4, ?_⟩)))
    simp only [execSngdec, beginData_cfg, beginData_src, beginData_dst, beginData_len, h1,
      detect_beginData, hd, h3, h4, not_true_eq_false, not_false_eq_true, if_true, if_false, Bool.true_eq_false]
    rw [beginData_raise_eq _ _ (by decide)]
  by_cases h5 : s.dst.toNat ≠ s.src.toNat + 24 ∧
      Overlap s.src.toNat s.len.toNat s.dst.toNat (s.len.toNat - 24)
  · refine .inr (.inr (.inr (.inr (.inl ⟨h1, h2, by omega, h4, h5, ?_⟩))))
    simp only [execSngdec, beginData_cfg, beginData_src, beginData_dst, beginData_len, h1,
      detect_beginData, hd, h3, h4, eq_true h5, not_true_eq_false, if_true, if_false, Bool.true_eq_false]
    rw [beginData_raise_eq _ _ (by decide)]
  have hr : sngdecReady s := ⟨h1, h2, by omega, h4, h5⟩
  have he : execSngdec s = .next (sngDecrypt s.beginData) := by
    simp only [execSngdec, beginData_cfg, beginData_src, beginData_dst, beginData_len, h1,
      detect_beginData, hd, h3, h4, h5, not_true_eq_false, if_false, Bool.true_eq_false]
  rcases sngDecrypt_spec s.beginData with ⟨hp, hs⟩ | ⟨k, hp, hs⟩
  · refine .inr (.inr (.inr (.inr (.inr (.inl ⟨hr, ?_, ?_⟩)))))
    · rw [beginData_src, probe_beginData] at hp
      exact (probe_fst _ _ _).mp hp
    · rw [he, hs]
      simp only [beginData_src, probe_beginData, probe_iv]
      rfl
  · refine .inr (.inr (.inr (.inr (.inr (.inr ⟨hr, _, k, (probe_fst s s.src.toNat _).mp rfl, ?_, ?_⟩)))))
    · rw [beginData_src, probe_beginData] at hp
      exact hp
    · rw [he, hs]
      simp only [beginData_src, beginData_dst, beginData_len, beginData_cfg, probe_beginData, probe_iv,
        beginData_readBytes]
      rfl

/-- What `SNGENC` does (spec/42_ctr_sng.md R193). -/
theorem execSngenc_spec (s : State) :
    ((s.ectx.enc = false ∨ s.ectx.tplat = .none ∨
        (s.ectx.plat = .pc ∧ s.ectx.tplat = .pc ∨ s.ectx.plat = .mac ∧ s.ectx.tplat = .mac)) ∧
      exec .sngenc s = .next { s with outlen := 0, inlen := 0, status := s.okStatus }) ∨
    (s.ectx.enc = true ∧ s.ectx.tplat ≠ .none ∧ s.ectx.plat = .unknown ∧
      exec .sngenc s = .next (s.dataFaulted .cryptoPlatform)) ∨
    (∃ k, sngencWanted s k ∧ exec .sngenc s = .next (sngEncrypt k s.beginData)) := by
  change (_ ∧ execSngenc s = _) ∨ (_ ∧ _ ∧ _ ∧ execSngenc s = _) ∨ (∃ k, _ ∧ execSngenc s = _)
  have hno : (s.beginData).done = { s with outlen := 0, inlen := 0, status := s.okStatus } := by
    rw [done_eq]; rfl
  cases he : s.ectx.enc with
  | false =>
    refine .inl ⟨.inl rfl, ?_⟩
    simp only [execSngenc, beginData_ectx, he, if_true, hno]
  | true =>
    cases ht : s.ectx.tplat <;> cases hp : s.ectx.plat <;>
      simp [execSngenc, beginData_ectx, he, ht, hp, targetKey, platformKey, hno, sngencWanted,
        beginData_raise_eq _ .cryptoPlatform (by decide)]

/-- `SNGENC` that is to encrypt (spec/42_ctr_sng.md R193): its checks in order, then the encryption. -/
theorem execSngenc_wanted (s : State) (k : KeySel) (hw : sngencWanted s k) :
    (s.len.toNat < 40 ∧ exec .sngenc s = .next (s.dataFaulted .length)) ∨
    (40 ≤ s.len.toNat ∧ ¬ sngencInBounds s ∧ exec .sngenc s = .next (s.dataFaulted .bounds)) ∨
    (40 ≤ s.len.toNat ∧ sngencInBounds s ∧ sngencOverlap s ∧ exec .sngenc s = .next (s.dataFaulted .overlap)) ∨
    (40 ≤ s.len.toNat ∧ sngencInBounds s ∧ ¬ sngencOverlap s ∧
      exec .sngenc s = .next
        { s.writeBytes (s.dst.toNat + 24)
            (ctrXform (keyOf s.cfg k) (containerIv s s.dst.toNat)
              (s.readBytes s.src.toNat (s.len.toNat - 24))).1 with
          iv := containerIv s s.dst.toNat + BitVec.ofNat 128 ((s.len.toNat - 24 + 15) / 16)
          outlen := BitVec.ofNat 32 (s.len.toNat - 24), inlen := BitVec.ofNat 32 (s.len.toNat - 24)
          status := s.okStatus }) := by
  have he : exec .sngenc s = .next (sngEncrypt k s.beginData) := by
    obtain ⟨h1, h2, p, h3, h4⟩ := hw
    show execSngenc s = _
    simp [execSngenc, h1, h2, h3, h4]
  rcases sngEncrypt_spec k s.beginData with ⟨h1, h⟩ | ⟨h1, h2, h⟩ | ⟨h1, h2, h3, h⟩ | ⟨h1, h2, h3, h⟩
  · exact .inl ⟨h1, by rw [he, h, beginData_raise_eq _ _ (by decide)]⟩
  · exact .inr (.inl ⟨h1, h2, by rw [he, h, beginData_raise_eq _ _ (by decide)]⟩)
  · exact .inr (.inr (.inl ⟨h1, h2, h3, by rw [he, h, beginData_raise_eq _ _ (by decide)]⟩))
  · refine .inr (.inr (.inr ⟨h1, h2, h3, ?_⟩))
    rw [he, h]
    simp only [beginData_src, beginData_dst, beginData_len, beginData_cfg, beginData_readBytes]
    rfl

/-- What `INFLATE` does (spec/44_inflate.md R260). -/
theorem execInflate_spec (s : State) :
    (¬ (InBounds s.cfg s.src.toNat s.len.toNat ∧ InBounds s.cfg s.dst.toNat s.xlen.toNat) ∧
      exec .inflate s = .next (s.dataFaulted .bounds)) ∨
    ((InBounds s.cfg s.src.toNat s.len.toNat ∧ InBounds s.cfg s.dst.toNat s.xlen.toNat) ∧
      Overlap s.src.toNat s.len.toNat s.dst.toNat s.xlen.toNat ∧
      exec .inflate s = .next (s.dataFaulted .overlap)) ∨
    ((InBounds s.cfg s.src.toNat s.len.toNat ∧ InBounds s.cfg s.dst.toNat s.xlen.toNat) ∧
      ¬ Overlap s.src.toNat s.len.toNat s.dst.toNat s.xlen.toNat ∧
      ((∃ e out, inflate (s.readBytes s.src.toNat s.len.toNat) s.xlen.toNat = .err e out ∧
          exec .inflate s = .next { s.writeBytes s.dst.toNat out with
            outlen := BitVec.ofNat 32 out.length, inlen := 0, status := s.errStatus e.toCode }) ∨
        (∃ out used, inflate (s.readBytes s.src.toNat s.len.toNat) s.xlen.toNat = .ok out used ∧
          exec .inflate s = .next { s.writeBytes s.dst.toNat out with
            outlen := BitVec.ofNat 32 out.length, inlen := BitVec.ofNat 32 used
            status := { code := .ok, sizeMis := decide (out.length ≠ s.xlen.toNat), sticky := s.status.sticky } }))) := by
  show (_ ∧ execInflate s = _) ∨ (_ ∧ _ ∧ execInflate s = _) ∨
    (_ ∧ _ ∧ ((∃ e out, _ ∧ execInflate s = _) ∨ (∃ out used, _ ∧ execInflate s = _)))
  by_cases h1 : InBounds s.cfg s.src.toNat s.len.toNat ∧ InBounds s.cfg s.dst.toNat s.xlen.toNat
  swap
  · have h1' : ¬ InBounds s.cfg s.src.toNat s.len.toNat ∨ ¬ InBounds s.cfg s.dst.toNat s.xlen.toNat := by tauto
    refine .inl ⟨h1, ?_⟩
    simp only [execInflate, beginData_cfg, beginData_src, beginData_dst, beginData_len, beginData_xlen, h1', if_true]
    rw [beginData_raise_eq _ _ (by decide)]
  have h1' : ¬ (¬ InBounds s.cfg s.src.toNat s.len.toNat ∨ ¬ InBounds s.cfg s.dst.toNat s.xlen.toNat) := by tauto
  by_cases h2 : Overlap s.src.toNat s.len.toNat s.dst.toNat s.xlen.toNat
  · refine .inr (.inl ⟨h1, h2, ?_⟩)
    simp only [execInflate, beginData_cfg, beginData_src, beginData_dst, beginData_len, beginData_xlen,
      h1', eq_true h2, if_true, if_false]
    rw [beginData_raise_eq _ _ (by decide)]
  · refine .inr (.inr ⟨h1, h2, ?_⟩)
    cases h : inflate (s.readBytes s.src.toNat s.len.toNat) s.xlen.toNat with
    | err e out =>
      refine .inl ⟨e, out, rfl, ?_⟩
      simp only [execInflate, beginData_cfg, beginData_src, beginData_dst, beginData_len, beginData_xlen,
        h1', h2, beginData_readBytes, h, inflateFailed_spec, if_false]
      rfl
    | ok out used =>
      refine .inr ⟨out, used, rfl, ?_⟩
      simp only [execInflate, beginData_cfg, beginData_src, beginData_dst, beginData_len, beginData_xlen,
        h1', h2, beginData_readBytes, h, doneSize_eq, if_false]
      rfl

/-- What `BLKDEC` does (spec/44_inflate.md R262), `n` being the stored length of its block. -/
theorem execBlkdec_spec (s : State) (n : Nat) (hn : blockLength s n) :
    (s.bsize = 0 ∧ exec .blkdec s = .next (s.dataFaulted .range)) ∨
    (s.bsize ≠ 0 ∧ ¬ InBounds s.cfg s.src.toNat n ∧ exec .blkdec s = .next (s.dataFaulted .bounds)) ∨
    (s.bsize ≠ 0 ∧ InBounds s.cfg s.src.toNat n ∧ blockIsStream s ∧
      exec .blkdec s = .next (compressedBlock s.beginData n)) ∨
    (s.bsize ≠ 0 ∧ InBounds s.cfg s.src.toNat n ∧ ¬ blockIsStream s ∧
      exec .blkdec s = .next (verbatimBlock s.beginData n)) := by
  change (_ ∧ execBlkdec s = _) ∨ (_ ∧ _ ∧ execBlkdec s = _) ∨ (_ ∧ _ ∧ _ ∧ execBlkdec s = _) ∨
    (_ ∧ _ ∧ _ ∧ execBlkdec s = _)
  have hl : storedLength s.beginData = n := ((blockLength_iff s n).mp hn).symm
  have hc : blockCompressed s.beginData = true ↔ blockIsStream s := blockCompressed_iff s.beginData
  by_cases h1 : s.bsize = 0
  · refine .inl ⟨h1, ?_⟩
    simp only [execBlkdec, beginData_bsize, h1, if_true]
    rw [beginData_raise_eq _ _ (by decide)]
  by_cases h2 : InBounds s.cfg s.src.toNat n
  swap
  · refine .inr (.inl ⟨h1, h2, ?_⟩)
    simp only [execBlkdec, beginData_bsize, h1, hl, beginData_cfg, beginData_src, h2, not_false_eq_true, if_true, if_false]
    rw [beginData_raise_eq _ _ (by decide)]
  by_cases h3 : blockIsStream s
  · refine .inr (.inr (.inl ⟨h1, h2, h3, ?_⟩))
    simp only [execBlkdec, beginData_bsize, h1, hl, beginData_cfg, beginData_src,
      h2, hc.mpr h3, if_true, not_true_eq_false, if_true, if_false]
  · refine .inr (.inr (.inr ⟨h1, h2, h3, ?_⟩))
    simp only [execBlkdec, beginData_bsize, h1, hl, beginData_cfg, beginData_src,
      h2, mt hc.mp h3, Bool.false_eq_true, not_true_eq_false, if_false]

end Sys2Proof.Machine
end

