-- ==== Sys2Proof/Laws/HostBus.lean ====
section
/-! SUPPORT. The host bus: for each kind of access, one lemma that says what the step that performs it does. -/

namespace Sys2Proof.Machine

/-- A pending word access below the window, at a word address, reads what the register map says. -/
theorem step_readWord_low (s : State) (off : Nat) (rest : List HostAction) (h : s.inputs = .readWord off :: rest)
    (hlow : off < s.cfg.memBase) (hal : off % 4 = 0) :
    step s = .next { s with
      inputs := rest
      reply := .word (match registerMap.lookup off with | some r => s.readReg r | none => 0) } := by
  simp only [step, h, hostStep, hostReadWord]
  rw [if_neg (Nat.not_le.mpr hlow), if_neg (not_not.mpr hal)]
  cases registerMap.lookup off with
  | none => rfl
  | some r => cases r <;> rfl

/-- A pending write of a register other than `CMD` stores what the register's rule says, and no more. -/
theorem step_writeWord_register (s : State) (off : Nat) (w : Word) (r : Reg) (rest : List HostAction)
    (h : s.inputs = .writeWord off w :: rest) (hlow : off < s.cfg.memBase) (hal : off % 4 = 0)
    (hr : registerMap.lookup off = some r) (hcmd : r ≠ .cmd) :
    step s = .next (State.writeReg { s with inputs := rest, reply := .none } w r) := by
  simp only [step, h, hostStep, hostWriteWord]
  rw [if_neg (Nat.not_le.mpr hlow), if_neg (not_not.mpr hal), hr]
  cases r <;> first | rfl | exact absurd rfl hcmd

/-- Every offset below 0x100 is below the window (spec/00_scope.md R6). -/
theorem low_of_lt {s : State} {off : Nat} (h : off < 0x100) : off < s.cfg.memBase :=
  h.trans_le s.cfg.memBase_ge

/-- An access that lies inside the window is performed at its `MEM` address. -/
theorem windowAccess_inside (s : State) (a n : Nat) (k : Nat → Host.Outcome State Fault Refusal)
    (h : a + n ≤ s.cfg.memSize) : windowAccess s (s.cfg.memBase + a) n k = k a := by
  unfold windowAccess
  rw [if_neg (by omega), if_neg (by omega), Nat.add_sub_cancel_left]

/-- An access that begins in the window or beyond and ends beyond it is refused. -/
theorem windowAccess_beyond (s : State) (off n : Nat) (k : Nat → Host.Outcome State Fault Refusal)
    (h : s.cfg.memBase ≤ off) (he : s.cfg.memBase + s.cfg.memSize < off + n) :
    windowAccess s off n k = .refused (.hostBeyondWindow off) := by
  unfold windowAccess
  rw [if_neg (by omega), if_pos he]

/-- A byte access that begins below the window is refused. -/
theorem windowAccess_below (s : State) (off n : Nat) (k : Nat → Host.Outcome State Fault Refusal)
    (h : off < s.cfg.memBase) : windowAccess s off n k = .refused (.hostNarrowOrMisaligned off) := by
  unfold windowAccess
  rw [if_pos h]

/-- A pending byte read inside the window answers the bytes. -/
theorem step_readBytes_window (s : State) (a n : Nat) (rest : List HostAction)
    (h : s.inputs = .readBytes (s.cfg.memBase + a) n :: rest) (ha : a + n ≤ s.cfg.memSize) :
    step s = .next { s with inputs := rest, reply := .bytes (s.readBytes a n) } := by
  simp only [step, h, hostStep]
  refine (windowAccess_inside { s with inputs := rest } a n _ ha).trans ?_
  rw [readBytes_of_mem (s := { s with inputs := rest }) (t := s) rfl rfl]

/-- A pending byte write inside the window stores the bytes. -/
theorem step_writeBytes_window (s : State) (a : Nat) (bs : List Byte) (rest : List HostAction)
    (h : s.inputs = .writeBytes (s.cfg.memBase + a) bs :: rest) (ha : a + bs.length ≤ s.cfg.memSize) :
    step s = .next { s.writeBytes a bs with inputs := rest, reply := .none } := by
  simp only [step, h, hostStep]
  exact windowAccess_inside { s with inputs := rest } a bs.length _ ha

/-- A pending word read inside the window answers the word its four bytes make. -/
theorem step_readWord_window (s : State) (a : Nat) (rest : List HostAction)
    (h : s.inputs = .readWord (s.cfg.memBase + a) :: rest) (ha : a + 4 ≤ s.cfg.memSize) :
    step s = .next { s with inputs := rest, reply := .word (windowWord s.cfg (s.readBytes a 4)) } := by
  simp only [step, h, hostStep, hostReadWord]
  rw [if_pos (Nat.le_add_right _ _)]
  refine (windowAccess_inside { s with inputs := rest } a 4 _ ha).trans ?_
  rw [readBytes_of_mem (s := { s with inputs := rest }) (t := s) rfl rfl]

/-- A pending word write inside the window stores the word's four bytes. -/
theorem step_writeWord_window (s : State) (a : Nat) (w : Word) (rest : List HostAction)
    (h : s.inputs = .writeWord (s.cfg.memBase + a) w :: rest) (ha : a + 4 ≤ s.cfg.memSize) :
    step s = .next { s.writeBytes a (windowBytes s.cfg w) with inputs := rest, reply := .none } := by
  simp only [step, h, hostStep, hostWriteWord]
  rw [if_pos (Nat.le_add_right _ _)]
  exact windowAccess_inside { s with inputs := rest, reply := .none } a 4 _ ha

@[simp] theorem windowBytes_length (c : Config) (w : Word) : (windowBytes c w).length = 4 := by
  unfold windowBytes
  split <;> simp

/-- Four bytes of the window and the word they make determine each other. -/
theorem windowBytes_windowWord (c : Config) (bs : List Byte) (h : bs.length = 4) :
    windowBytes c (windowWord c bs) = bs := by
  have hb := beNat_lt bs
  have hl := leNat_lt bs
  rw [h] at hb hl
  unfold windowBytes windowWord
  split
  · rw [BitVec.toNat_ofNat, Nat.mod_eq_of_lt (by simpa using hb), ← h, toBE_beNat]
  · rw [BitVec.toNat_ofNat, Nat.mod_eq_of_lt (by simpa using hl), ← h, toLE_leNat]

theorem windowWord_windowBytes (c : Config) (w : Word) : windowWord c (windowBytes c w) = w := by
  have hw : w.toNat % 256 ^ 4 = w.toNat := Nat.mod_eq_of_lt w.isLt
  unfold windowWord windowBytes
  cases c.windowBigEndian
  · rw [if_neg Bool.false_ne_true, if_neg Bool.false_ne_true, leNat_toLE, hw, BitVec.ofNat_toNat, BitVec.setWidth_eq]
  · rw [if_pos rfl, if_pos rfl, beNat_toBE, hw, BitVec.ofNat_toNat, BitVec.setWidth_eq]

end Sys2Proof.Machine
end

