-- ==== Sys2Proof/Laws/Inflate.lean ====
section
/-! SUPPORT. The decoder as a whole: what every step of it keeps, packaged once (spec/44_inflate.md R241 to R257). -/

namespace Sys2Proof.Machine

theorem Inf_pure_apply {α : Type} (a : α) (d : Inflater) : (pure a : Inf α) d = .ok a d := rfl

theorem Inf_throw_apply {α : Type} (e : InfError) (d : Inflater) : (throw e : Inf α) d = .error e d := rfl

theorem Inf_get_apply (d : Inflater) : (get : Inf Inflater) d = .ok d d := rfl

/-- A failure ends a sequence of steps; an answer goes on. -/
theorem Inf_bind_apply {α β : Type} (x : Inf α) (f : α → Inf β) (d : Inflater) :
    (x >>= f) d = match x d with
      | .ok a d' => f a d'
      | .error e d' => .error e d' := by
  change EStateM.bind x f d = _
  unfold EStateM.bind
  cases x d <;> rfl

/-- The decoder after a step, whether it answered or failed. -/
def decoderAfter {α : Type} : EStateM.Result InfError Inflater α → Inflater
  | .ok _ d => d
  | .error _ d => d

/-- A step keeps `P`: the decoder after it has `P` if the one before had. -/
def Keeps {α : Type} (P : Inflater → Prop) (x : Inf α) : Prop :=
  ∀ d, P d → P (decoderAfter (x d))

variable {P : Inflater → Prop} {α β : Type}

theorem Keeps.pure (a : α) : Keeps P (Pure.pure a : Inf α) := fun _ h => h

theorem Keeps.throw (e : InfError) : Keeps P (MonadExcept.throw e : Inf α) := fun _ h => h

theorem Keeps.get : Keeps P (MonadState.get : Inf Inflater) := fun _ h => h

theorem Keeps.bind {x : Inf α} {f : α → Inf β} (hx : Keeps P x) (hf : ∀ a, Keeps P (f a)) : Keeps P (x >>= f) := by
  intro d hd
  have h := hx d hd
  rw [Inf_bind_apply]
  revert h
  cases x d with
  | ok a d' => exact fun h => hf a d' h
  | error e d' => exact fun h => h

theorem Keeps.ite {c : Prop} [Decidable c] {x y : Inf α} (hx : Keeps P x) (hy : Keeps P y) :
    Keeps P (if c then x else y) := by
  split <;> assumption

/-- The four primitives of the decoder keep `P`: a byte fetch, a bit read, the alignment, an emitted byte. -/
structure PrimitivesKeep (P : Inflater → Prop) : Prop where
  next : Keeps P nextByte
  bit : Keeps P getBit
  align : Keeps P alignByte
  emit : ∀ b, Keeps P (Machine.emit b)

/-- A property that no change of the bit buffer touches is kept by the bit reads if byte fetches keep it. -/
theorem PrimitivesKeep.of_buffer (hn : Keeps P nextByte)
    (hb : ∀ d b c, P d → P { d with bitbuf := b, bitcnt := c }) (he : ∀ b, Keeps P (Machine.emit b)) : PrimitivesKeep P := by
  refine ⟨hn, ?_, fun d hd => hb d _ _ hd, he⟩
  intro d hd
  unfold getBit
  split
  · have hk := hn d hd
    revert hk
    cases nextByte d with
    | ok b d' => exact fun hk => hb d' _ _ hk
    | error e d' => exact fun hk => hk
  · exact hb d _ _ hd

theorem bits_keeps (h : PrimitivesKeep P) (n : Nat) : Keeps P (bits n) := by
  induction n with
  | zero => exact Keeps.pure 0
  | succ n ih => exact h.bit.bind fun _ => ih.bind fun _ => Keeps.pure _

theorem decodeFrom_keeps (h : PrimitivesKeep P) (code : Code) (n l v : Nat) : Keeps P (decodeFrom code n l v) := by
  induction n generalizing l v with
  | zero => exact Keeps.throw _
  | succ n ih =>
    refine h.bit.bind fun b => ?_
    split
    · exact Keeps.pure _
    · exact ih _ _

theorem decodeSymbol_keeps (h : PrimitivesKeep P) (code : Code) : Keeps P (decodeSymbol code) :=
  decodeFrom_keeps h code _ _ _

theorem copyBack_keeps (h : PrimitivesKeep P) (distance n : Nat) : Keeps P (copyBack distance n) := by
  induction n with
  | zero => exact Keeps.pure ()
  | succ n ih => exact Keeps.get.bind fun _ => (h.emit _).bind fun _ => ih

theorem copyStored_keeps (h : PrimitivesKeep P) (n : Nat) : Keeps P (copyStored n) := by
  induction n with
  | zero => exact Keeps.pure ()
  | succ n ih => exact h.next.bind fun _ => (h.emit _).bind fun _ => ih

theorem storedBlock_keeps (h : PrimitivesKeep P) : Keeps P storedBlock :=
  h.align.bind fun _ => h.next.bind fun _ => h.next.bind fun _ => h.next.bind fun _ =>
    h.next.bind fun _ => (Keeps.throw _).ite (copyStored_keeps h _)

theorem matchCopy_keeps (h : PrimitivesKeep P) (dist : Code) (s : Nat) : Keeps P (matchCopy dist s) := by
  refine (bits_keeps h _).bind fun _ => (decodeSymbol_keeps h dist).bind fun _ => Keeps.ite (Keeps.throw _) ?_
  exact (bits_keeps h _).bind fun _ => Keeps.get.bind fun d => (Keeps.throw _).ite (copyBack_keeps h _ _)

theorem compressedData_keeps (h : PrimitivesKeep P) (lit dist : Code) (n : Nat) :
    Keeps P (compressedData lit dist n) := by
  induction n with
  | zero => exact Keeps.throw _
  | succ n ih =>
    refine (decodeSymbol_keeps h lit).bind fun s => Keeps.ite ((h.emit _).bind fun _ => ih) ?_
    exact Keeps.ite (Keeps.pure ()) ((Keeps.throw _).ite ((matchCopy_keeps h dist s).bind fun _ => ih))

theorem readTriples_keeps (h : PrimitivesKeep P) (n : Nat) : Keeps P (readTriples n) := by
  induction n with
  | zero => exact Keeps.pure _
  | succ n ih => exact (bits_keeps h 3).bind fun _ => ih.bind fun _ => Keeps.pure _

theorem repeatOf_keeps (h : PrimitivesKeep P) (s : Nat) (lens : List Nat) : Keeps P (repeatOf s lens) := by
  refine Keeps.ite ?_ (Keeps.ite ((bits_keeps h 3).bind fun _ => Keeps.pure _)
    ((bits_keeps h 7).bind fun _ => Keeps.pure _))
  cases lens.getLast? with
  | none => exact Keeps.throw _
  | some v => exact (bits_keeps h 2).bind fun _ => Keeps.pure _

theorem readLengths_keeps (h : PrimitivesKeep P) (code : Code) (total n : Nat) (lens : List Nat) :
    Keeps P (readLengths code total n lens) := by
  induction n generalizing lens with
  | zero => exact Keeps.pure _
  | succ n ih =>
    refine Keeps.ite (Keeps.pure _) ((decodeSymbol_keeps h code).bind fun s => Keeps.ite (ih _) ?_)
    exact (repeatOf_keeps h s lens).bind fun r => (Keeps.throw _).ite (ih _)

theorem dynamicCodes_keeps (h : PrimitivesKeep P) : Keeps P dynamicCodes := by
  refine (bits_keeps h 5).bind fun _ => (bits_keeps h 5).bind fun _ => (bits_keeps h 4).bind fun _ =>
    Keeps.ite (Keeps.throw _) ?_
  refine (readTriples_keeps h _).bind fun _ => Keeps.ite (Keeps.throw _) ?_
  exact (readLengths_keeps h _ _ _ _).bind fun _ => (Keeps.pure _).ite (Keeps.throw _)

theorem blockBody_keeps (h : PrimitivesKeep P) (bound btype : Nat) : Keeps P (blockBody bound btype) :=
  Keeps.ite (storedBlock_keeps h) (Keeps.ite (compressedData_keeps h _ _ _)
    (Keeps.ite ((dynamicCodes_keeps h).bind fun _ => compressedData_keeps h _ _ _) (Keeps.throw _)))

theorem inflateBlocks_keeps (h : PrimitivesKeep P) (bound n : Nat) : Keeps P (inflateBlocks bound n) := by
  induction n with
  | zero => exact Keeps.throw _
  | succ n ih =>
    exact (bits_keeps h 1).bind fun _ => (bits_keeps h 2).bind fun _ => (blockBody_keeps h _ _).bind fun _ =>
      (Keeps.pure ()).ite ih

theorem readZlibHeader_keeps (h : PrimitivesKeep P) : Keeps P readZlibHeader :=
  h.next.bind fun _ => h.next.bind fun _ => (Keeps.throw _).ite (Keeps.pure ())

theorem checkTrailer_keeps (h : PrimitivesKeep P) : Keeps P checkTrailer :=
  h.align.bind fun _ => h.next.bind fun _ => h.next.bind fun _ => h.next.bind fun _ =>
    h.next.bind fun _ => Keeps.get.bind fun _ => (Keeps.throw _).ite (Keeps.pure ())

/-- The whole decoder keeps whatever its four primitives keep: every property of `Inflate` that holds along its run
follows from this one lemma. -/
theorem inflateStream_keeps (h : PrimitivesKeep P) (n : Nat) : Keeps P (inflateStream n) :=
  (readZlibHeader_keeps h).bind fun _ => (inflateBlocks_keeps h n n).bind fun _ => checkTrailer_keeps h

/-- The input bits not yet used: those of the bytes not fetched and those in the bit buffer. -/
def bitsLeft (d : Inflater) : Nat :=
  8 * d.input.length + d.bitcnt

/-- A bit read uses one bit. -/
theorem getBit_uses (d d' : Inflater) (b : Nat) (h : getBit d = .ok b d') : bitsLeft d' < bitsLeft d := by
  unfold getBit nextByte at h
  split at h
  · next hz =>
    cases hi : d.input with
    | nil => rw [hi] at h; cases h
    | cons x rest =>
      rw [hi] at h
      cases h
      simp only [bitsLeft, hi, hz, List.length_cons]
      omega
  · next hz =>
    cases h
    simp only [bitsLeft]
    omega

/-- No primitive gives input bits back. -/
theorem primitivesKeep_bitsLeft (n : Nat) : PrimitivesKeep fun d => bitsLeft d ≤ n := by
  refine ⟨fun d hd => ?_, fun d hd => ?_, fun d hd => ?_, fun b d hd => ?_⟩
  · unfold nextByte
    cases hi : d.input with
    | nil => exact hd
    | cons b rest => simp only [decoderAfter, bitsLeft, hi, List.length_cons] at hd ⊢; omega
  · cases h : getBit d with
    | ok b d' => exact (getBit_uses d d' b h).le.trans hd
    | error e d' =>
      unfold getBit nextByte at h
      split at h
      · cases hi : d.input with
        | nil => rw [hi] at h; cases h; exact hd
        | cons x rest => rw [hi] at h; cases h
      · cases h
  · simp only [alignByte, decoderAfter, bitsLeft] at hd ⊢
    omega
  · unfold Machine.emit
    split <;> exact hd

end Sys2Proof.Machine
end

