-- ==== Sys2Proof/Laws/PerInstr.lean ====
section
/-! SUPPORT. Statements about every instruction, one lemma per constructor. -/

namespace Sys2Proof.Laws.EncodingLegal

/-- The fields of the instruction meet the field rules (spec/30_encoding.md R91 to R95), its word is one the spec lists
(R102), and the word's bits are its fields (R91). -/
def Statement (i : Instr) : Prop :=
  i.fields.wellFormed = true ∧ encode i ∈ Machine.legalWords ∧ CmdFields.ofWord (encode i) = i.fields

theorem srst : Statement .srst := by unfold Statement; decide
theorem rdbe2 : Statement .rdbe2 := by unfold Statement; decide
theorem rdbe3 : Statement .rdbe3 := by unfold Statement; decide
theorem rdbe4 : Statement .rdbe4 := by unfold Statement; decide
theorem rdbe5 : Statement .rdbe5 := by unfold Statement; decide
theorem wrbe2 : Statement .wrbe2 := by unfold Statement; decide
theorem wrbe3 : Statement .wrbe3 := by unfold Statement; decide
theorem wrbe4 : Statement .wrbe4 := by unfold Statement; decide
theorem wrbe5 : Statement .wrbe5 := by unfold Statement; decide
theorem rdle4 : Statement .rdle4 := by unfold Statement; decide
theorem wrle4 : Statement .wrle4 := by unfold Statement; decide
theorem ztype : Statement .ztype := by unfold Statement; decide
theorem ivld : Statement .ivld := by unfold Statement; decide
theorem ivinc : Statement .ivinc := by unfold Statement; decide
theorem ctrdecPc : Statement .ctrdecPc := by unfold Statement; decide
theorem ctrdecMac : Statement .ctrdecMac := by unfold Statement; decide
theorem ctrencPc : Statement .ctrencPc := by unfold Statement; decide
theorem ctrencMac : Statement .ctrencMac := by unfold Statement; decide
theorem sngdet : Statement .sngdet := by unfold Statement; decide
theorem sngprobe : Statement .sngprobe := by unfold Statement; decide
theorem sngdec : Statement .sngdec := by unfold Statement; decide
theorem sngenc : Statement .sngenc := by unfold Statement; decide
theorem tocdec : Statement .tocdec := by unfold Statement; decide
theorem tocenc : Statement .tocenc := by unfold Statement; decide
theorem inflate : Statement .inflate := by unfold Statement; decide
theorem blkdec : Statement .blkdec := by unfold Statement; decide

end Sys2Proof.Laws.EncodingLegal
end

