-- ==== Sys2Proof/Tests/Slice0.lean ====
section
/-! SUPPORT. Small tests of one step or one decoding, the expected values from spec/95_test_vectors.md or written out
from spec/30_encoding.md, and for each statement with hypotheses a witness that meets them. -/

namespace Sys2Proof.Tests

set_option Elab.async false

open Sys2Proof.Machine

/-! ### Ill-formed fields are refused (spec/30_encoding.md R91 to R95) -/

theorem test_bit11_illFormed : CmdFields.wellFormed { fieldsOf 0x21 0 0 with zero11 := 1 } = false := by decide
theorem test_highBits_illFormed : CmdFields.wellFormed { fieldsOf 0x21 0 0 with zeroHi := 0x20000 } = false := by decide
theorem test_unknownOpcode_illFormed : CmdFields.wellFormed (fieldsOf 0x42 0 0) = false := by decide
theorem test_deadWidth_illFormed : CmdFields.wellFormed (fieldsOf 0x21 4 0) = false := by decide
theorem test_deadKey_illFormed : CmdFields.wellFormed (fieldsOf 0x10 2 1) = false := by decide
theorem test_width_illFormed : CmdFields.wellFormed (fieldsOf 0x11 6 0) = false := by decide
theorem test_littleEndianWidth_illFormed : CmdFields.wellFormed (fieldsOf 0x12 2 0) = false := by decide
theorem test_keySelector_illFormed : CmdFields.wellFormed (fieldsOf 0x22 0 3) = false := by decide
theorem test_decode_names_the_fault :
    decode 0x00000821 = .error .reservedBits ∧ decode 0x00000042 = .error (.unknownOpcode 0x42) ∧
    decode 0x00000421 = .error .deadField ∧ decode 0x00000611 = .error (.illegalWidth 6) ∧
    decode 0x00003022 = .error (.illegalKeySelector 3) := by decide

/-! ### Every command's word, bit by bit: zeros, `KSEL`, bit 11, `W`, `OPC` (spec/30_encoding.md R91 to R95) -/

theorem test_decode_srst : decode 0b000000000000000000_00_0_000_00000001 = .ok .srst := by decide
theorem test_decode_rdbe2 : decode 0b000000000000000000_00_0_010_00010000 = .ok .rdbe2 := by decide
theorem test_decode_rdbe3 : decode 0b000000000000000000_00_0_011_00010000 = .ok .rdbe3 := by decide
theorem test_decode_rdbe4 : decode 0b000000000000000000_00_0_100_00010000 = .ok .rdbe4 := by decide
theorem test_decode_rdbe5 : decode 0b000000000000000000_00_0_101_00010000 = .ok .rdbe5 := by decide
theorem test_decode_wrbe2 : decode 0b000000000000000000_00_0_010_00010001 = .ok .wrbe2 := by decide
theorem test_decode_wrbe3 : decode 0b000000000000000000_00_0_011_00010001 = .ok .wrbe3 := by decide
theorem test_decode_wrbe4 : decode 0b000000000000000000_00_0_100_00010001 = .ok .wrbe4 := by decide
theorem test_decode_wrbe5 : decode 0b000000000000000000_00_0_101_00010001 = .ok .wrbe5 := by decide
theorem test_decode_rdle4 : decode 0b000000000000000000_00_0_100_00010010 = .ok .rdle4 := by decide
theorem test_decode_wrle4 : decode 0b000000000000000000_00_0_100_00010011 = .ok .wrle4 := by decide
theorem test_decode_ztype : decode 0b000000000000000000_00_0_000_00010100 = .ok .ztype := by decide
theorem test_decode_ivld : decode 0b000000000000000000_00_0_000_00100000 = .ok .ivld := by decide
theorem test_decode_ivinc : decode 0b000000000000000000_00_0_000_00100001 = .ok .ivinc := by decide
theorem test_decode_ctrdecPc : decode 0b000000000000000000_01_0_000_00100010 = .ok .ctrdecPc := by decide
theorem test_decode_ctrdecMac : decode 0b000000000000000000_10_0_000_00100010 = .ok .ctrdecMac := by decide
theorem test_decode_ctrencPc : decode 0b000000000000000000_01_0_000_00100011 = .ok .ctrencPc := by decide
theorem test_decode_ctrencMac : decode 0b000000000000000000_10_0_000_00100011 = .ok .ctrencMac := by decide
theorem test_decode_sngdet : decode 0b000000000000000000_00_0_000_00101000 = .ok .sngdet := by decide
theorem test_decode_sngprobe : decode 0b000000000000000000_00_0_000_00101001 = .ok .sngprobe := by decide
theorem test_decode_sngdec : decode 0b000000000000000000_00_0_000_00101010 = .ok .sngdec := by decide
theorem test_decode_sngenc : decode 0b000000000000000000_00_0_000_00101011 = .ok .sngenc := by decide
theorem test_decode_tocdec : decode 0b000000000000000000_00_0_000_00110000 = .ok .tocdec := by decide
theorem test_decode_tocenc : decode 0b000000000000000000_00_0_000_00110001 = .ok .tocenc := by decide
theorem test_decode_inflate : decode 0b000000000000000000_00_0_000_01000000 = .ok .inflate := by decide
theorem test_decode_blkdec : decode 0b000000000000000000_00_0_000_01000001 = .ok .blkdec := by decide
theorem test_decodeTableWord : decodeTableWord 32 0x00002022 = some .ctrdecMac ∧ decodeTableWord 32 0 = none := by decide

/-! ### One step each (spec/95_test_vectors.md) -/

/-- The reset state under the test keys. -/
def rig : State :=
  State.resetWith Config.vectors 0

/-- What `f` says of the state after a step, if the step answers one. -/
def after (f : State → Bool) : Host.Outcome State Fault Refusal → Bool
  | .next t => f t
  | _ => false

/-- The container encrypted under `KEY_PC` (spec/95_test_vectors.md section 6). -/
def cpc : List Byte :=
  [0x4A, 0x00, 0x00, 0x00, 0x03, 0x00, 0x00, 0x00, 0x00, 0x11, 0x22, 0x33, 0x44, 0x55, 0x66,
   0x77, 0x88, 0x99, 0xAA, 0xBB, 0xFF, 0xFF, 0xFF, 0xFF, 0xD9, 0x5F, 0xB2, 0xAE, 0xD7, 0x6C,
   0x07, 0x2C, 0x33, 0xDE, 0xF7, 0xE8, 0xCD, 0xE5, 0xA4, 0xC8, 0xD6, 0x8B, 0x98, 0x7F, 0xE7]

/-- The container encrypted under `KEY_MAC` (spec/95_test_vectors.md section 6). -/
def cmac : List Byte :=
  [0x4A, 0x00, 0x00, 0x00, 0x03, 0x00, 0x00, 0x00, 0x00, 0x11, 0x22, 0x33, 0x44, 0x55, 0x66,
   0x77, 0x88, 0x99, 0xAA, 0xBB, 0xFF, 0xFF, 0xFF, 0xFF, 0xD8, 0x68, 0x15, 0x12, 0x58, 0xDC,
   0x74, 0x7F, 0xD9, 0xAA, 0xF1, 0x65, 0x67, 0x47, 0x06, 0x2F, 0xD6, 0xD8, 0xB3, 0xA8, 0x02]

/-- The plaintext of both (spec/95_test_vectors.md section 6). -/
def plain : List Byte :=
  [0x18, 0x00, 0x00, 0x00, 0x78, 0xDA, 0xCB, 0x48, 0xCD, 0xC9, 0xC9, 0x57, 0xC8, 0x40, 0x27,
   0xB9, 0x00, 0x70, 0xBE, 0x08, 0xBB]

/-- A container in `MEM` at 0x100 with `SRC`, `DST` and `LEN` for it. -/
def boxed (box : List Byte) (dst : Word) : State :=
  { rig.writeBytes 0x100 box with src := 0x100, dst := dst, len := 45 }

/-- The state of V23: the container at 0x100, the plaintext at 0x200, encryption for the other platform wanted. -/
def toEncrypt (plat : Platform) (tplat : Target) : State :=
  { (rig.writeBytes 0x100 cpc).writeBytes 0x200 plain with
    src := 0x200, dst := 0x100, len := 45, ectx := { plat := plat, tplat := tplat, enc := true } }

/-- The first 32 bytes of the table of contents of section 7, plain and encrypted. -/
def tocPlain : List Byte :=
  [0x00, 0x01, 0x02, 0x03, 0x04, 0x05, 0x06, 0x07, 0x08, 0x09, 0x0A, 0x0B, 0x0C, 0x0D, 0x0E,
   0x0F, 0x00, 0x00, 0x00, 0x00, 0x00, 0x00, 0x00, 0x00, 0x06, 0x00, 0x00, 0x00, 0x00, 0x66,
   0x10, 0x11]

def tocCipher : List Byte :=
  [0x7F, 0xF4, 0x25, 0xDB, 0xB7, 0x29, 0x07, 0x31, 0xB1, 0xFE, 0xCD, 0x14, 0xB8, 0x72, 0x98,
   0x56, 0xE6, 0xE9, 0x89, 0x3F, 0xF1, 0x3A, 0xD4, 0xA7, 0x16, 0xD3, 0x4A, 0x05, 0xFD, 0xE0,
   0xD7, 0x67]

/-- V40: the stream of the one byte 61. -/
def streamA : List Byte :=
  [0x78, 0xDA, 0x4B, 0x04, 0x00, 0x00, 0x62, 0x00, 0x62]

/-- V41: the stream of no bytes. -/
def streamEmpty : List Byte :=
  [0x78, 0xDA, 0x03, 0x00, 0x00, 0x00, 0x00, 0x01]

/-- The compressed block of V45 with a room of `xlen` bytes: eleven stored bytes of sixteen `41`. -/
def zBlock (xlen : Word) : State :=
  { rig.writeBytes 0x100 [0x78, 0xDA, 0x73, 0x74, 0x44, 0x05, 0x00, 0x22, 0x98, 0x04, 0x11] with
    src := 0x100, dst := 0x800, val := 11, xlen := xlen, bsize := 16 }

/-- A raw block of sixteen bytes, as in V44, with a room of `xlen` bytes. -/
def rawBlock (xlen : Word) : State :=
  { rig.writeBytes 0x100 (plain.take 16) with src := 0x100, dst := 0x800, xlen := xlen, bsize := 16 }

-- V52
theorem test_srst : after (fun t => t.src == 0 && t.iv == 0 && t.status.sticky == false && t.byteAt 5 == 0xA5)
    (exec .srst { rig.writeBytes 5 [0xA5] with
      src := 0x40, iv := 7, status := { code := .bounds, sizeMis := false, sticky := true } }) = true := by
  decide +kernel

-- V1, V2
theorem test_rdbe2 : after (fun t => t.val == 0xFEDC && t.src == 0x112)
    (exec .rdbe2 { rig.writeBytes 0x110 [0xFE, 0xDC] with src := 0x110 }) = true := by decide +kernel
theorem test_rdbe3 : after (fun t => t.val == 0xFEDCBA && t.src == 0x113)
    (exec .rdbe3 { rig.writeBytes 0x110 [0xFE, 0xDC, 0xBA] with src := 0x110 }) = true := by decide +kernel
theorem test_rdbe4 : after (fun t => t.val == 0xFEDCBA98 && t.src == 0x114)
    (exec .rdbe4 { rig.writeBytes 0x110 [0xFE, 0xDC, 0xBA, 0x98] with src := 0x110 }) = true := by decide +kernel
theorem test_rdbe5 : after (fun t => t.val == 0xFEDCBA9876 && t.src == 0x115)
    (exec .rdbe5 { rig.writeBytes 0x110 [0xFE, 0xDC, 0xBA, 0x98, 0x76] with src := 0x110 }) = true := by
  decide +kernel
theorem test_rdle4 : after (fun t => t.val == 0x98BADCFE && t.src == 0x114)
    (exec .rdle4 { rig.writeBytes 0x110 [0xFE, 0xDC, 0xBA, 0x98] with src := 0x110 }) = true := by decide +kernel
-- V3: no wrap-around
theorem test_rdbe2_no_wrap : after (fun t => t.status.toWord == 0x202 && t.src == 0xFFFFFFFE)
    (exec .rdbe2 { rig with src := 0xFFFFFFFE }) = true := by decide +kernel
-- V4, V5, V6
theorem test_wrbe5 : after (fun t => t.readBytes 0x200 5 == [0x12, 0x34, 0x56, 0x78, 0x9A] && t.dst == 0x205)
    (exec .wrbe5 { rig with val := 0x123456789A, dst := 0x200 }) = true := by decide +kernel
theorem test_wrbe4_range : after (fun t => t.status.toWord == 0x204 && t.dst == 0x200)
    (exec .wrbe4 { rig with val := 0x123456789A, dst := 0x200 }) = true := by decide +kernel
theorem test_wrbe4 : after (fun t => t.readBytes 0x200 4 == [0x89, 0xAB, 0xCD, 0xEF])
    (exec .wrbe4 { rig with val := 0x89ABCDEF, dst := 0x200 }) = true := by decide +kernel
theorem test_wrbe3 : after (fun t => t.readBytes 0x200 3 == [0xAB, 0xCD, 0xEF] && t.dst == 0x203)
    (exec .wrbe3 { rig with val := 0xABCDEF, dst := 0x200 }) = true := by decide +kernel
theorem test_wrbe2 : after (fun t => t.readBytes 0x210 2 == [0xFF, 0xFF] && t.dst == 0x212)
    (exec .wrbe2 { rig with val := 0xFFFF, dst := 0x210 }) = true := by decide +kernel
theorem test_wrbe2_range_before_bounds : after (fun t => t.status.toWord == 0x204)
    (exec .wrbe2 { rig with val := 0x10000, dst := 0xFFF }) = true := by decide +kernel
theorem test_wrle4 : after (fun t => t.readBytes 0x220 4 == [0xEF, 0xCD, 0xAB, 0x89] && t.dst == 0x224)
    (exec .wrle4 { rig with val := 0x89ABCDEF, dst := 0x220 }) = true := by decide +kernel
-- V7
theorem test_ztype_65536 : after (fun t => t.val == 2) (exec .ztype { rig with bsize := 65536 }) = true := by
  decide +kernel
theorem test_ztype_65537 : after (fun t => t.val == 3) (exec .ztype { rig with bsize := 65537 }) = true := by
  decide +kernel
-- V11
theorem test_ivld : after (fun t => t.iv == 0x000102030405060708090A0B0C0D0E0F && t.src == 0x48)
    (exec .ivld { rig.writeBytes 0x48 [0, 1, 2, 3, 4, 5, 6, 7, 8, 9, 10, 11, 12, 13, 14, 15] with src := 0x48 }) = true := by
  decide +kernel
-- V10
theorem test_ivinc_carry : after (fun t => t.iv == 0x02000000000000000000000000000000)
    (exec .ivinc { rig with iv := 0x01FFFFFFFFFFFFFFFFFFFFFFFFFFFFFF }) = true := by decide +kernel
-- the block-cipher table of section 2
theorem test_aes256 : aes256Enc Config.vectors.keyPc 0x00112233445566778899AABBCCDDEEFF
    = 0x8EA2B7CA516745BFEAFC49904B496089 := by decide +kernel
-- V13
theorem test_ctrencPc : after
    (fun t => t.readBytes 0x200 16 == blockBytes 0xF29000B62A499FD0A9F39A6ADD2E7780 && t.iv == 1 && t.outlen == 16)
    (exec .ctrencPc { rig.writeBytes 0x100 (blockBytes 0) with src := 0x100, dst := 0x200, len := 16 }) = true := by
  decide +kernel
theorem test_ctrdecPc : after (fun t => t.readBytes 0x300 16 == blockBytes 0 && t.inlen == 16)
    (exec .ctrdecPc { rig.writeBytes 0x200 (blockBytes 0xF29000B62A499FD0A9F39A6ADD2E7780) with
      src := 0x200, dst := 0x300, len := 16 }) = true := by decide +kernel
-- V15, the first block, in place
theorem test_ctrencMac : after
    (fun t => t.readBytes 0x100 16 == blockBytes 0x7B7D6B628C1F6299D28F4C8521502E83 && t.iv == 0)
    (exec .ctrencMac { rig.writeBytes 0x100 (blockBytes 0x404142434445464748494A4B4C4D4E4F) with
      src := 0x100, dst := 0x100, len := 16, iv := 0xFFFFFFFFFFFFFFFFFFFFFFFFFFFFFFFF }) = true := by decide +kernel
theorem test_ctrdecMac : after (fun t => t.readBytes 0x100 16 == blockBytes 0x404142434445464748494A4B4C4D4E4F)
    (exec .ctrdecMac { rig.writeBytes 0x100 (blockBytes 0x7B7D6B628C1F6299D28F4C8521502E83) with
      src := 0x100, dst := 0x100, len := 16, iv := 0xFFFFFFFFFFFFFFFFFFFFFFFFFFFFFFFF }) = true := by decide +kernel
-- V22
theorem test_sngdet : after (fun t => t.ectx.enc) (exec .sngdet (boxed cpc 0)) = true := by decide +kernel
theorem test_sngdet_short : after (fun t => !t.ectx.enc) (exec .sngdet { boxed cpc 0 with len := 7 }) = true := by
  decide +kernel
-- V20 (b)
theorem test_sngprobe : after (fun t => t.ectx.plat == .mac && t.iv == 0x00112233445566778899AABBFFFFFFFF)
    (exec .sngprobe (boxed cmac 0)) = true := by decide +kernel
-- V21 (b), in place
theorem test_sngdec : after
    (fun t => t.readBytes 0x118 21 == plain && t.ectx.toWord == 0x101 && t.iv == 0x00112233445566778899AABC00000001
      && t.outlen == 21 && t.inlen == 45)
    (exec .sngdec (boxed cpc 0x118)) = true := by decide +kernel
-- program P5
theorem test_sngenc : after
    (fun t => t.readBytes 0x100 45 == cmac && t.iv == 0x00112233445566778899AABC00000001 && t.inlen == 21)
    (exec .sngenc (toEncrypt .pc .mac)) = true := by decide +kernel
-- V23: undetermined platform
theorem test_sngenc_unknown : after (fun t => t.status.toWord == 0x210)
    (exec .sngenc (toEncrypt .unknown .mac)) = true := by decide +kernel
-- V30, V31 over their first 32 bytes
theorem test_tocdec : after (fun t => t.readBytes 0x20 32 == tocPlain && t.outlen == 32)
    (exec .tocdec { rig.writeBytes 0x20 tocCipher with src := 0x20, dst := 0x20, len := 32 }) = true := by
  decide +kernel
theorem test_tocenc : after (fun t => t.readBytes 0x400 32 == tocCipher)
    (exec .tocenc { rig.writeBytes 0x20 tocPlain with src := 0x20, dst := 0x400, len := 32 }) = true := by
  decide +kernel
-- V40
theorem test_inflate : after (fun t => t.byteAt 0x800 == 0x61 && t.outlen == 1 && t.inlen == 9 && t.status.toWord == 0)
    (exec .inflate { rig.writeBytes 0x100 streamA with src := 0x100, dst := 0x800, len := 9, xlen := 1 }) = true := by
  decide +kernel
-- V41 with XLEN = 3: SIZEMIS
theorem test_inflate_sizemis : after (fun t => t.status.toWord == 0x100 && t.inlen == 8)
    (exec .inflate { rig.writeBytes 0x100 streamEmpty with src := 0x100, dst := 0x800, len := 8, xlen := 3 }) = true := by
  decide +kernel
-- V45
theorem test_blkdec : after
    (fun t => t.readBytes 0x800 16 == List.replicate 16 0x41 && t.src == 0x10B && t.dst == 0x810 && t.xlen == 8)
    (exec .blkdec (zBlock 24)) = true := by decide +kernel
-- V44
theorem test_blkdec_raw : after (fun t => t.readBytes 0x800 16 == plain.take 16 && t.src == 0x110 && t.xlen == 24)
    (exec .blkdec (rawBlock 40)) = true := by decide +kernel
-- V50, V51: an illegal word reports and sets STICKY
theorem test_illegal_word : after (fun t => t.status.toWord == 0x201 && t.outlen == 7 && t.cmd == 0x110)
    (step (({ rig with outlen := 7 }).withFetchWord 32 0x110)) = true := by decide +kernel
-- V53
theorem test_ectx_mask : after (fun t => t.readReg .ectx == 0x100)
    (step { rig with inputs := [.writeWord 0x2C 0xFFFFFFFF] }) = true := by decide +kernel
-- the fetch of a placed word runs exactly it, from reset
theorem test_fetch_runs : after (fun t => t.iv == 1 && t.cmd == 0x21) (step (State.reset.withFetchWord 32 0x21)) = true := by
  decide +kernel

/-! ### Witnesses: for each statement with hypotheses, a state and operands that meet them -/

/-- The reset state with one pending host action. -/
def pending (a : HostAction) : State :=
  { rig with inputs := [a] }

theorem witness_StepRunsTheDecodedCommand :
    (pending (.writeWord 0 0x21)).inputs = .writeWord 0x00 0x21 :: [] ∧ decode 0x21 = .ok .ivinc ∧
      Instr.ivinc.wellFormed = true := by decide
theorem witness_IllegalWordChangesNothingElse :
    (pending (.writeWord 0 0x22)).inputs = .writeWord 0x00 0x22 :: [] ∧ (0x22 : Word) ∉ legalWords ∧
      (0x80000021 : Word) ∉ legalWords ∧ (0x00000610 : Word) ∉ legalWords := by decide
theorem witness_StepTakesOneHostAction :
    step (pending .powerOn) = .next { State.resetWith Config.vectors 1 with inputs := [] } := rfl
theorem witness_RegisterReadHasNoSideEffect :
    ∀ off ∈ [0x00, 0x04, 0x08, 0x0C, 0x10, 0x14, 0x18, 0x1C, 0x20, 0x24, 0x28, 0x2C, 0x30, 0x34, 0x38, 0x3C, 0x40, 0x44],
      (pending (.readWord off)).inputs = .readWord off :: [] := by decide
theorem witness_PlainRegisterWrites :
    ∀ off ∈ [0x08, 0x0C, 0x10, 0x14, 0x28, 0x18, 0x1C, 0x40, 0x44],
      (pending (.writeWord off 0xFFFFFFFF)).inputs = .writeWord off 0xFFFFFFFF :: [] := by decide
theorem witness_StatusWriteClearsStickyOnly :
    (pending (.writeWord 0x04 0x200)).inputs = .writeWord 0x04 0x200 :: [] ∧
      (pending (.readWord 0x04)).inputs = .readWord 0x04 :: [] := by decide
theorem witness_EctxStoresDefinedFieldsOnly :
    (pending (.readWord 0x2C)).inputs = .readWord 0x2C :: [] ∧
      (pending (.writeWord 0x2C 0x133)).inputs = .writeWord 0x2C 0x133 :: [] := by decide
theorem witness_IvWordsAreItsBytes :
    ∀ p ∈ [(0, 0x30), (3, 0x3C)], p ∈ [(0, 0x30), (1, 0x34), (2, 0x38), (3, 0x3C)] ∧
      (pending (.readWord p.2)).inputs = .readWord p.2 :: [] ∧
      (pending (.writeWord p.2 1)).inputs = .writeWord p.2 1 :: [] := by decide
theorem witness_ValHalves :
    ∀ off ∈ [0x20, 0x24], (pending (.readWord off)).inputs = .readWord off :: [] ∧
      (pending (.writeWord off 0xFFFFFFFF)).inputs = .writeWord off 0xFFFFFFFF :: [] := by decide
theorem witness_ReservedOffsetsReadZero :
    ∀ off ∈ [0x48, 0xFFFC], 0x48 ≤ off ∧ off < rig.cfg.memBase ∧ off % 4 = 0 ∧
      (pending (.readWord off)).inputs = .readWord off :: [] ∧
      (pending (.writeWord off 1)).inputs = .writeWord off 1 :: [] := by decide
theorem witness_AccessOutsideTheBusDomainIsRefused :
    (∀ off ∈ [0x01, 0xFFFF], off < rig.cfg.memBase ∧ off % 4 ≠ 0 ∧
      (pending (.readWord off)).inputs = .readWord off :: [] ∧
      (pending (.writeWord off 1)).inputs = .writeWord off 1 :: []) ∧
    (∀ off ∈ [0x00, 0xFFFF], off < rig.cfg.memBase ∧
      (pending (.readBytes off 1)).inputs = .readBytes off 1 :: [] ∧
      (pending (.writeBytes off [1])).inputs = .writeBytes off [1] :: []) ∧
    (∀ off ∈ [0x10FFD, 0x11000], rig.cfg.memBase ≤ off ∧ rig.cfg.memBase + rig.cfg.memSize < off + 4 ∧
      (pending (.readWord off)).inputs = .readWord off :: [] ∧
      (pending (.writeWord off 1)).inputs = .writeWord off 1 :: []) ∧
    (∀ off ∈ [0x10FFF, 0x11000], rig.cfg.memBase ≤ off ∧
      rig.cfg.memBase + rig.cfg.memSize < off + [1, 2].length ∧
      (pending (.readBytes off 2)).inputs = .readBytes off 2 :: [] ∧
      (pending (.writeBytes off [1, 2])).inputs = .writeBytes off [1, 2] :: []) := by decide
theorem witness_WindowReadAfterWrite :
    (0xFFE + 2 ≤ rig.cfg.memSize ∧
      (pending (.readBytes 0x10FFE 2)).inputs = .readBytes (rig.cfg.memBase + 0xFFE) 2 :: []) ∧
    (0xFFE + [1, 2].length ≤ rig.cfg.memSize ∧
      ({ rig with inputs := [.writeBytes 0x10FFE [1, 2], .readBytes 0x10FFE 2] }).inputs
        = .writeBytes (rig.cfg.memBase + 0xFFE) [1, 2] :: .readBytes (rig.cfg.memBase + 0xFFE) 2 :: []) ∧
    0x1000 + ([] : List Byte).length ≤ rig.cfg.memSize ∧
    (0xFFC + 4 ≤ rig.cfg.memSize ∧
      (pending (.readWord 0x10FFC)).inputs = .readWord (rig.cfg.memBase + 0xFFC) :: [] ∧
      ({ rig with inputs := [.writeWord 0x10FFC 1, .readWord 0x10FFC] }).inputs
        = .writeWord (rig.cfg.memBase + 0xFFC) 1 :: .readWord (rig.cfg.memBase + 0xFFC) :: []) := by decide
theorem witness_PowerOnResetsAndRedraws : (pending .powerOn).inputs = .powerOn :: [] := by decide

/-- The reset state with the cursors and the value of a codec command. -/
def codec (src dst : Word) (val : Val40) : State :=
  { rig with src := src, dst := dst, val := val }

theorem witness_RdbeReadsBigEndian :
    (2, Instr.rdbe2) ∈ rdbeCommands ∧ (5, Instr.rdbe5) ∈ rdbeCommands ∧
    (codec 0xFFB 0 0).src.toNat + 5 ≤ rig.cfg.memSize ∧ rig.cfg.memSize < (codec 0xFFC 0 0).src.toNat + 5 := by decide
theorem witness_RdleReadsLittleEndian :
    (codec 0xFFC 0 0).src.toNat + 4 ≤ rig.cfg.memSize ∧ rig.cfg.memSize < (codec 0xFFD 0 0).src.toNat + 4 := by decide
theorem witness_WrbeWritesBigEndian :
    (2, Instr.wrbe2) ∈ wrbeCommands ∧ 2 ^ (8 * 2) ≤ (codec 0 0xFFE 0x10000).val.toNat ∧
    ((codec 0 0xFFF 0xFFFF).val.toNat < 2 ^ (8 * 2) ∧ rig.cfg.memSize < (codec 0 0xFFF 0xFFFF).dst.toNat + 2) ∧
    ((codec 0 0xFFE 0xFFFF).val.toNat < 2 ^ (8 * 2) ∧ (codec 0 0xFFE 0xFFFF).dst.toNat + 2 ≤ rig.cfg.memSize) := by decide
theorem witness_WrleWritesLittleEndian :
    2 ^ 32 ≤ (codec 0 0xFFC 0x100000000).val.toNat ∧
    ((codec 0 0xFFD 0xFFFFFFFF).val.toNat < 2 ^ 32 ∧ rig.cfg.memSize < (codec 0 0xFFD 0xFFFFFFFF).dst.toNat + 4) ∧
    ((codec 0 0xFFC 0xFFFFFFFF).val.toNat < 2 ^ 32 ∧ (codec 0 0xFFC 0xFFFFFFFF).dst.toNat + 4 ≤ rig.cfg.memSize) := by
  decide
theorem witness_CodecRoundTrips :
    (2, Instr.wrbe2, Instr.rdbe2) ∈ codecPairs ∧ (codec 0xFFE 0xFFE 0xFFFF).val.toNat < 2 ^ (8 * 2) ∧
    (codec 0xFFE 0xFFE 0xFFFF).dst.toNat + 2 ≤ rig.cfg.memSize ∧
    (codec 0xFFE 0xFFE 0xFFFF).src.toNat + 2 ≤ rig.cfg.memSize := by decide
theorem witness_IvldLoadsSixteenBytes :
    (codec 0xFF0 0 0).src.toNat + 16 ≤ rig.cfg.memSize ∧ rig.cfg.memSize < (codec 0xFF1 0 0).src.toNat + 16 := by decide

/-- The reset state with the ranges of a transforming command. -/
def ranges (src dst len : Word) : State :=
  { rig with src := src, dst := dst, len := len }

theorem witness_ranges :
    ¬ rangesInBounds (ranges 0xFF1 0 16) ∧
    (rangesInBounds (ranges 0x100 0x10F 16) ∧ rangesOverlap (ranges 0x100 0x10F 16)) ∧
    (rangesInBounds (ranges 0xFF0 0xFF0 16) ∧ ¬ rangesOverlap (ranges 0xFF0 0xFF0 16)) ∧
    (rangesInBounds (ranges 0x100 0x110 16) ∧ ¬ rangesOverlap (ranges 0x100 0x110 16)) ∧
    (rangesInBounds (ranges 0x1000 0x1000 0) ∧ ¬ rangesOverlap (ranges 0x1000 0x1000 0)) := by
  unfold rangesInBounds rangesOverlap; decide
theorem witness_CounterCommandsXorTheKeystream :
    (Instr.ctrdecPc, KeySel.pc) ∈ counterCommands ∧ (Instr.ctrencMac, KeySel.mac) ∈ counterCommands ∧
    rangesInBounds (ranges 0xFF0 0xFF0 16) ∧ ¬ rangesOverlap (ranges 0xFF0 0xFF0 16) :=
  ⟨by decide, by decide, witness_ranges.2.2.1⟩
theorem witness_TocCommandsTransformAndCopyTheTail :
    (Instr.tocdec, CfbDir.dec) ∈ tocCommands ∧ (Instr.tocenc, CfbDir.enc) ∈ tocCommands ∧
    rangesInBounds (ranges 0x100 0x110 16) ∧ ¬ rangesOverlap (ranges 0x100 0x110 16) :=
  ⟨by decide, by decide, witness_ranges.2.2.2.1⟩
theorem witness_CounterModeUndoesItself :
    ([1, 2] : List Byte).length = ([1, 3] : List Byte).length ∧ ([1, 2] : List Byte)[0]? = ([1, 3] : List Byte)[0]? := by
  decide
theorem witness_CounterModeSplitsAtBlocks : (List.replicate 16 (7 : Byte)).length % 16 = 0 := by decide

theorem witness_SngdetDetectsTheHeader :
    rig.cfg.memSize < (ranges 0xFF9 0 8).src.toNat + (ranges 0xFF9 0 8).len.toNat ∧
    (ranges 0xFF8 0 8).src.toNat + (ranges 0xFF8 0 8).len.toNat ≤ rig.cfg.memSize := by decide
theorem witness_SngprobeFindsThePlatform :
    (ranges 0 0 39).len.toNat < 40 ∧
    (40 ≤ (ranges 0xFD9 0 40).len.toNat ∧
      rig.cfg.memSize < (ranges 0xFD9 0 40).src.toNat + (ranges 0xFD9 0 40).len.toNat) ∧
    (40 ≤ (boxed cmac 0).len.toNat ∧ (boxed cmac 0).src.toNat + (boxed cmac 0).len.toNat ≤ rig.cfg.memSize ∧
      probesAs (boxed cmac 0) 0x100 .mac) := by
  unfold probesAs showsSignature; decide +kernel
theorem witness_SngdecDecryptsThePayload :
    sngdecReady (boxed cpc 0x118) ∧ probesAs (boxed cpc 0x118) 0x100 .pc ∧ platformKey .pc = some .pc := by
  unfold sngdecReady looksEncrypted probesAs showsSignature; decide +kernel
theorem witness_SngdecUnknownPlatformKeepsMemory :
    sngdecReady ((boxed cpc 0x200).writeBytes 0x11C [0xD6]) ∧
      probesAs ((boxed cpc 0x200).writeBytes 0x11C [0xD6]) 0x100 .unknown := by
  unfold sngdecReady looksEncrypted probesAs showsSignature; decide +kernel
/-- One state for each clause of the check order of `SNGDEC`. -/
theorem witness_SngdecChecksInOrder :
    ¬ ((ranges 0xFF0 0 45).src.toNat + (ranges 0xFF0 0 45).len.toNat ≤ rig.cfg.memSize) ∧
    ((boxed plain 0).src.toNat + (boxed plain 0).len.toNat ≤ rig.cfg.memSize ∧
      ¬ looksEncrypted (boxed plain 0) 0x100 45) ∧
    (looksEncrypted ({ boxed cpc 0 with len := 39 }) 0x100 39 ∧ (39 : Word).toNat < 40) ∧
    (looksEncrypted (boxed cpc 0xFEC) 0x100 45 ∧ rig.cfg.memSize < (boxed cpc 0xFEC).dst.toNat + (45 - 24)) ∧
    (looksEncrypted (boxed cpc 0x110) 0x100 45 ∧ (boxed cpc 0x110).dst.toNat + (45 - 24) ≤ rig.cfg.memSize ∧
      (boxed cpc 0x110).dst.toNat ≠ 0x100 + 24 ∧ Overlap 0x100 45 (boxed cpc 0x110).dst.toNat (45 - 24)) := by
  unfold looksEncrypted; decide +kernel
theorem witness_SngencEncryptsForTheTarget :
    sngencWanted (toEncrypt .pc .mac) .mac ∧ 40 ≤ (toEncrypt .pc .mac).len.toNat ∧
      sngencInBounds (toEncrypt .pc .mac) ∧ ¬ sngencOverlap (toEncrypt .pc .mac) := by
  refine ⟨⟨by decide, by decide, .pc, by decide, by decide⟩, ?_⟩
  unfold sngencInBounds sngencOverlap; decide
theorem witness_SngencNoOpsAndUnknownPlatform :
    rig.ectx.enc = false ∧
    ((toEncrypt .pc .none).ectx.enc = true ∧ (toEncrypt .pc .none).ectx.tplat = .none) ∧
    ((toEncrypt .unknown .pc).ectx.enc = true ∧ (toEncrypt .unknown .pc).ectx.tplat ≠ .none ∧
      (toEncrypt .unknown .pc).ectx.plat = .unknown) ∧
    ((toEncrypt .mac .mac).ectx.enc = true ∧ (toEncrypt .mac .mac).ectx.plat = .mac ∧
      (toEncrypt .mac .mac).ectx.tplat = .mac) := by decide
/-- One state for each clause of the check order of `SNGENC`. -/
theorem witness_SngencChecksInOrder :
    (sngencWanted ({ toEncrypt .pc .mac with len := 39 }) .mac ∧ (39 : Word).toNat < 40) ∧
    (sngencWanted ({ toEncrypt .pc .mac with dst := 0xFD4 }) .mac ∧
      ¬ sngencInBounds ({ toEncrypt .pc .mac with dst := 0xFD4 })) ∧
    (sngencWanted ({ toEncrypt .pc .mac with src := 0x119 }) .mac ∧
      sngencInBounds ({ toEncrypt .pc .mac with src := 0x119 }) ∧
      sngencOverlap ({ toEncrypt .pc .mac with src := 0x119 })) := by
  refine ⟨⟨⟨by decide, by decide, .pc, by decide, by decide⟩, by decide⟩,
    ⟨⟨by decide, by decide, .pc, by decide, by decide⟩, ?_⟩,
    ⟨⟨by decide, by decide, .pc, by decide, by decide⟩, ?_⟩⟩ <;>
  unfold sngencInBounds <;> [skip; unfold sngencOverlap] <;> decide
/-- The state before, and that the container written for MAC shows no signature under `KEY_PC`. -/
theorem witness_SngencThenSngdecGivesThePlaintext :
    sngencWanted (toEncrypt .pc .mac) .mac ∧ 40 ≤ (toEncrypt .pc .mac).len.toNat ∧
    sngencInBounds (toEncrypt .pc .mac) ∧ ¬ sngencOverlap (toEncrypt .pc .mac) ∧
    looksEncrypted (toEncrypt .pc .mac) 0x100 45 ∧
    (toEncrypt .pc .mac).byteAt 0x204 ++ (toEncrypt .pc .mac).byteAt 0x205 = Config.vectors.zsig ∧
    (0x240 : Word).toNat + (45 - 24) ≤ Config.vectors.memSize ∧
    ¬ ((0x240 : Word).toNat ≠ 0x100 + 24 ∧ Overlap 0x100 45 (0x240 : Word).toNat (45 - 24)) ∧
    ¬ showsSignature Config.vectors.keyPc (boxed cmac 0) 0x100 := by
  refine ⟨⟨by decide, by decide, .pc, by decide, by decide⟩, ?_⟩
  unfold sngencInBounds sngencOverlap looksEncrypted showsSignature; decide +kernel
theorem witness_TocDirectionsUndoEachOther : (List.replicate 31 (7 : Byte)).length < 32 := by decide

theorem witness_StoredStreamInflatesToItsBytes :
    ([] : List Byte).length ≤ 65535 ∧ ([] : List Byte).length ≤ 0 ∧ (List.replicate 4 (7 : Byte)).length ≤ 4 := by decide
theorem witness_InflateIgnoresTrailingBytes : inflate streamEmpty 0 = .ok [] 8 ∧ 0 ≤ 3 := by decide +kernel
theorem witness_InflateBoundIsNeverReached : 8 * streamEmpty.length + 1 ≤ 65 := by decide
/-- One state for each clause of `INFLATE`. -/
theorem witness_InflateCommandStoresTheOutput :
    (0 : Word).toNat ≤ 1 ∧ ¬ InBounds rig.cfg 0xFF8 9 ∧
    (InBounds rig.cfg 0x100 9 ∧ InBounds rig.cfg 0x108 1 ∧ Overlap 0x100 9 0x108 1) ∧
    (¬ Overlap 0x100 0 0x800 1 ∧ inflate (rig.readBytes 0x100 0) 1 = .err .trunc []) ∧
    (InBounds rig.cfg 0x800 3 ∧ ¬ Overlap 0x100 8 0x800 3 ∧
      inflate ((rig.writeBytes 0x100 streamEmpty).readBytes 0x100 8) 3 = .ok [] 8) := by decide +kernel
theorem witness_BlkdecCopiesRawAndVerbatimBlocks :
    (rawBlock 16).bsize ≠ 0 ∧ blockLength (rawBlock 16) 16 ∧ InBounds (rawBlock 16).cfg 0x100 16 ∧
    ¬ blockIsStream (rawBlock 16) ∧ 16 ≤ (rawBlock 16).xlen.toNat ∧ InBounds (rawBlock 16).cfg 0x800 16 ∧
    ¬ Overlap 0x100 16 0x800 16 := by
  unfold blockLength blockIsStream; decide +kernel
theorem witness_BlkdecInflatesCompressedBlocks :
    (zBlock 24).bsize ≠ 0 ∧ blockLength (zBlock 24) 11 ∧ InBounds (zBlock 24).cfg 0x100 11 ∧ blockIsStream (zBlock 24) ∧
    16 = min (zBlock 24).xlen.toNat (zBlock 24).bsize.toNat ∧ InBounds (zBlock 24).cfg 0x800 16 ∧
    ¬ Overlap 0x100 11 0x800 16 ∧
    inflate ((zBlock 24).readBytes 0x100 11) 16 = .ok (List.replicate 16 0x41) 11 ∧
    inflate ((zBlock 0).readBytes 0x100 11) 0 = .err .overflow [] := by
  unfold blockLength blockIsStream; decide +kernel
/-- One state for each clause of the check order of `BLKDEC`. -/
theorem witness_BlkdecChecksInOrder :
    blockLength (rawBlock 10) 16 ∧ rig.bsize = 0 ∧
    ¬ InBounds ({ rawBlock 10 with src := 0xFF1 }).cfg 0xFF1 16 ∧
    (blockIsStream (zBlock 24) ∧ ¬ InBounds ({ zBlock 24 with dst := 0xFF1 }).cfg 0xFF1 16 ∧
      Overlap 0x100 11 0x10A 16) ∧
    (¬ blockIsStream (rawBlock 10) ∧ (rawBlock 10).xlen.toNat < 16) ∧
    (¬ blockIsStream (rawBlock 16) ∧ 16 ≤ (rawBlock 16).xlen.toNat ∧ ¬ InBounds (rawBlock 16).cfg 0xFF1 16 ∧
      InBounds (rawBlock 16).cfg 0x10F 16 ∧ Overlap 0x100 16 0x10F 16) := by
  unfold blockLength blockIsStream; decide +kernel

/-- A state that meets the invariant with written memory and a pending `BLKDEC`, whose step moves the cursors. -/
theorem witness_EveryStepKeepsTheInvariant :
    ((rawBlock 40).withFetchWord 32 0x41).Inv ∧
      after (fun t => t.outlen == 16 && t.cmd == 0x41) (step ((rawBlock 40).withFetchWord 32 0x41)) = true := by
  refine ⟨⟨by decide +kernel, by decide +kernel, by decide, by decide, ?_, by decide⟩, by decide +kernel⟩
  exact Or.inr ⟨rfl, rfl⟩
theorem witness_CodesAreThoseTheTableLists :
    exec .rdbe2 (codec 0xFFF 0 0) = .next ((codec 0xFFF 0 0).faulted .bounds) := rfl
theorem witness_StickyRemembersEveryFault :
    after (fun t => t.status.code == .infTrunc && t.status.sticky) (exec .inflate rig) = true ∧
      Instr.inflate ≠ .srst := by decide +kernel
/-- A pre-check of each kind of command, the two `ERR_CRYPTO_PLATFORM`, and a stream error. -/
theorem witness_FaultsArePrecise :
    (after (fun t => t.status.code == .bounds) (exec .rdbe2 (codec 0xFFF 0 0))
      && after (fun t => t.status.code == .overlap) (exec .tocdec (ranges 0x100 0x10F 16))
      && after (fun t => t.status.code == .cryptoPlatform) (exec .sngenc (toEncrypt .unknown .mac))
      && after (fun t => t.status.code == .cryptoPlatform)
        (exec .sngdec ((boxed cpc 0x200).writeBytes 0x11C [0xD6]))
      && after (fun t => t.status.code == .infTrunc) (exec .inflate rig)) = true := by decide +kernel
theorem witness_CommandsWriteOnlyTheirRange :
    after (fun t => decide (¬ ((writeRange .wrbe2 (codec 0 0xFFE 1) t).1 ≤ 0xFFD)))
      (exec .wrbe2 (codec 0 0xFFE 1)) = true := by decide +kernel
theorem witness_CommandsReadOnlyTheirRanges :
    rig.writeBytes 2 [1] = { rig with mem := (rig.writeBytes 2 [1]).mem } ∧
    (∀ r ∈ readRanges .rdbe2 rig, ∀ a, inRange r a → (rig.writeBytes 2 [1]).byteAt a = rig.byteAt a) ∧
    after (fun _ => true) (exec .rdbe2 rig) = true ∧
    after (fun _ => true) (exec .rdbe2 (rig.writeBytes 2 [1])) = true := by
  refine ⟨rfl, ?_, by decide +kernel, by decide +kernel⟩
  intro r hr a ha
  rw [List.mem_singleton.mp hr] at ha
  obtain rfl | rfl : a = 0 ∨ a = 1 := by
    have h := ha.2
    have e : (rig.src.toNat, 2).1 + (rig.src.toNat, 2).2 = 2 := rfl
    omega
  · rfl
  · rfl
/-- For each register, a listed command that does write it. -/
theorem witness_RegistersKeepTheirWriters :
    (after (fun t => decide (t.src ≠ rig.src)) (exec .rdbe2 rig)
      && after (fun t => decide (t.dst ≠ rig.dst)) (exec .wrbe2 rig)
      && after (fun t => decide (t.xlen ≠ (rawBlock 40).xlen)) (exec .blkdec (rawBlock 40))
      && after (fun t => decide (t.val ≠ rig.val)) (exec .ztype rig)
      && after (fun t => decide (t.iv ≠ rig.iv)) (exec .ivinc rig)
      && after (fun t => decide (t.ectx.enc ≠ rig.ectx.enc)) (exec .sngdet (boxed cpc 0))
      && after (fun t => decide (t.outlen ≠ rig.outlen)) (exec .blkdec (rawBlock 40))) = true ∧
    after (fun t => decide (t.ectx.plat ≠ rig.ectx.plat)) (exec .sngprobe (boxed cpc 0)) = true := by
  decide +kernel

end Sys2Proof.Tests
end

section
/-! SUPPORT. The host's side of the engine: what every command leaves as the host left it, and what one host action does
to the queue and the parameters (spec/00_scope.md R3, spec/20_memory.md R73, spec/10_state.md R43). -/

namespace Sys2Proof.Machine

/-! ### What a command leaves alone -/

/-- The fields that belong to the host and the board, and that no command but `SRST` touches: the command word, the
parameters, the number of power-ons, the queue and the last reply. -/
def State.hostSide (s : State) : Word × Config × Nat × List HostAction × HostReply :=
  (s.cmd, s.cfg, s.draw, s.inputs, s.reply)

theorem codecRead_hostSide (value : List Byte → Nat) (w : Nat) (s : State) :
    (codecRead value w s).hostSide = s.hostSide := by
  obtain ⟨-, h⟩ | ⟨-, h⟩ := codecRead_spec value w s <;> rw [h] <;> rfl

theorem codecWrite_hostSide (layout : Nat → Nat → List Byte) (w : Nat) (s : State) :
    (codecWrite layout w s).hostSide = s.hostSide := by
  obtain ⟨-, h⟩ | ⟨-, -, h⟩ | ⟨-, -, h⟩ := codecWrite_spec layout w s <;> rw [h] <;> rfl

theorem counterCommand_hostSide (k : Key) (s : State) : (counterCommand k s).hostSide = s.hostSide := by
  obtain ⟨-, h⟩ | ⟨-, h⟩ | ⟨-, h⟩ := counterCommand_spec k s <;> rw [h] <;> rfl

theorem tocCommand_hostSide (dir : CfbDir) (s : State) : (tocCommand dir s).hostSide = s.hostSide := by
  obtain ⟨-, h⟩ | ⟨-, h⟩ | ⟨-, h⟩ := tocCommand_spec dir s <;> rw [h] <;> rfl

theorem sngEncrypt_hostSide (p : KeySel) (s : State) : (sngEncrypt p s).hostSide = s.hostSide := by
  obtain ⟨-, h⟩ | ⟨-, -, h⟩ | ⟨-, -, -, h⟩ | ⟨-, -, -, h⟩ := sngEncrypt_spec p s <;> rw [h] <;> rfl

theorem compressedBlock_hostSide (s : State) (n : Nat) : (compressedBlock s n).hostSide = s.hostSide := by
  obtain ⟨-, h⟩ | ⟨-, -, h⟩ | ⟨-, -, ⟨_, _, -, h⟩ | ⟨_, _, -, h⟩⟩ := compressedBlock_spec s n <;> rw [h] <;> rfl

theorem verbatimBlock_hostSide (s : State) (n : Nat) : (verbatimBlock s n).hostSide = s.hostSide := by
  obtain ⟨-, h⟩ | ⟨-, -, h⟩ | ⟨-, -, -, h⟩ | ⟨-, -, -, h⟩ := verbatimBlock_spec s n <;> rw [h] <;> rfl

/-- Every command but `SRST` completes, in a state with the same host's side. -/
theorem exec_keeps_hostSide (i : Instr) (hi : i ≠ .srst) (s : State) :
    ∃ t, exec i s = .next t ∧ t.hostSide = s.hostSide := by
  cases i with
  | srst => exact absurd rfl hi
  | rdbe2 | rdbe3 | rdbe4 | rdbe5 | rdle4 => exact ⟨_, rfl, codecRead_hostSide ..⟩
  | wrbe2 | wrbe3 | wrbe4 | wrbe5 | wrle4 => exact ⟨_, rfl, codecWrite_hostSide ..⟩
  | ztype | ivinc => exact ⟨_, rfl, rfl⟩
  | ctrdecPc | ctrdecMac | ctrencPc | ctrencMac => exact ⟨_, rfl, counterCommand_hostSide ..⟩
  | tocdec | tocenc => exact ⟨_, rfl, tocCommand_hostSide ..⟩
  | ivld => obtain ⟨-, h⟩ | ⟨-, h⟩ := execIvld_spec s <;> exact ⟨_, h, rfl⟩
  | sngdet => obtain ⟨-, h⟩ | ⟨-, h⟩ := execSngdet_spec s <;> exact ⟨_, h, rfl⟩
  | sngprobe => obtain ⟨-, h⟩ | ⟨-, -, h⟩ | ⟨-, -, h⟩ := execSngprobe_spec s <;> exact ⟨_, h, rfl⟩
  | sngdec =>
    obtain ⟨-, h⟩ | ⟨-, -, h⟩ | ⟨-, -, -, h⟩ | ⟨-, -, -, -, h⟩ | ⟨-, -, -, -, -, h⟩ | ⟨-, -, h⟩ |
      ⟨-, _, _, -, -, h⟩ := execSngdec_spec s <;> exact ⟨_, h, rfl⟩
  | sngenc =>
    obtain ⟨-, h⟩ | ⟨-, -, -, h⟩ | ⟨k, -, h⟩ := execSngenc_spec s
    · exact ⟨_, h, rfl⟩
    · exact ⟨_, h, rfl⟩
    · exact ⟨_, h, sngEncrypt_hostSide k s.beginData⟩
  | inflate =>
    obtain ⟨-, h⟩ | ⟨-, -, h⟩ | ⟨-, -, ⟨_, _, -, h⟩ | ⟨_, _, -, h⟩⟩ := execInflate_spec s <;> exact ⟨_, h, rfl⟩
  | blkdec =>
    obtain ⟨-, h⟩ | ⟨-, -, h⟩ | ⟨-, -, -, h⟩ | ⟨-, -, -, h⟩ :=
      execBlkdec_spec s _ ((blockLength_iff s _).mpr rfl)
    · exact ⟨_, h, rfl⟩
    · exact ⟨_, h, rfl⟩
    · exact ⟨_, h, compressedBlock_hostSide s.beginData _⟩
    · exact ⟨_, h, verbatimBlock_hostSide s.beginData _⟩

/-! ### What a host action does to the queue and the parameters -/

/-- `t` has the pending actions and the parameters of `s`. -/
structure SameQueueAndParams (s t : State) : Prop where
  inputs : t.inputs = s.inputs
  cfg : t.cfg = s.cfg

theorem SameQueueAndParams.trans {s t u : State} (hst : SameQueueAndParams s t) (htu : SameQueueAndParams t u) :
    SameQueueAndParams s u :=
  ⟨htu.inputs.trans hst.inputs, htu.cfg.trans hst.cfg⟩

theorem SameQueueAndParams.of_hostSide {s t : State} (h : t.hostSide = s.hostSide) : SameQueueAndParams s t := by
  simp only [State.hostSide, Prod.mk.injEq] at h
  obtain ⟨-, hcfg, -, hinputs, -⟩ := h
  exact ⟨hinputs, hcfg⟩

/-- A command takes no action from the queue and changes no parameter; `SRST` resets registers only
(spec/45_system.md R300). -/
theorem exec_sameQueueAndParams {i : Instr} {s t : State} (h : exec i s = .next t) : SameQueueAndParams s t := by
  by_cases hi : i = .srst
  · subst hi
    obtain rfl : s.resetRegisters = t := Host.Outcome.next.inj h
    exact ⟨rfl, rfl⟩
  · obtain ⟨u, hu, hside⟩ := exec_keeps_hostSide i hi s
    obtain rfl : u = t := Host.Outcome.next.inj (hu.symm.trans h)
    exact .of_hostSide hside

theorem reply_sameQueueAndParams (s : State) (r : HostReply) : SameQueueAndParams s { s with reply := r } :=
  ⟨rfl, rfl⟩

theorem writeReg_sameQueueAndParams (s : State) (w : Word) (r : Reg) : SameQueueAndParams s (s.writeReg w r) := by
  cases r <;> exact ⟨rfl, rfl⟩

/-- A write of `CMD` that answers ran the decoded command, or raised `ERR_ILLEGAL_CMD` (spec/30_encoding.md R90,
R98). -/
theorem runCommand_next {w : Word} {s t : State} (h : runCommand w s = .next t) :
    (∃ i, decode w = .ok i ∧ exec i (s.writeReg w .cmd) = .next t) ∨ t = (s.writeReg w .cmd).raise .illegalCmd := by
  unfold runCommand at h
  cases hd : decode w with
  | ok i => exact .inl ⟨i, rfl, by simpa only [hd] using h⟩
  | error e => exact .inr (by simpa only [hd, Host.Outcome.next.injEq, eq_comm] using h)

theorem runCommand_sameQueueAndParams {w : Word} {s t : State} (h : runCommand w s = .next t) :
    SameQueueAndParams s t := by
  obtain ⟨i, -, hi⟩ | rfl := runCommand_next h
  · exact (writeReg_sameQueueAndParams s w .cmd).trans (exec_sameQueueAndParams hi)
  · exact ⟨rfl, rfl⟩

/-- A window access that answers was performed at its `MEM` address. -/
theorem windowAccess_next {s t : State} {off n : Nat} {k : Nat → Host.Outcome State Fault Refusal}
    (h : windowAccess s off n k = .next t) : k (off - s.cfg.memBase) = .next t := by
  unfold windowAccess at h
  split at h
  · cases h
  · split at h
    · cases h
    · exact h

/-- A word read that answers writes the reply and nothing else (spec/10_state.md R39). -/
theorem hostReadWord_next {off : Nat} {s t : State} (h : hostReadWord off s = .next t) :
    ∃ w, t = { s with reply := .word w } := by
  unfold hostReadWord at h
  split at h
  · exact ⟨_, (Host.Outcome.next.inj (windowAccess_next h)).symm⟩
  · split at h
    · cases h
    · split at h <;> exact ⟨_, (Host.Outcome.next.inj h).symm⟩

/-- A word write that answers stored bytes in the window, ran a command, stored a register, or hit a reserved offset
(spec/10_state.md R30, R38 to R40). -/
theorem hostWriteWord_next {off : Nat} {w : Word} {s t : State} (h : hostWriteWord off w s = .next t) :
    (∃ a bs, t = State.writeBytes { s with reply := .none } a bs) ∨
    runCommand w { s with reply := .none } = .next t ∨
    (∃ r, t = State.writeReg { s with reply := .none } w r) ∨
    t = { s with reply := .none } := by
  unfold hostWriteWord at h
  dsimp only at h
  split at h
  · exact .inl ⟨_, _, (Host.Outcome.next.inj (windowAccess_next h)).symm⟩
  · split at h
    · cases h
    · split at h
      · exact .inr (.inl h)
      · exact .inr (.inr (.inl ⟨_, (Host.Outcome.next.inj h).symm⟩))
      · exact .inr (.inr (.inr (Host.Outcome.next.inj h).symm))

/-- One host action (spec/00_scope.md R3) leaves the actions behind it in the queue, and the parameters. -/
theorem hostStep_sameQueueAndParams {a : HostAction} {s t : State} (h : hostStep a s = .next t) :
    SameQueueAndParams s t := by
  cases a with
  | readWord off =>
    obtain ⟨w, rfl⟩ := hostReadWord_next h
    exact reply_sameQueueAndParams s _
  | writeWord off w =>
    obtain ⟨a, bs, rfl⟩ | hrun | ⟨r, rfl⟩ | rfl := hostWriteWord_next h
    · exact ⟨rfl, rfl⟩
    · exact (reply_sameQueueAndParams s .none).trans (runCommand_sameQueueAndParams hrun)
    · exact (reply_sameQueueAndParams s .none).trans (writeReg_sameQueueAndParams _ w r)
    · exact reply_sameQueueAndParams s _
  | readBytes off n =>
    rw [hostStep] at h
    obtain rfl := Host.Outcome.next.inj (windowAccess_next h)
    exact reply_sameQueueAndParams s _
  | writeBytes off bs =>
    rw [hostStep] at h
    obtain rfl := Host.Outcome.next.inj (windowAccess_next h)
    exact ⟨rfl, rfl⟩
  | powerOn =>
    obtain rfl := Host.Outcome.next.inj h
    exact ⟨rfl, rfl⟩

/-- Settles O7: the step removes the oldest action, and the action itself leaves queue and parameters as they are. -/
theorem stepTakesOneHostAction : Obligations.StepTakesOneHostAction := by
  intro s t h
  unfold step at h
  split at h
  next hin =>
    obtain rfl := Host.Outcome.next.inj h
    exact ⟨by rw [hin]; rfl, rfl⟩
  next a rest hin =>
    obtain ⟨hinputs, hcfg⟩ := hostStep_sameQueueAndParams h
    exact ⟨by rw [hin]; exact hinputs, hcfg⟩

end Sys2Proof.Machine
end

section
/-! SUPPORT. The register map as the host sees it (spec/10_state.md R38 to R40): every offset of the map, every
reserved offset, and what a word of the map is in terms of its fields. -/

namespace Sys2Proof.Machine

/-! ### The register map -/

/-- A mapped offset is one of the map's entries: word-aligned and below 0x48 (spec/10_state.md R38). -/
theorem registerMap_lookup_low {off : Nat} {r : Reg} (hr : registerMap.lookup off = some r) :
    off < 0x48 ∧ off % 4 = 0 := by
  have hall : ∀ p ∈ registerMap, p.1 < 0x48 ∧ p.1 % 4 = 0 := by decide
  obtain ⟨l₁, l₂, hmap, -⟩ := List.lookup_eq_some_iff.mp hr
  exact hall (off, r) (by rw [hmap]; simp)

/-- No register stands at 0x48 or beyond (spec/10_state.md R40). -/
theorem registerMap_lookup_reserved {off : Nat} (h : 0x48 ≤ off) : registerMap.lookup off = none := by
  cases hr : registerMap.lookup off with
  | none => rfl
  | some r => exact absurd (registerMap_lookup_low hr).1 (Nat.not_lt.mpr h)

/-- A pending word read at a register's offset answers the register (spec/10_state.md R38, R39). -/
theorem step_readWord_mapped {s : State} {off : Nat} {r : Reg} {rest : List HostAction}
    (h : s.inputs = .readWord off :: rest) (hr : registerMap.lookup off = some r) :
    step s = .next { s with inputs := rest, reply := .word (s.readReg r) } := by
  obtain ⟨hlow, hal⟩ := registerMap_lookup_low hr
  rw [step_readWord_low s off rest h (low_of_lt (by omega)) hal, hr]

/-- A pending word write at the offset of a register other than `CMD` does what the register's rule says
(spec/10_state.md R38, R39). -/
theorem step_writeWord_mapped {s : State} {off : Nat} {w : Word} {r : Reg} {rest : List HostAction}
    (h : s.inputs = .writeWord off w :: rest) (hr : registerMap.lookup off = some r) (hcmd : r ≠ .cmd) :
    step s = .next (State.writeReg { s with inputs := rest, reply := .none } w r) := by
  obtain ⟨hlow, hal⟩ := registerMap_lookup_low hr
  exact step_writeWord_register s off w r rest h (low_of_lt (by omega)) hal hr hcmd

/-- Settles O8: `step_readWord_mapped` at each offset of the map. -/
theorem registerReadHasNoSideEffect : Obligations.RegisterReadHasNoSideEffect := by
  intro s off rest h answers
  have reads {k : Nat} (r : Reg) (hr : registerMap.lookup k = some r) : off = k → answers (s.readReg r) := by
    rintro rfl
    exact step_readWord_mapped h hr
  exact ⟨reads .cmd rfl, reads .status rfl, reads .src rfl, reads .dst rfl, reads .len rfl, reads .xlen rfl,
    reads .outlen rfl, reads .inlen rfl, reads .valLo rfl, reads .valHi rfl, reads .bsize rfl, reads .ectx rfl,
    reads .iv0 rfl, reads .iv1 rfl, reads .iv2 rfl, reads .iv3 rfl, reads .id rfl, reads .memsz rfl⟩

/-- Settles O9: `step_writeWord_mapped` at each offset the statement names. -/
theorem plainRegisterWrites : Obligations.PlainRegisterWrites := by
  intro s w rest off h u
  have writes {k : Nat} (r : Reg) (hr : registerMap.lookup k = some r) (hcmd : r ≠ .cmd) :
      off = k → step s = .next (u.writeReg w r) := by
    rintro rfl
    exact step_writeWord_mapped h hr hcmd
  refine ⟨writes .src rfl nofun, writes .dst rfl nofun, writes .len rfl nofun, writes .xlen rfl nofun,
    writes .bsize rfl nofun, ?_⟩
  rintro (hoff | hoff | hoff | hoff)
  · exact writes .outlen rfl nofun hoff
  · exact writes .inlen rfl nofun hoff
  · exact writes .id rfl nofun hoff
  · exact writes .memsz rfl nofun hoff

/-! ### Reserved offsets and refused accesses -/

/-- A pending word write below the window at an aligned offset without a register changes nothing (spec/10_state.md
R40). -/
theorem step_writeWord_reserved {s : State} {off : Nat} {w : Word} {rest : List HostAction}
    (h : s.inputs = .writeWord off w :: rest) (hlow : off < s.cfg.memBase) (hal : off % 4 = 0)
    (hr : registerMap.lookup off = none) :
    step s = .next { s with inputs := rest, reply := .none } := by
  simp only [step, h, hostStep, hostWriteWord]
  rw [if_neg (Nat.not_le.mpr hlow), if_neg (not_not.mpr hal), hr]

/-- Settles O14: no register stands at a reserved offset. -/
theorem reservedOffsetsReadZero : Obligations.ReservedOffsetsReadZero := by
  intro s off w rest hge hlow hal
  have hr := registerMap_lookup_reserved hge
  refine ⟨fun h => ?_, fun h => step_writeWord_reserved h hlow hal hr⟩
  rw [step_readWord_low s off rest h hlow hal, hr]

/-- A misaligned word read below the window is refused (spec/10_state.md R39, U9). -/
theorem hostReadWord_misaligned {s : State} {off : Nat} (hlow : off < s.cfg.memBase) (hal : off % 4 ≠ 0) :
    hostReadWord off s = .refused (.hostNarrowOrMisaligned off) := by
  rw [hostReadWord, if_neg (Nat.not_le.mpr hlow), if_pos hal]

/-- A misaligned word write below the window is refused (spec/10_state.md R39, U9). -/
theorem hostWriteWord_misaligned {s : State} {off : Nat} (w : Word) (hlow : off < s.cfg.memBase)
    (hal : off % 4 ≠ 0) : hostWriteWord off w s = .refused (.hostNarrowOrMisaligned off) := by
  dsimp only [hostWriteWord]
  rw [if_neg (Nat.not_le.mpr hlow), if_pos hal]

/-- A word read that begins in the window or beyond and ends beyond it is refused (spec/10_state.md R40, U10). -/
theorem hostReadWord_beyond {s : State} {off : Nat} (hge : s.cfg.memBase ≤ off)
    (hend : s.cfg.memBase + s.cfg.memSize < off + 4) : hostReadWord off s = .refused (.hostBeyondWindow off) := by
  rw [hostReadWord, if_pos hge, windowAccess_beyond s off 4 _ hge hend]

/-- A word write that begins in the window or beyond and ends beyond it is refused (spec/10_state.md R40, U10). -/
theorem hostWriteWord_beyond {s : State} {off : Nat} (w : Word) (hge : s.cfg.memBase ≤ off)
    (hend : s.cfg.memBase + s.cfg.memSize < off + 4) : hostWriteWord off w s = .refused (.hostBeyondWindow off) := by
  dsimp only [hostWriteWord]
  rw [if_pos hge, windowAccess_beyond { s with reply := .none } off 4 _ hge hend]

/-- A step with a pending action performs that action. -/
theorem step_pending {s : State} {a : HostAction} {rest : List HostAction} (h : s.inputs = a :: rest) :
    step s = hostStep a { s with inputs := rest } := by
  rw [step, h]

/-- Settles O15: each access is refused before anything is done. -/
theorem accessOutsideTheBusDomainIsRefused : Obligations.AccessOutsideTheBusDomainIsRefused := by
  intro s off n w bs rest
  refine ⟨fun hlow hal => ⟨fun h => ?_, fun h => ?_⟩, fun hlow => ⟨fun h => ?_, fun h => ?_⟩,
    fun hge hend => ⟨fun h => ?_, fun h => ?_⟩, fun hge => ⟨fun hend h => ?_, fun hend h => ?_⟩⟩ <;>
    rw [step_pending h, hostStep]
  · exact hostReadWord_misaligned hlow hal
  · exact hostWriteWord_misaligned w hlow hal
  · exact windowAccess_below { s with inputs := rest } off n _ hlow
  · exact windowAccess_below { s with inputs := rest } off bs.length _ hlow
  · exact hostReadWord_beyond hge hend
  · exact hostWriteWord_beyond w hge hend
  · exact windowAccess_beyond { s with inputs := rest } off n _ hge hend
  · exact windowAccess_beyond { s with inputs := rest } off bs.length _ hge hend

/-! ### `STATUS` and `ECTX`, bit by bit -/

/-- The bits of `STATUS` as a bus word: `CODE` 7:0, `SIZEMIS` 8, `STICKY` 9, the rest 0 (spec/10_state.md R31). -/
theorem Status.toWord_getLsbD (st : Status) (i : Nat) :
    st.toWord.getLsbD i =
      if i < 8 then st.code.toByte.getLsbD i else if i = 8 then st.sizeMis else if i = 9 then st.sticky else false := by
  simp only [Status.toWord, BitVec.getLsbD_or, BitVec.getLsbD_shiftLeft, BitVec.getLsbD_setWidth,
    BitVec.getLsbD_ofBool]
  by_cases hcode : i < 8
  · simp [hcode, show i < 32 by omega, show i < 9 by omega]
  · have hzero : st.code.toByte.getLsbD i = false := BitVec.getLsbD_of_ge _ _ (by omega)
    rcases Nat.lt_trichotomy i 9 with h | rfl | h
    · obtain rfl : i = 8 := by omega
      simp
    · simp
    · simp [hcode, hzero, show ¬ i - 8 = 0 by omega, show ¬ i - 9 = 0 by omega, show ¬ i = 8 by omega,
        show ¬ i = 9 by omega]

/-- The fields of `STATUS` as a bus word (spec/10_state.md R31). -/
theorem Status.toWord_fields (st : Status) :
    st.toWord.extractLsb' 0 8 = st.code.toByte ∧ st.toWord.getLsbD 8 = st.sizeMis ∧
      st.toWord.getLsbD 9 = st.sticky ∧ st.toWord.extractLsb' 10 22 = 0 := by
  refine ⟨?_, Status.toWord_getLsbD st 8, Status.toWord_getLsbD st 9, ?_⟩
  · refine BitVec.eq_of_getLsbD_eq fun i hi => ?_
    rw [BitVec.getLsbD_extractLsb', Status.toWord_getLsbD, Nat.zero_add, if_pos hi, decide_eq_true hi, Bool.true_and]
  · refine BitVec.eq_of_getLsbD_eq fun i _ => ?_
    rw [BitVec.getLsbD_extractLsb', Status.toWord_getLsbD, if_neg (by omega), if_neg (by omega), if_neg (by omega)]
    simp

/-- Settles O10: the write rule of `STATUS`, and the fields of its bus word. -/
theorem statusWriteClearsStickyOnly : Obligations.StatusWriteClearsStickyOnly := by
  intro s w rest
  exact ⟨fun h => step_writeWord_mapped (r := .status) h rfl nofun,
    fun h => ⟨s.status.toWord, step_readWord_mapped (r := .status) h rfl, s.status.toWord_fields⟩⟩

/-- The bits of `ECTX` as a bus word: `PLAT` 1:0, `TPLAT` 5:4, `ENC` 8, the rest 0 (spec/10_state.md R32). -/
theorem Ectx.toWord_getLsbD (e : Ectx) (i : Nat) :
    e.toWord.getLsbD i =
      if i < 4 then e.plat.toBits.getLsbD i else if i < 8 then e.tplat.toBits.getLsbD (i - 4)
      else if i = 8 then e.enc else false := by
  simp only [Ectx.toWord, BitVec.getLsbD_or, BitVec.getLsbD_shiftLeft, BitVec.getLsbD_setWidth,
    BitVec.getLsbD_ofBool]
  by_cases hplat : i < 4
  · simp [hplat, show i < 8 by omega, show i < 32 by omega]
  · have hzero : e.plat.toBits.getLsbD i = false := BitVec.getLsbD_of_ge _ _ (by omega)
    by_cases htplat : i < 8
    · simp [hplat, hzero, htplat, show i < 32 by omega, show i - 4 < 32 by omega]
    · have hzero' : e.tplat.toBits.getLsbD (i - 4) = false := BitVec.getLsbD_of_ge _ _ (by omega)
      by_cases henc : i = 8
      · simp [henc]
      · simp [hplat, htplat, henc, hzero, hzero', show ¬ i - 8 = 0 by omega]

/-- The fields of `ECTX` as a bus word, the reserved bits between them 0 (spec/10_state.md R32). -/
theorem Ectx.toWord_fields (e : Ectx) :
    e.toWord.extractLsb' 0 2 = e.plat.toBits ∧ e.toWord.extractLsb' 2 2 = 0 ∧
      e.toWord.extractLsb' 4 2 = e.tplat.toBits ∧ e.toWord.extractLsb' 6 2 = 0 ∧
      e.toWord.getLsbD 8 = e.enc ∧ e.toWord.extractLsb' 9 23 = 0 := by
  refine ⟨?_, ?_, ?_, ?_, Ectx.toWord_getLsbD e 8, ?_⟩ <;> refine BitVec.eq_of_getLsbD_eq fun i hi => ?_ <;>
    rw [BitVec.getLsbD_extractLsb', Ectx.toWord_getLsbD, decide_eq_true hi, Bool.true_and]
  · rw [if_pos (by omega), Nat.zero_add]
  · rw [if_pos (by omega), BitVec.getLsbD_of_ge _ _ (by omega)]
    simp
  · rw [if_neg (by omega), if_pos (by omega), Nat.add_sub_cancel_left]
  · rw [if_neg (by omega), if_pos (by omega), BitVec.getLsbD_of_ge _ _ (by omega)]
    simp
  · rw [if_neg (by omega), if_neg (by omega), if_neg (by omega)]
    simp

/-- Settles O11: the fields of the bus word of `ECTX`, and `Ectx.ofWord` on a write. -/
theorem ectxStoresDefinedFieldsOnly : Obligations.EctxStoresDefinedFieldsOnly := by
  intro s w rest
  refine ⟨fun h => ?_, fun h => ⟨_, step_writeWord_mapped (r := .ectx) h rfl nofun, rfl, rfl, rfl, rfl⟩⟩
  refine ⟨s.ectx.toWord, step_readWord_mapped (r := .ectx) h rfl, ?_⟩
  obtain ⟨hplat, hgap, htplat, hgap', henc, hhigh⟩ := s.ectx.toWord_fields
  refine ⟨hplat.trans ?_, hgap, htplat.trans ?_, hgap', henc, hhigh⟩
  · cases s.ectx.plat <;> rfl
  · cases s.ectx.tplat <;> rfl

/-! ### The halves of `VAL` -/

/-- `VALLO` is `VAL` modulo `2^32` (spec/10_state.md R27). -/
theorem readReg_valLo_toNat (s : State) : (s.readReg .valLo).toNat = s.val.toNat % 2 ^ 32 := by
  rw [State.readReg, BitVec.extractLsb'_toNat, Nat.shiftRight_zero]

/-- `VALHI` is the rest of `VAL`, its own upper bits 0 (spec/10_state.md R27). -/
theorem readReg_valHi_toNat (s : State) : (s.readReg .valHi).toNat = s.val.toNat / 2 ^ 32 := by
  have hval := s.val.isLt
  rw [State.readReg, BitVec.toNat_setWidth, BitVec.extractLsb'_toNat, Nat.shiftRight_eq_div_pow]
  omega

/-- The value of two parts put together. -/
theorem toNat_append_eq_add {m n : Nat} (x : BitVec m) (y : BitVec n) :
    (x ++ y).toNat = x.toNat * 2 ^ n + y.toNat := by
  rw [BitVec.toNat_append, ← Nat.shiftLeft_add_eq_or_of_lt y.isLt, Nat.shiftLeft_eq]

/-- A write of `VALLO` keeps bits 39:32 of `VAL` (spec/10_state.md R27). -/
theorem writeReg_valLo_toNat (s : State) (w : Word) :
    (s.writeReg w .valLo).val.toNat = s.val.toNat / 2 ^ 32 * 2 ^ 32 + w.toNat := by
  have hval := s.val.isLt
  rw [State.writeReg, toNat_append_eq_add, BitVec.extractLsb'_toNat, Nat.shiftRight_eq_div_pow]
  omega

/-- A write of `VALHI` takes the low byte of the word and keeps bits 31:0 of `VAL` (spec/10_state.md R27). -/
theorem writeReg_valHi_toNat (s : State) (w : Word) :
    (s.writeReg w .valHi).val.toNat = w.toNat % 256 * 2 ^ 32 + s.val.toNat % 2 ^ 32 := by
  rw [State.writeReg, toNat_append_eq_add, BitVec.extractLsb'_toNat, BitVec.extractLsb'_toNat, Nat.shiftRight_zero,
    Nat.shiftRight_zero]

/-- Settles O13: the values of the two halves, read and written. -/
theorem valHalves : Obligations.ValHalves := by
  intro s w rest
  exact ⟨fun h => ⟨_, step_readWord_mapped (r := .valLo) h rfl, readReg_valLo_toNat s⟩,
    fun h => ⟨_, step_readWord_mapped (r := .valHi) h rfl, readReg_valHi_toNat s⟩,
    fun h => ⟨_, step_writeWord_mapped (r := .valLo) h rfl nofun, writeReg_valLo_toNat _ w, rfl⟩,
    fun h => ⟨_, step_writeWord_mapped (r := .valHi) h rfl nofun, writeReg_valHi_toNat _ w, rfl⟩⟩

/-! ### The words of `IV` -/

/-- Byte `m` of a bit vector, counted from its least significant one, cut out of its value or of its bits. -/
theorem ofNat_div_eq_extractLsb' {n : Nat} (x : BitVec n) (m : Nat) :
    BitVec.ofNat 8 (x.toNat / 256 ^ m) = x.extractLsb' (8 * m) 8 := by
  apply BitVec.eq_of_toNat_eq
  rw [BitVec.toNat_ofNat, BitVec.extractLsb'_toNat, Nat.shiftRight_eq_div_pow, Nat.pow_mul]

/-- Byte `j` of a block is its bits from `120 - 8j` up (spec/10_state.md R35). -/
theorem blockBytes_getElem? (b : Block) (j : Nat) :
    (blockBytes b)[j]? = if j < 16 then some (b.extractLsb' (8 * (15 - j)) 8) else none := by
  rw [blockBytes, toBE_getElem?, ofNat_div_eq_extractLsb']

/-- Byte `j` of a word laid out big-endian is its bits from `24 - 8j` up. -/
theorem toBE_word_getElem? (w : Word) (j : Nat) :
    (toBE w.toNat 4)[j]? = if j < 4 then some (w.extractLsb' (8 * (3 - j)) 8) else none := by
  rw [toBE_getElem?, ofNat_div_eq_extractLsb']

/-- The bits of word `k` of `IV` (spec/10_state.md R35). -/
theorem ivWord_getLsbD (iv : Block) (k i : Nat) :
    (ivWord iv k).getLsbD i = (decide (i < 32) && iv.getLsbD (96 - 32 * k + i)) := by
  rw [ivWord, BitVec.getLsbD_extractLsb']

/-- The bits of `IV` with word `k` replaced: the word's inside its 32 bits, `IV`'s outside (spec/10_state.md R35). -/
theorem ivSetWord_getLsbD {k : Nat} (hk : k < 4) (iv : Block) (w : Word) (i : Nat) :
    (ivSetWord iv k w).getLsbD i =
      if 96 - 32 * k ≤ i ∧ i < 128 - 32 * k then w.getLsbD (i - (96 - 32 * k)) else iv.getLsbD i := by
  have hmask : (0xFFFFFFFF#128) = (BitVec.allOnes 32).setWidth 128 := by decide
  simp only [ivSetWord, hmask, BitVec.getLsbD_or, BitVec.getLsbD_and, BitVec.getLsbD_not, BitVec.getLsbD_shiftLeft,
    BitVec.getLsbD_setWidth, BitVec.getLsbD_allOnes]
  by_cases hi : i < 128
  · by_cases hlow : i < 96 - 32 * k
    · simp [hi, hlow, show ¬ 96 - 32 * k ≤ i by omega]
    · by_cases hhigh : i < 128 - 32 * k
      · simp [hi, hlow, hhigh, show 96 - 32 * k ≤ i by omega, show i - (96 - 32 * k) < 32 by omega,
          show i - (96 - 32 * k) < 128 by omega]
      · have hw : w.getLsbD (i - (96 - 32 * k)) = false := BitVec.getLsbD_of_ge _ _ (by omega)
        simp [hi, hhigh, hw, show ¬ i - (96 - 32 * k) < 32 by omega]
  · rw [if_neg (by omega), BitVec.getLsbD_of_ge iv i (by omega)]
    simp [hi]

/-- The four bytes of `IV` from `4k` on are the bytes of word `k` (spec/10_state.md R35). -/
theorem blockBytes_word {k : Nat} (hk : k < 4) (iv : Block) :
    ((blockBytes iv).drop (4 * k)).take 4 = toBE (ivWord iv k).toNat 4 := by
  apply List.ext_getElem?
  intro j
  rw [toBE_word_getElem?, List.getElem?_take, List.getElem?_drop, blockBytes_getElem?]
  by_cases hj : j < 4
  · rw [if_pos hj, if_pos hj, if_pos (by omega)]
    congr 1
    refine BitVec.eq_of_getLsbD_eq fun i hi => ?_
    rw [BitVec.getLsbD_extractLsb', BitVec.getLsbD_extractLsb', ivWord_getLsbD,
      decide_eq_true (show 8 * (3 - j) + i < 32 by omega), Bool.true_and]
    congr 2
    omega
  · rw [if_neg hj, if_neg hj]

/-- Byte `j` of `IV` with word `k` replaced: a byte of the word from `4k` to `4k+3`, else `IV`'s (spec/10_state.md
R35). -/
theorem ivSetWord_byte {k j : Nat} (hk : k < 4) (hj : j < 16) (iv : Block) (w : Word) :
    (ivSetWord iv k w).extractLsb' (8 * (15 - j)) 8 =
      if 4 * k ≤ j ∧ j < 4 * k + 4 then w.extractLsb' (8 * (3 - (j - 4 * k))) 8
      else iv.extractLsb' (8 * (15 - j)) 8 := by
  refine BitVec.eq_of_getLsbD_eq fun i hi => ?_
  rw [BitVec.getLsbD_extractLsb', ivSetWord_getLsbD hk]
  by_cases hin : 4 * k ≤ j ∧ j < 4 * k + 4
  · rw [if_pos hin, if_pos (by omega), BitVec.getLsbD_extractLsb']
    congr 2
    omega
  · rw [if_neg hin, if_neg (by omega), BitVec.getLsbD_extractLsb']

/-- Replacing word `k` of `IV` replaces its bytes `4k` to `4k+3` (spec/10_state.md R35). -/
theorem blockBytes_ivSetWord {k : Nat} (hk : k < 4) (iv : Block) (w : Word) :
    blockBytes (ivSetWord iv k w)
      = (blockBytes iv).take (4 * k) ++ toBE w.toNat 4 ++ (blockBytes iv).drop (4 * k + 4) := by
  apply List.ext_getElem?
  intro j
  have hlen : (List.take (4 * k) (blockBytes iv)).length = 4 * k := by
    rw [List.length_take, blockBytes_length]
    omega
  rw [List.append_assoc, List.getElem?_append, List.getElem?_append, hlen, toBE_length, List.getElem?_take,
    toBE_word_getElem?, List.getElem?_drop, blockBytes_getElem?, blockBytes_getElem?, blockBytes_getElem?]
  by_cases hj : j < 16
  · rw [ivSetWord_byte hk hj, if_pos hj]
    by_cases hlow : j < 4 * k
    · rw [if_neg (by omega), if_pos hlow, if_pos hlow, if_pos hj]
    · by_cases hhigh : j < 4 * k + 4
      · rw [if_pos (by omega), if_neg hlow, if_pos (by omega), if_pos (by omega)]
      · rw [if_neg (by omega), if_neg hlow, if_neg (by omega), if_pos (by omega),
          show 4 * k + 4 + (j - 4 * k - 4) = j by omega]
  · rw [if_neg hj, if_neg (by omega), if_neg (by omega), if_neg (by omega)]

/-- The offset of `IVk` and the register that stands there (spec/10_state.md R38). -/
theorem registerMap_lookup_iv {k off : Nat} (h : (k, off) ∈ [(0, 0x30), (1, 0x34), (2, 0x38), (3, 0x3C)]) :
    k < 4 ∧ ∃ r, registerMap.lookup off = some r ∧ r ≠ .cmd ∧ (∀ s : State, s.readReg r = ivWord s.iv k) ∧
      ∀ (s : State) (w : Word), s.writeReg w r = { s with iv := ivSetWord s.iv k w } := by
  simp only [List.mem_cons, Prod.mk.injEq, List.not_mem_nil, or_false] at h
  obtain ⟨rfl, rfl⟩ | ⟨rfl, rfl⟩ | ⟨rfl, rfl⟩ | ⟨rfl, rfl⟩ := h
  · exact ⟨by decide, .iv0, rfl, nofun, fun _ => rfl, fun _ _ => rfl⟩
  · exact ⟨by decide, .iv1, rfl, nofun, fun _ => rfl, fun _ _ => rfl⟩
  · exact ⟨by decide, .iv2, rfl, nofun, fun _ => rfl, fun _ _ => rfl⟩
  · exact ⟨by decide, .iv3, rfl, nofun, fun _ => rfl, fun _ _ => rfl⟩

/-- Settles O12: the register at each of the four offsets is word `k` of `IV`, and a word of `IV` is its bytes. -/
theorem ivWordsAreItsBytes : Obligations.IvWordsAreItsBytes := by
  intro s w k off rest hmem
  obtain ⟨hk, r, hr, hcmd, hread, hwrite⟩ := registerMap_lookup_iv hmem
  refine ⟨fun h => ⟨_, step_readWord_mapped h hr, ?_⟩, fun h => ?_⟩
  · rw [hread, blockBytes_word hk, beNat_toBE]
    exact (Nat.mod_eq_of_lt (ivWord s.iv k).isLt).symm
  · refine ⟨{ s with inputs := rest, reply := .none, iv := ivSetWord s.iv k w }, ?_,
      blockBytes_ivSetWord hk s.iv w, rfl⟩
    rw [step_writeWord_mapped h hr hcmd, hwrite]

/-! ### The `MEM` window -/

/-- A byte read as the sequence of the bytes of `MEM` (spec/00_scope.md R12). -/
theorem readBytes_eq_map_range (s : State) (a n : Nat) :
    s.readBytes a n = (List.range n).map fun j => s.byteAt (a + j) :=
  List.ext_getElem (by simp) (by simp)

/-- A write stores its bytes and leaves every other byte (spec/20_memory.md R67). -/
theorem writeBytes_storesAt (s : State) (a : Nat) (bs : List Byte) : storesAt s (s.writeBytes a bs) a bs := by
  refine ⟨fun j hj => ?_, byteAt_writeBytes_outside s a bs⟩
  rw [byteAt_writeBytes, if_pos (by omega), Nat.add_sub_cancel_left]

/-- Bytes just written read back, whatever the queue and the last reply are (spec/20_memory.md R67). -/
theorem readBytes_after_hostWrite (s : State) (a : Nat) (bs : List Byte) (inputs : List HostAction)
    (reply : HostReply) :
    State.readBytes { s.writeBytes a bs with inputs := inputs, reply := reply } a bs.length = bs := by
  refine Eq.trans (readBytes_of_mem ?_ ?_ a bs.length) (readBytes_writeBytes s a bs) <;> rfl

/-- A pending byte read inside the window answers the bytes that stand there (spec/10_state.md R37, R38). -/
theorem step_readBytes_holding {s : State} (a : Nat) (bs : List Byte) {rest : List HostAction}
    (hbytes : s.readBytes a bs.length = bs) (h : s.inputs = .readBytes (s.cfg.memBase + a) bs.length :: rest)
    (ha : a + bs.length ≤ s.cfg.memSize) : step s = .next { s with inputs := rest, reply := .bytes bs } := by
  rw [step_readBytes_window s a bs.length rest h ha, hbytes]

/-- A pending word read inside the window answers the word whose four bytes stand there (spec/10_state.md R37, R38). -/
theorem step_readWord_holding {s : State} (a : Nat) (w : Word) {rest : List HostAction}
    (hbytes : s.readBytes a 4 = windowBytes s.cfg w) (h : s.inputs = .readWord (s.cfg.memBase + a) :: rest)
    (ha : a + 4 ≤ s.cfg.memSize) : step s = .next { s with inputs := rest, reply := .word w } := by
  rw [step_readWord_window s a rest h ha, hbytes, windowWord_windowBytes]

/-- Settles O16: the step lemmas of the window accesses, and what a read gives after a write. -/
theorem windowReadAfterWrite : Obligations.WindowReadAfterWrite := by
  intro s a rest
  refine ⟨fun n ha h => ?_, fun bs ha h => ?_, fun ha h => ?_, fun w ha h => ?_⟩
  · rw [← readBytes_eq_map_range]
    exact step_readBytes_window s a n rest h ha
  · exact ⟨_, _, step_writeBytes_window s a bs _ h ha,
      step_readBytes_holding a bs (readBytes_after_hostWrite s a bs _ _) rfl ha,
      writeBytes_storesAt s a bs, rfl, rfl⟩
  · refine ⟨_, step_readWord_window s a rest h ha, ?_⟩
    rw [← readBytes_eq_map_range]
    exact (windowBytes_windowWord s.cfg _ (readBytes_length s a 4)).symm
  · have hlen := windowBytes_length s.cfg w
    exact ⟨_, _, step_writeWord_window s a w _ h ha,
      step_readWord_holding a w (hlen ▸ readBytes_after_hostWrite s a (windowBytes s.cfg w) _ _) rfl ha,
      writeBytes_storesAt s a (windowBytes s.cfg w), rfl, rfl⟩

/-! ### Reset -/

/-- Settles O17: each register at its reset value; `MEM` holds no written byte. -/
theorem resetRegisterValues : Obligations.ResetRegisterValues := by
  intro c n r
  refine ⟨?_, fun a => rfl⟩
  cases r with
  | status | valHi | ectx | iv0 | iv1 | iv2 | iv3 =>
    dsimp only [State.readReg, State.resetWith]
    decide
  | _ => rfl

/-- The word 0 is no command, and `OK` stands beside it after a reset (spec/10_state.md R30, R42). -/
theorem codeFits_zero_ok : codeFits 0 .ok := by
  have hdec : decode 0 = .error (.unknownOpcode 0) := by decide
  rw [codeFits, hdec]
  exact .inr ⟨rfl, rfl⟩

/-- Settles O51: `MEM` holds no written byte, the lengths are 0, and `CODE` is `OK` beside the 0 in `CMD`, which is no
command's word. -/
theorem resetMeetsTheInvariant : Obligations.ResetMeetsTheInvariant := by
  intro c n
  exact
    { memWf := List.Pairwise.nil
      memWithin := nofun
      outlenLe := Nat.zero_le _
      inlenLe := Nat.zero_le _
      codeFits := codeFits_zero_ok
      sizeMis := nofun }

end Sys2Proof.Machine
end

section
/-! SUPPORT. What a command can do to the machine, said once for every command: the bytes it stores, the two lengths and
the status it leaves (spec/20_memory.md R61, R66, R78; spec/10_state.md R25, R26, R31; spec/60_exceptions.md R311). -/

namespace Sys2Proof.Machine

/-! ### What `Inflate` emits and uses -/

/-- The decoder has emitted no more than `xlen` bytes, and has fetched the bytes of its `n` that are no longer in its
input (spec/44_inflate.md R242, R243). -/
def Inflater.InLimits (n xlen : Nat) (d : Inflater) : Prop :=
  d.limit = xlen ∧ d.out.length ≤ xlen ∧ d.pos + d.input.length = n

theorem primitivesKeep_inLimits (n xlen : Nat) : PrimitivesKeep (Inflater.InLimits n xlen) := by
  refine PrimitivesKeep.of_buffer (fun d hd => ?_) (fun _ _ _ hd => hd) (fun b d hd => ?_)
  · obtain ⟨hlim, hout, hpos⟩ := hd
    unfold nextByte
    split
    · exact ⟨hlim, hout, hpos⟩
    · next b rest hin =>
      rw [hin, List.length_cons] at hpos
      exact ⟨hlim, hout, by simp only [decoderAfter]; omega⟩
  · obtain ⟨hlim, hout, hpos⟩ := hd
    unfold Machine.emit
    split
    · exact ⟨hlim, hout, hpos⟩
    · exact ⟨hlim, by simp only [decoderAfter, List.length_cons]; omega, hpos⟩

/-- The decoder ends a call, successful or not, within its limits. -/
theorem inflateStream_inLimits (src : List Byte) (xlen bound : Nat) :
    (decoderAfter (inflateStream bound (inflaterStart src xlen))).InLimits src.length xlen :=
  inflateStream_keeps (primitivesKeep_inLimits src.length xlen) bound _ ⟨rfl, Nat.zero_le _, Nat.zero_add _⟩

theorem inflate_ok_bounds {src out : List Byte} {xlen used : Nat} (h : inflate src xlen = .ok out used) :
    out.length ≤ xlen ∧ used ≤ src.length := by
  obtain ⟨-, hout, hpos⟩ := inflateStream_inLimits src xlen (8 * src.length + 1)
  unfold inflate at h
  split at h
  next d hd =>
    rw [hd] at hout hpos
    obtain ⟨rfl, rfl⟩ := InflateResult.ok.inj h
    exact ⟨d.out.length_reverse.trans_le hout, Nat.le.intro hpos⟩
  next => cases h

theorem inflate_err_bounds {src out : List Byte} {xlen : Nat} {e : InfError} (h : inflate src xlen = .err e out) :
    out.length ≤ xlen := by
  obtain ⟨-, hout, -⟩ := inflateStream_inLimits src xlen (8 * src.length + 1)
  unfold inflate at h
  split at h
  next => cases h
  next d hd =>
    rw [hd] at hout
    obtain ⟨-, rfl⟩ := InflateResult.err.inj h
    exact d.out.length_reverse.trans_le hout

theorem toCode_mem_streamCodes (e : InfError) : e.toCode ∈ streamCodes := by
  cases e <;> decide

/-! ### Ranges and registers -/

theorem toNat_ofNat_le (w n : Nat) : (BitVec.ofNat w n).toNat ≤ n :=
  (BitVec.toNat_ofNat n w).trans_le (Nat.mod_le _ _)

/-- The length of a range inside `MEM` fits a register: `MEMSIZE` is at most 2^31 (spec/00_scope.md R6). -/
theorem toNat_ofNat_of_inBounds {c : Config} {a n : Nat} (h : InBounds c a n) : (BitVec.ofNat 32 n).toNat = n := by
  have hle := c.memSize_le
  rw [BitVec.toNat_ofNat, Nat.mod_eq_of_lt]
  omega

theorem transformCheck_none {s : State} (h : transformCheck s = none) :
    InBounds s.cfg s.src.toNat s.len.toNat ∧ InBounds s.cfg s.dst.toNat s.len.toNat := by
  obtain ⟨-, hc⟩ | ⟨-, -, hc⟩ | ⟨hb, -, -⟩ := transformCheck_spec s
  · cases hc.symm.trans h
  · cases hc.symm.trans h
  · exact hb

/-- `MEM` reads the same in two states with the same written bytes and the same power-on draw. -/
theorem byteAt_of_mem {s t : State} (hm : t.mem = s.mem) (hd : t.draw = s.draw) (a : Nat) : t.byteAt a = s.byteAt a := by
  simp only [State.byteAt, hm, hd]

/-! ### The effect of a command -/

/-- A status with one of the codes `codes`, and with `SIZEMIS` only beside `OK`, and only if `sizes` allows it. -/
structure Status.Reports (codes : List ResultCode) (sizes : Bool) (st : Status) : Prop where
  code : st.code ∈ codes
  sizeMis : st.sizeMis = true → st.code = .ok ∧ sizes = true

/-- What a command that writes to `range` (an address and a length) and reports one of `codes` may have done to the
state `s` when it ended in `t`: the bytes it stored lie in the range and inside `MEM`, and a length register it wrote
holds no more than `MEMSIZE`. -/
structure CommandEffect (range : Nat × Nat) (codes : List ResultCode) (sizes : Bool) (s t : State) : Prop where
  draw : t.draw = s.draw
  stored : t.mem = s.mem ∨ ∃ bs, t.mem = Memory.insertAll range.1 bs s.mem ∧ bs.length ≤ range.2 ∧
    InBounds s.cfg range.1 bs.length
  outlen : t.outlen = s.outlen ∨ t.outlen.toNat ≤ s.cfg.memSize
  inlen : t.inlen = s.inlen ∨ t.inlen.toNat ≤ s.cfg.memSize
  status : t.status.Reports codes sizes

/-- The commands that may report `SIZEMIS` (spec/10_state.md R31). -/
def reportsSize : Instr → Bool
  | .inflate | .blkdec => true
  | _ => false

theorem reportsSize_iff {i : Instr} : reportsSize i = true ↔ i = .inflate ∨ i = .blkdec := by
  cases i <;> decide

section
variable {range : Nat × Nat} {codes : List ResultCode} {sizes : Bool} {s t : State} {bs out : List Byte}

theorem CommandEffect.raise {e : ResultCode} (he : e ∈ codes) : CommandEffect range codes sizes s (s.raise e) :=
  ⟨rfl, .inl rfl, .inl rfl, .inl rfl, ⟨he, nofun⟩⟩

theorem CommandEffect.faulted {e : ResultCode} (he : e ∈ codes) : CommandEffect range codes sizes s (s.faulted e) :=
  ⟨rfl, .inl rfl, .inl rfl, .inl rfl, ⟨he, nofun⟩⟩

theorem CommandEffect.dataFaulted {e : ResultCode} (he : e ∈ codes) :
    CommandEffect range codes sizes s (s.dataFaulted e) :=
  ⟨rfl, .inl rfl, .inr (Nat.zero_le _), .inr (Nat.zero_le _), ⟨he, nofun⟩⟩

/-- A data command's effect may be counted from the cleared lengths (spec/30_encoding.md R90, step 3). -/
theorem CommandEffect.of_beginData (h : CommandEffect range codes sizes s.beginData t) :
    CommandEffect range codes sizes s t where
  draw := h.draw
  stored := h.stored
  outlen := .inr (h.outlen.elim (fun h0 => h0 ▸ Nat.zero_le _) id)
  inlen := .inr (h.inlen.elim (fun h0 => h0 ▸ Nat.zero_le _) id)
  status := h.status

/-- The effect of a command that passed the checks of R61 and R70 and stored `LEN` bytes at `DST`. -/
theorem CommandEffect.transformed (hcheck : transformCheck s = none) (hlen : bs.length = s.len.toNat)
    (hdraw : t.draw = s.draw) (hmem : t.mem = (s.writeBytes s.dst.toNat bs).mem) (hout : t.outlen = s.len)
    (hin : t.inlen = s.len) (hst : t.status.Reports codes sizes) :
    CommandEffect (s.dst.toNat, s.len.toNat) codes sizes s t := by
  obtain ⟨hsrc, hdst⟩ := transformCheck_none hcheck
  have hle : s.len.toNat ≤ s.cfg.memSize := le_of_add_le_right hsrc
  exact ⟨hdraw, .inr ⟨bs, hmem, hlen.le, hlen.symm ▸ hdst⟩, .inr (hout ▸ hle), .inr (hin ▸ hle), hst⟩

/-- The effect of a command that stored `out` at `DST` and counted it in `OUTLEN` (spec/44_inflate.md R260, R262). -/
theorem CommandEffect.emitted (hdst : InBounds s.cfg s.dst.toNat out.length) (hdraw : t.draw = s.draw)
    (hmem : t.mem = (s.writeBytes s.dst.toNat out).mem) (hout : t.outlen = BitVec.ofNat 32 out.length)
    (hin : t.inlen.toNat ≤ s.cfg.memSize) (hst : t.status.Reports codes sizes) :
    CommandEffect (s.dst.toNat, t.outlen.toNat) codes sizes s t := by
  have hlen : t.outlen.toNat = out.length := hout ▸ toNat_ofNat_of_inBounds hdst
  exact ⟨hdraw, .inr ⟨out, hmem, hlen.ge, hdst⟩, .inr (hlen.trans_le (le_of_add_le_right hdst)), .inr hin, hst⟩

/-! ### What follows from an effect -/

theorem CommandEffect.byteAt_outside (h : CommandEffect range codes sizes s t) {a : Nat} (ha : ¬ inRange range a) :
    t.byteAt a = s.byteAt a := by
  obtain hm | ⟨bs, hm, hlen, -⟩ := h.stored
  · exact byteAt_of_mem hm h.draw a
  · refine (byteAt_of_mem (s := s.writeBytes range.1 bs) hm h.draw a).trans ?_
    unfold inRange at ha
    exact byteAt_writeBytes_outside s range.1 bs a (by omega)

theorem CommandEffect.memWf (h : CommandEffect range codes sizes s t) (hs : Memory.wf s.mem) : Memory.wf t.mem := by
  obtain hm | ⟨bs, hm, -, -⟩ := h.stored <;> rw [hm]
  · exact hs
  · exact Memory.insertAll_wf bs _ _ hs

theorem CommandEffect.memWithin (h : CommandEffect range codes sizes s t) (hs : Memory.within s.cfg.memSize s.mem) :
    Memory.within s.cfg.memSize t.mem := by
  obtain hm | ⟨bs, hm, -, hin⟩ := h.stored <;> rw [hm]
  · exact hs
  · exact Memory.insertAll_within bs _ _ hin hs

theorem CommandEffect.outlenLe (h : CommandEffect range codes sizes s t) (hs : s.outlen.toNat ≤ s.cfg.memSize) :
    t.outlen.toNat ≤ s.cfg.memSize :=
  h.outlen.elim (fun heq => heq ▸ hs) id

theorem CommandEffect.inlenLe (h : CommandEffect range codes sizes s t) (hs : s.inlen.toNat ≤ s.cfg.memSize) :
    t.inlen.toNat ≤ s.cfg.memSize :=
  h.inlen.elim (fun heq => heq ▸ hs) id

end

/-! ### The effect of each shared operation, then of each command -/

theorem codecRead_effect {range : Nat × Nat} (value : List Byte → Nat) (w : Nat) (s : State) :
    CommandEffect range [.ok, .bounds] false s (codecRead value w s) := by
  obtain ⟨-, h⟩ | ⟨-, h⟩ := codecRead_spec value w s <;> rw [h]
  · exact ⟨rfl, .inl rfl, .inl rfl, .inl rfl, ⟨.head _, nofun⟩⟩
  · exact .faulted (by decide)

theorem codecWrite_effect {layout : Nat → Nat → List Byte} (hlayout : ∀ v n, (layout v n).length = n) (w : Nat)
    (s : State) : CommandEffect (s.dst.toNat, w) [.ok, .range, .bounds] false s (codecWrite layout w s) := by
  obtain ⟨-, h⟩ | ⟨-, -, h⟩ | ⟨-, hdst, h⟩ := codecWrite_spec layout w s <;> rw [h]
  · exact .faulted (by decide)
  · exact .faulted (by decide)
  · have hlen := hlayout s.val.toNat w
    exact ⟨rfl, .inr ⟨_, rfl, hlen.le, hlen.symm ▸ hdst⟩, .inl rfl, .inl rfl, ⟨.head _, nofun⟩⟩

theorem counterCommand_effect (k : Key) (s : State) :
    CommandEffect (s.dst.toNat, s.len.toNat) [.ok, .bounds, .overlap] false s (counterCommand k s) := by
  obtain ⟨-, h⟩ | ⟨-, h⟩ | ⟨hcheck, h⟩ := counterCommand_spec k s <;> rw [h]
  · exact .dataFaulted (by decide)
  · exact .dataFaulted (by decide)
  · exact .transformed hcheck (by simp) rfl rfl rfl rfl ⟨.head _, nofun⟩

theorem tocCommand_effect (dir : CfbDir) (s : State) :
    CommandEffect (s.dst.toNat, s.len.toNat) [.ok, .bounds, .overlap] false s (tocCommand dir s) := by
  obtain ⟨-, h⟩ | ⟨-, h⟩ | ⟨hcheck, h⟩ := tocCommand_spec dir s <;> rw [h]
  · exact .dataFaulted (by decide)
  · exact .dataFaulted (by decide)
  · exact .transformed hcheck (by simp) rfl rfl rfl rfl ⟨.head _, nofun⟩

theorem sngEncrypt_effect (p : KeySel) (s : State) :
    CommandEffect (s.dst.toNat + 24, s.len.toNat - 24) (raisable .sngenc) false s (sngEncrypt p s) := by
  obtain ⟨-, h⟩ | ⟨-, -, h⟩ | ⟨-, -, -, h⟩ | ⟨h40, ⟨-, hdst⟩, -, h⟩ := sngEncrypt_spec p s <;> rw [h]
  · exact .raise (by decide)
  · exact .raise (by decide)
  · exact .raise (by decide)
  · have hlen : (BitVec.ofNat 32 (s.len.toNat - 24)).toNat ≤ s.cfg.memSize :=
      (toNat_ofNat_le 32 _).trans (by omega)
    exact ⟨rfl, .inr ⟨_, rfl, by simp, by rw [ctrXform_length, readBytes_length]; omega⟩, .inr hlen, .inr hlen,
      ⟨.head _, nofun⟩⟩

theorem blockDone_effect {s : State} {n : Nat} {out : List Byte} {mis : Bool} (hsrc : InBounds s.cfg s.src.toNat n)
    (hdst : InBounds s.cfg s.dst.toNat out.length) :
    CommandEffect (s.dst.toNat, (blockDone s n out mis).outlen.toNat) (raisable .blkdec) true s
      (blockDone s n out mis) :=
  .emitted hdst rfl rfl rfl ((toNat_ofNat_le 32 n).trans (le_of_add_le_right hsrc)) ⟨.head _, fun _ => ⟨rfl, rfl⟩⟩

theorem compressedBlock_effect {s : State} {n : Nat} (hsrc : InBounds s.cfg s.src.toNat n) :
    CommandEffect (s.dst.toNat, (compressedBlock s n).outlen.toNat) (raisable .blkdec) true s
      (compressedBlock s n) := by
  obtain ⟨-, h⟩ | ⟨-, -, h⟩ | ⟨hdst, -, ⟨e, out, hout, h⟩ | ⟨out, used, hout, h⟩⟩ := compressedBlock_spec s n <;> rw [h]
  · exact .raise (by decide)
  · exact .raise (by decide)
  · have hlen := inflate_err_bounds hout
    exact .emitted (by omega) rfl rfl rfl (Nat.zero_le _)
      ⟨List.mem_append_right _ (toCode_mem_streamCodes e), nofun⟩
  · obtain ⟨hlen, -⟩ := inflate_ok_bounds hout
    exact blockDone_effect hsrc (by omega)

theorem verbatimBlock_effect {s : State} {n : Nat} (hsrc : InBounds s.cfg s.src.toNat n) :
    CommandEffect (s.dst.toNat, (verbatimBlock s n).outlen.toNat) (raisable .blkdec) true s (verbatimBlock s n) := by
  obtain ⟨-, h⟩ | ⟨-, -, h⟩ | ⟨-, -, -, h⟩ | ⟨-, hdst, -, h⟩ := verbatimBlock_spec s n <;> rw [h]
  · exact .raise (by decide)
  · exact .raise (by decide)
  · exact .raise (by decide)
  · exact blockDone_effect hsrc (by simpa using hdst)

theorem execSngdec_effect (s : State) : ∃ t, exec .sngdec s = .next t ∧
    CommandEffect (s.dst.toNat, s.len.toNat - 24) (raisable .sngdec) false s t := by
  have hplat : ResultCode.cryptoPlatform ∈ raisable .sngdec := by decide
  obtain ⟨-, h⟩ | ⟨-, -, h⟩ | ⟨-, -, -, h⟩ | ⟨-, -, -, -, h⟩ | ⟨-, -, -, -, -, h⟩ | ⟨-, -, h⟩ |
    ⟨⟨hsrc, -, -, hdst, -⟩, _, _, -, -, h⟩ := execSngdec_spec s <;> refine ⟨_, h, ?_⟩
  · exact .dataFaulted (by decide)
  · exact ⟨rfl, .inl rfl, .inr (Nat.zero_le _), .inr (Nat.zero_le _), ⟨.head _, nofun⟩⟩
  · exact .dataFaulted (by decide)
  · exact .dataFaulted (by decide)
  · exact .dataFaulted (by decide)
  · exact ⟨rfl, .inl rfl, .inr (Nat.zero_le _), .inr (Nat.zero_le _), ⟨hplat, nofun⟩⟩
  · exact ⟨rfl, .inr ⟨_, rfl, by simp, by simpa using hdst⟩,
      .inr ((toNat_ofNat_le 32 _).trans (le_of_add_le_right hdst)), .inr (le_of_add_le_right hsrc), ⟨.head _, nofun⟩⟩

theorem execInflate_effect (s : State) : ∃ t, exec .inflate s = .next t ∧
    CommandEffect (s.dst.toNat, t.outlen.toNat) (raisable .inflate) true s t := by
  obtain ⟨-, h⟩ | ⟨-, -, h⟩ | ⟨⟨hsrc, hdst⟩, -, ⟨e, out, hout, h⟩ | ⟨out, used, hout, h⟩⟩ := execInflate_spec s <;>
    refine ⟨_, h, ?_⟩
  · exact .dataFaulted (by decide)
  · exact .dataFaulted (by decide)
  · have hlen := inflate_err_bounds hout
    exact .emitted (by omega) rfl rfl rfl (Nat.zero_le _)
      ⟨List.mem_append_right _ (toCode_mem_streamCodes e), nofun⟩
  · obtain ⟨hlen, hused⟩ := inflate_ok_bounds hout
    rw [readBytes_length] at hused
    exact .emitted (by omega) rfl rfl rfl ((toNat_ofNat_le 32 used).trans (by omega))
      ⟨.head _, fun _ => ⟨rfl, rfl⟩⟩

/-- Every command stores inside the range of the W column (spec/20_memory.md R78) and inside `MEM` (R61), and reports a
code that the table lists for it (spec/60_exceptions.md R311). -/
theorem exec_has_effect (i : Instr) (s : State) : ∃ t, exec i s = .next t ∧
    CommandEffect (writeRange i s t) (raisable i) (reportsSize i) s t := by
  cases i with
  | srst => exact ⟨_, rfl, rfl, .inl rfl, .inr (Nat.zero_le _), .inr (Nat.zero_le _), ⟨.head _, nofun⟩⟩
  | rdbe2 | rdbe3 | rdbe4 | rdbe5 | rdle4 => exact ⟨_, rfl, codecRead_effect ..⟩
  | wrbe2 | wrbe3 | wrbe4 | wrbe5 => exact ⟨_, rfl, codecWrite_effect toBE_length ..⟩
  | wrle4 => exact ⟨_, rfl, codecWrite_effect toLE_length ..⟩
  | ztype | ivinc => exact ⟨_, rfl, rfl, .inl rfl, .inl rfl, .inl rfl, ⟨.head _, nofun⟩⟩
  | ctrdecPc | ctrdecMac | ctrencPc | ctrencMac => exact ⟨_, rfl, counterCommand_effect ..⟩
  | tocdec | tocenc => exact ⟨_, rfl, tocCommand_effect ..⟩
  | ivld =>
    obtain ⟨-, h⟩ | ⟨-, h⟩ := execIvld_spec s <;> refine ⟨_, h, ?_⟩
    · exact ⟨rfl, .inl rfl, .inl rfl, .inl rfl, ⟨.head _, nofun⟩⟩
    · exact .faulted (by decide)
  | sngdet =>
    obtain ⟨-, h⟩ | ⟨-, h⟩ := execSngdet_spec s <;> refine ⟨_, h, ?_⟩
    · exact ⟨rfl, .inl rfl, .inl rfl, .inl rfl, ⟨.head _, nofun⟩⟩
    · exact .faulted (by decide)
  | sngprobe =>
    obtain ⟨-, h⟩ | ⟨-, -, h⟩ | ⟨-, -, h⟩ := execSngprobe_spec s <;> refine ⟨_, h, ?_⟩
    · exact .faulted (by decide)
    · exact .faulted (by decide)
    · exact ⟨rfl, .inl rfl, .inl rfl, .inl rfl, ⟨.head _, nofun⟩⟩
  | sngdec => exact execSngdec_effect s
  | sngenc =>
    obtain ⟨-, h⟩ | ⟨-, -, -, h⟩ | ⟨k, -, h⟩ := execSngenc_spec s <;> refine ⟨_, h, ?_⟩
    · exact ⟨rfl, .inl rfl, .inr (Nat.zero_le _), .inr (Nat.zero_le _), ⟨.head _, nofun⟩⟩
    · exact .dataFaulted (by decide)
    · exact (sngEncrypt_effect k s.beginData).of_beginData
  | inflate => exact execInflate_effect s
  | blkdec =>
    obtain ⟨-, h⟩ | ⟨-, -, h⟩ | ⟨-, hsrc, -, h⟩ | ⟨-, hsrc, -, h⟩ :=
      execBlkdec_spec s _ ((blockLength_iff s _).mpr rfl) <;> refine ⟨_, h, ?_⟩
    · exact .dataFaulted (by decide)
    · exact .dataFaulted (by decide)
    · exact (compressedBlock_effect (s := s.beginData) hsrc).of_beginData
    · exact (verbatimBlock_effect (s := s.beginData) hsrc).of_beginData

theorem exec_effect {i : Instr} {s t : State} (h : exec i s = .next t) :
    CommandEffect (writeRange i s t) (raisable i) (reportsSize i) s t := by
  obtain ⟨u, hu, heff⟩ := exec_has_effect i s
  obtain rfl := Host.Outcome.next.inj (hu.symm.trans h)
  exact heff

/-- Settles O57: what a command stores lies in the range its effect names, which is that of the W column. -/
theorem commandsWriteOnlyTheirRange : Obligations.CommandsWriteOnlyTheirRange := by
  intro i s t h a ha
  exact (exec_effect h).byteAt_outside ha

end Sys2Proof.Machine
end

section
/-! SUPPORT. The invariant of the engine along a step: a command keeps it by its effect, beside the word in `CMD` that
decodes to it; every other host action by what it writes (spec/00_scope.md R3). -/

namespace Sys2Proof.Machine

/-! ### A legal word is the encoding of its command -/

/-- The fields of a word are all of it (spec/30_encoding.md R91). -/
theorem toWord_ofWord (w : Word) : (CmdFields.ofWord w).toWord = w := by
  apply BitVec.eq_of_getLsbD_eq
  intro i hi
  simp only [CmdFields.toWord, CmdFields.ofWord, BitVec.getLsbD_or, BitVec.getLsbD_shiftLeft, BitVec.getLsbD_setWidth,
    BitVec.getLsbD_extractLsb', hi, decide_true, Bool.true_and, Nat.zero_add]
  grind

theorem mem_of_lookup_eq_some {α β : Type} [BEq α] [LawfulBEq α] {a : α} {b : β} {l : List (α × β)}
    (h : l.lookup a = some b) : (a, b) ∈ l := by
  obtain ⟨l₁, l₂, rfl, -⟩ := List.lookup_eq_some_iff.mp h
  exact List.mem_append_right l₁ List.mem_cons_self

theorem decodePlain_ok {f : CmdFields} {i j : Instr} (h : decodePlain f j = .ok i) :
    j = i ∧ f.width = 0 ∧ f.ksel = 0 := by
  unfold decodePlain at h
  split at h
  next hz => exact ⟨Except.ok.inj h, hz⟩
  next => cases h

theorem decodeWidth_ok {f : CmdFields} {widths : List (BitVec 3 × Instr)} {i : Instr}
    (h : decodeWidth f widths = .ok i) : (f.width, i) ∈ widths ∧ f.ksel = 0 := by
  unfold decodeWidth at h
  split at h
  next hk =>
    split at h
    next j hj => exact ⟨mem_of_lookup_eq_some (Except.ok.inj h ▸ hj), hk⟩
    next => cases h
  next => cases h

theorem decodeKey_ok {f : CmdFields} {pc mac i : Instr} (h : decodeKey f pc mac = .ok i) :
    (f.ksel, i) ∈ [(1, pc), (2, mac)] ∧ f.width = 0 := by
  unfold decodeKey at h
  split at h
  next hw =>
    split at h
    next hk => exact ⟨by simp [hk, Except.ok.inj h], hw⟩
    next =>
      split at h
      next hk => exact ⟨by simp [hk, Except.ok.inj h], hw⟩
      next => cases h
  next => cases h

/-- Fields that decode are those of the command they decode to (spec/30_encoding.md R92 to R95). -/
theorem decodeFields_ok {f : CmdFields} {i : Instr} (h : decodeFields f = .ok i) : f = i.fields := by
  unfold decodeFields at h
  split at h
  case isFalse => cases h
  case isTrue hz =>
    split at h
    case h_2 => cases h
    case h_1 op hop =>
      obtain ⟨opc, width, zero11, ksel, zeroHi⟩ := f
      obtain ⟨rfl, rfl⟩ := hz
      have hopc := mem_of_lookup_eq_some hop
      cases op <;>
        simp only [opcodeMap, BitVec.ofNat_eq_ofNat, List.mem_cons, Prod.mk.injEq, reduceCtorEq, and_false, and_true,
          List.not_mem_nil, or_self, or_false, false_or] at hopc <;>
        subst hopc
      case rdbe | wrbe =>
        obtain ⟨hw, rfl⟩ := decodeWidth_ok h
        simp only [List.mem_cons, Prod.mk.injEq, List.not_mem_nil, or_false] at hw
        obtain ⟨rfl, rfl⟩ | ⟨rfl, rfl⟩ | ⟨rfl, rfl⟩ | ⟨rfl, rfl⟩ := hw <;> rfl
      case rdle | wrle =>
        obtain ⟨hw, rfl⟩ := decodeWidth_ok h
        obtain ⟨rfl, rfl⟩ := Prod.mk.inj (List.mem_singleton.mp hw)
        rfl
      case ctrdec | ctrenc =>
        obtain ⟨hk, rfl⟩ := decodeKey_ok h
        simp only [List.mem_cons, Prod.mk.injEq, List.not_mem_nil, or_false] at hk
        obtain ⟨rfl, rfl⟩ | ⟨rfl, rfl⟩ := hk <;> rfl
      all_goals
        obtain ⟨rfl, rfl, rfl⟩ := decodePlain_ok h
        rfl

/-- A word that decodes is the encoding of the command it decodes to (spec/30_encoding.md R102). -/
theorem eq_encode_of_decode {w : Word} {i : Instr} (h : decode w = .ok i) : w = encode i := by
  rw [encode, ← decodeFields_ok h, toWord_ofWord]

/-! ### A write of `CMD` -/

/-- A command leaves the word in `CMD`; `SRST` clears it (spec/45_system.md R300). -/
theorem exec_cmd {i : Instr} {s t : State} (h : exec i s = .next t) : i = .srst ∧ t.cmd = 0 ∨ t.cmd = s.cmd := by
  by_cases hi : i = .srst
  · subst hi
    obtain rfl := Host.Outcome.next.inj h
    exact .inl ⟨rfl, rfl⟩
  · obtain ⟨u, hu, hside⟩ := exec_keeps_hostSide i hi s
    obtain rfl := Host.Outcome.next.inj (hu.symm.trans h)
    exact .inr (congrArg Prod.fst hside)

theorem codeFits_of_raisable {w : Word} {i : Instr} {code : ResultCode} (hdec : decode w = .ok i)
    (hcode : code ∈ raisable i) : codeFits w code := by
  rw [codeFits, hdec]
  exact hcode

/-- A command keeps the invariant, once the word that decodes to it is stored in `CMD` (spec/30_encoding.md R90). -/
theorem exec_inv {i : Instr} {w : Word} {s t : State} (hs : s.Inv) (hdec : decode w = .ok i)
    (h : exec i (s.writeReg w .cmd) = .next t) : t.Inv := by
  have heff := exec_effect h
  have hcfg : t.cfg = s.cfg := (exec_sameQueueAndParams h).cfg
  obtain ⟨hcode, hmis⟩ := heff.status
  refine
    { memWf := heff.memWf hs.memWf
      memWithin := hcfg ▸ heff.memWithin hs.memWithin
      outlenLe := hcfg ▸ heff.outlenLe hs.outlenLe
      inlenLe := hcfg ▸ heff.inlenLe hs.inlenLe
      codeFits := ?_
      sizeMis := fun hset => ?_ }
  · obtain ⟨rfl, hcmd⟩ | hcmd := exec_cmd h <;> rw [hcmd]
    · rw [List.mem_singleton.mp hcode]
      exact codeFits_zero_ok
    · exact codeFits_of_raisable hdec hcode
  · obtain ⟨hok, hsize⟩ := hmis hset
    obtain ⟨rfl, -⟩ | hcmd := exec_cmd h
    · cases hsize
    · have hword : t.cmd = encode i := hcmd.trans (eq_encode_of_decode hdec)
      obtain rfl | rfl := reportsSize_iff.mp hsize
      · exact ⟨hok, .inl hword⟩
      · exact ⟨hok, .inr hword⟩

/-- A word that is no command keeps the invariant (spec/30_encoding.md R98). -/
theorem illegalWord_inv {w : Word} {s : State} {e : Illegal} (hs : s.Inv) (hdec : decode w = .error e) :
    ((s.writeReg w .cmd).raise .illegalCmd).Inv where
  memWf := hs.memWf
  memWithin := hs.memWithin
  outlenLe := hs.outlenLe
  inlenLe := hs.inlenLe
  codeFits := by
    show codeFits w .illegalCmd
    rw [codeFits, hdec]
    exact .inl rfl
  sizeMis := nofun

theorem runCommand_inv {w : Word} {s t : State} (hs : s.Inv) (h : runCommand w s = .next t) : t.Inv := by
  unfold runCommand at h
  dsimp only at h
  split at h
  next i hdec => exact exec_inv hs hdec h
  next e hdec =>
    obtain rfl := Host.Outcome.next.inj h
    exact illegalWord_inv hs hdec

/-! ### The other host actions -/

/-- The queue and the reply are not under the invariant. -/
theorem State.Inv.withHostFields {s : State} (h : s.Inv) (inputs : List HostAction) (reply : HostReply) :
    State.Inv { s with inputs := inputs, reply := reply } :=
  ⟨h.memWf, h.memWithin, h.outlenLe, h.inlenLe, h.codeFits, h.sizeMis⟩

theorem State.Inv.writeBytes {s : State} (h : s.Inv) {a : Nat} {bs : List Byte} (hin : InBounds s.cfg a bs.length) :
    (s.writeBytes a bs).Inv :=
  ⟨Memory.insertAll_wf bs a s.mem h.memWf, Memory.insertAll_within bs a s.mem hin h.memWithin, h.outlenLe, h.inlenLe,
    h.codeFits, h.sizeMis⟩

/-- A host write of a register other than `CMD` reaches none of what the invariant speaks of: `OUTLEN` and `INLEN`
ignore it, and `STATUS` takes only its `STICKY` bit (spec/10_state.md R25, R26, R31). -/
theorem State.Inv.writeReg {s : State} (h : s.Inv) (w : Word) {r : Reg} (hr : r ≠ .cmd) : (s.writeReg w r).Inv := by
  cases r with
  | cmd => exact absurd rfl hr
  | _ => exact ⟨h.memWf, h.memWithin, h.outlenLe, h.inlenLe, h.codeFits, h.sizeMis⟩

theorem powerOn_inv (s : State) : s.powerOn.Inv where
  memWf := List.Pairwise.nil
  memWithin := nofun
  outlenLe := Nat.zero_le _
  inlenLe := Nat.zero_le _
  codeFits := codeFits_zero_ok
  sizeMis := nofun

/-- A window access that answers lies inside `MEM` (spec/10_state.md R40, U10). -/
theorem windowAccess_next_inBounds {s t : State} {off n : Nat} {k : Nat → Host.Outcome State Fault Refusal}
    (h : windowAccess s off n k = .next t) : InBounds s.cfg (off - s.cfg.memBase) n := by
  unfold windowAccess at h
  split at h
  next => cases h
  next =>
    split at h
    · cases h
    · omega

theorem hostWriteWord_inv {off : Nat} {w : Word} {s t : State} (hs : s.Inv) (h : hostWriteWord off w s = .next t) :
    t.Inv := by
  have hreply := hs.withHostFields s.inputs .none
  unfold hostWriteWord at h
  dsimp only at h
  split at h
  · have hin := windowAccess_next_inBounds h
    obtain rfl := Host.Outcome.next.inj (windowAccess_next h)
    exact hreply.writeBytes (by rwa [windowBytes_length])
  · split at h
    · cases h
    · split at h
      next => exact runCommand_inv hreply h
      next r hne _ =>
        obtain rfl := Host.Outcome.next.inj h
        exact hreply.writeReg w hne
      next =>
        obtain rfl := Host.Outcome.next.inj h
        exact hreply

theorem hostStep_inv {a : HostAction} {s t : State} (hs : s.Inv) (h : hostStep a s = .next t) : t.Inv := by
  cases a with
  | readWord off =>
    obtain ⟨w, rfl⟩ := hostReadWord_next h
    exact hs.withHostFields s.inputs _
  | writeWord off w => exact hostWriteWord_inv hs h
  | readBytes off n =>
    rw [hostStep] at h
    obtain rfl := Host.Outcome.next.inj (windowAccess_next h)
    exact hs.withHostFields s.inputs _
  | writeBytes off bs =>
    rw [hostStep] at h
    have hin := windowAccess_next_inBounds h
    obtain rfl := Host.Outcome.next.inj (windowAccess_next h)
    exact (hs.writeBytes hin).withHostFields s.inputs .none
  | powerOn =>
    obtain rfl := Host.Outcome.next.inj h
    exact (powerOn_inv s).withHostFields s.inputs .none

/-- Settles O52: taking an action off the queue is outside the invariant, and each host action keeps it. -/
theorem everyStepKeepsTheInvariant : Obligations.EveryStepKeepsTheInvariant := by
  intro s t hs h
  unfold step at h
  split at h
  next =>
    obtain rfl := Host.Outcome.next.inj h
    exact hs
  next a rest _ => exact hostStep_inv (hs.withHostFields rest s.reply) h

end Sys2Proof.Machine
end

section
/-! SUPPORT. What a command depends on: run on two states that differ only in bytes outside its read ranges, it does the
same work (spec/20_memory.md R66, R78). -/

namespace Sys2Proof.Machine

/-! ### Two states that differ in `MEM` -/

/-- `s` with another `MEM`. -/
abbrev State.withMem (s : State) (m : Memory) : State := { s with mem := m }

/-- The two states hold the same bytes in the range `r`. -/
def SameIn (r : Nat × Nat) (s s' : State) : Prop :=
  ∀ a, inRange r a → s'.byteAt a = s.byteAt a

theorem SameIn.readBytes {b n x k : Nat} {s s' : State} (h : SameIn (b, n) s s') (hx : b ≤ x) (hk : x + k ≤ b + n) :
    s'.readBytes x k = s.readBytes x k :=
  readBytes_congr fun a hlo hhi => h a ⟨hx.trans hlo, hhi.trans_le hk⟩

theorem SameIn.subrange {b n x k : Nat} {s s' : State} (h : SameIn (b, n) s s') (hx : b ≤ x) (hk : x + k ≤ b + n) :
    SameIn (x, k) s s' :=
  fun a ⟨hlo, hhi⟩ => h a ⟨hx.trans hlo, hhi.trans_le hk⟩

/-- The same work led from `s` to `t` and from `s'` to `t'`: the same registers at the end, and the same bytes stored at
the same place. -/
structure SameWork (s s' t t' : State) : Prop where
  registers : t' = t.withMem t'.mem
  draw : t.draw = s.draw
  stores : ∃ a bs, t.mem = Memory.insertAll a bs s.mem ∧ t'.mem = Memory.insertAll a bs s'.mem

section
variable {s s' t t' u u' : State} {m : Memory}

/-- Work that stores nothing. -/
theorem SameWork.silent (hm : t.mem = s.mem) (hd : t.draw = s.draw) (ht : t' = t.withMem s'.mem) :
    SameWork s s' t t' := by
  subst ht
  exact ⟨rfl, hd, 0, [], hm, rfl⟩

theorem SameWork.raise (e : ResultCode) : SameWork s (s.withMem m) (s.raise e) ((s.withMem m).raise e) :=
  .silent rfl rfl rfl

/-- A test that comes out the same on both sides. -/
theorem SameWork.ite {c c' : Prop} [Decidable c] [Decidable c'] (hc : c' ↔ c) (ht : c → SameWork s s' t t')
    (hu : ¬ c → SameWork s s' u u') : SameWork s s' (if c then t else u) (if c' then t' else u') := by
  by_cases h : c
  · rw [if_pos h, if_pos (hc.mpr h)]
    exact ht h
  · rw [if_neg h, if_neg (mt hc.mp h)]
    exact hu h

theorem SameWork.of_beginData (h : SameWork s.beginData (s.beginData.withMem m) t t') :
    SameWork s (s.withMem m) t t' :=
  ⟨h.registers, h.draw, h.stores⟩

/-- A byte was stored on both sides alike, or on neither. -/
theorem SameWork.bytes (h : SameWork s s' t t') (hd : s'.draw = s.draw) (a : Nat) :
    t'.byteAt a = t.byteAt a ∨ (t.byteAt a = s.byteAt a ∧ t'.byteAt a = s'.byteAt a) := by
  obtain ⟨b, bs, hm, hm'⟩ := h.stores
  have hdraw' : t'.draw = s'.draw := (congrArg State.draw h.registers).trans (h.draw.trans hd.symm)
  have ht : t.byteAt a = (s.writeBytes b bs).byteAt a := byteAt_of_mem (s := s.writeBytes b bs) hm h.draw a
  have ht' : t'.byteAt a = (s'.writeBytes b bs).byteAt a :=
    byteAt_of_mem (s := s'.writeBytes b bs) hm' hdraw' a
  rw [ht, ht', byteAt_writeBytes, byteAt_writeBytes]
  split
  · exact .inl rfl
  · exact .inr ⟨rfl, rfl⟩

/-! ### What the tests on `MEM` read -/

/-- `Detect` reads eight bytes, and none of a container that is too short (spec/42_ctr_sng.md R188). -/
theorem detect_same {base len : Nat} (h : SameIn (base, if 8 ≤ len then 8 else 0) s s') :
    detect s' base len = detect s base len := by
  by_cases h8 : 8 ≤ len
  · rw [if_pos h8] at h
    rw [detect, detect, h.readBytes le_rfl (by omega), h.readBytes (by omega) (by omega)]
  · simp only [detect, h8, decide_false, Bool.false_and]

/-- `Probe` reads the IV and the probe block of the container (spec/42_ctr_sng.md R190). -/
theorem probe_same {base : Nat} (h : SameIn (base + 8, 32) s (s.withMem m)) :
    probe (s.withMem m) base = probe s base := by
  have hiv := h.readBytes (x := base + 8) (k := 16) le_rfl (by omega)
  have hblock := h.readBytes (x := base + 24) (k := 16) (by omega) (by omega)
  simp only [probe, hiv, hblock]

/-- The signature test of a block reads two stored bytes, and none of a shorter block (spec/44_inflate.md R262). -/
theorem blockCompressed_same (h : SameIn (s.src.toNat, storedLength s) s (s.withMem m)) :
    blockCompressed (s.withMem m) = blockCompressed s := by
  have hlen : storedLength (s.withMem m) = storedLength s := rfl
  by_cases h2 : 2 ≤ storedLength s
  · simp only [blockCompressed, h.readBytes (k := 2) le_rfl (by omega), hlen]
  · simp only [blockCompressed, hlen, h2, decide_false, Bool.false_and, Bool.and_false]

/-! ### The same work of each shared operation, then of each command -/

theorem codecRead_sameWork (value : List Byte → Nat) {w : Nat} (h : SameIn (s.src.toNat, w) s (s.withMem m)) :
    SameWork s (s.withMem m) (codecRead value w s) (codecRead value w (s.withMem m)) := by
  simp only [codecRead, h.readBytes le_rfl le_rfl]
  exact .ite .rfl (fun _ => .silent rfl rfl rfl) fun _ => .raise _

theorem codecWrite_sameWork (layout : Nat → Nat → List Byte) (w : Nat) :
    SameWork s (s.withMem m) (codecWrite layout w s) (codecWrite layout w (s.withMem m)) :=
  .ite .rfl (fun _ => .raise _) fun _ => .ite .rfl (fun _ => ⟨rfl, rfl, _, _, rfl, rfl⟩) fun _ => .raise _

theorem counterCommand_sameWork (k : Key) (h : SameIn (s.src.toNat, s.len.toNat) s (s.withMem m)) :
    SameWork s (s.withMem m) (counterCommand k s) (counterCommand k (s.withMem m)) := by
  have hcheck : transformCheck (s.withMem m).beginData = transformCheck s.beginData := rfl
  simp only [counterCommand, hcheck, beginData_readBytes, beginData_src, beginData_len, h.readBytes le_rfl le_rfl]
  cases transformCheck s.beginData with
  | some e => exact .silent rfl rfl rfl
  | none => exact ⟨rfl, rfl, _, _, rfl, rfl⟩

theorem tocCommand_sameWork (dir : CfbDir) (h : SameIn (s.src.toNat, s.len.toNat) s (s.withMem m)) :
    SameWork s (s.withMem m) (tocCommand dir s) (tocCommand dir (s.withMem m)) := by
  have hcheck : transformCheck (s.withMem m).beginData = transformCheck s.beginData := rfl
  simp only [tocCommand, hcheck, beginData_readBytes, beginData_src, beginData_len, h.readBytes le_rfl le_rfl]
  cases transformCheck s.beginData with
  | some e => exact .silent rfl rfl rfl
  | none => exact ⟨rfl, rfl, _, _, rfl, rfl⟩

theorem sngDecrypt_sameWork (h : SameIn (s.src.toNat, s.len.toNat) s (s.withMem m)) (h40 : 40 ≤ s.len.toNat) :
    SameWork s (s.withMem m) (sngDecrypt s) (sngDecrypt (s.withMem m)) := by
  have hprobe : probe (s.withMem m) s.src.toNat = probe s s.src.toNat :=
    probe_same (h.subrange (by omega) (by omega))
  have hread := h.readBytes (x := s.src.toNat + 24) (k := s.len.toNat - 24) (by omega) (by omega)
  simp only [sngDecrypt, hprobe, hread]
  cases platformKey (probe s s.src.toNat).1 with
  | none => exact .silent rfl rfl rfl
  | some p => exact ⟨rfl, rfl, _, _, rfl, rfl⟩

theorem sngEncrypt_sameWork (p : KeySel) (hsrc : SameIn (s.src.toNat, s.len.toNat - 24) s (s.withMem m))
    (hiv : SameIn (s.dst.toNat + 8, 16) s (s.withMem m)) :
    SameWork s (s.withMem m) (sngEncrypt p s) (sngEncrypt p (s.withMem m)) := by
  simp only [sngEncrypt, hsrc.readBytes le_rfl le_rfl, hiv.readBytes le_rfl le_rfl]
  exact .ite .rfl (fun _ => .raise _) fun _ => .ite .rfl (fun _ => .raise _) fun _ =>
    .ite .rfl (fun _ => .raise _) fun _ => ⟨rfl, rfl, _, _, rfl, rfl⟩

theorem compressedBlock_sameWork {n : Nat} (h : SameIn (s.src.toNat, n) s (s.withMem m)) :
    SameWork s (s.withMem m) (compressedBlock s n) (compressedBlock (s.withMem m) n) := by
  simp only [compressedBlock, h.readBytes le_rfl le_rfl]
  refine .ite .rfl (fun _ => .raise _) fun _ => .ite .rfl (fun _ => .raise _) fun _ => ?_
  cases inflate (s.readBytes s.src.toNat n) (min s.xlen.toNat s.bsize.toNat) with
  | ok out used => exact ⟨rfl, rfl, _, _, rfl, rfl⟩
  | err e out => exact ⟨rfl, rfl, _, _, rfl, rfl⟩

theorem verbatimBlock_sameWork {n : Nat} (h : SameIn (s.src.toNat, n) s (s.withMem m)) :
    SameWork s (s.withMem m) (verbatimBlock s n) (verbatimBlock (s.withMem m) n) := by
  simp only [verbatimBlock, h.readBytes le_rfl le_rfl]
  exact .ite .rfl (fun _ => .raise _) fun _ => .ite .rfl (fun _ => .raise _) fun _ =>
    .ite .rfl (fun _ => .raise _) fun _ => ⟨rfl, rfl, _, _, rfl, rfl⟩

/-- Both sides complete, by the same work: `i` run on `s` and on `s` with the memory `m`. -/
def WorksAlike (i : Instr) (s : State) (m : Memory) : Prop :=
  ∃ t t', exec i s = .next t ∧ exec i (s.withMem m) = .next t' ∧ SameWork s (s.withMem m) t t'

theorem execSngdec_worksAlike (h : SameIn (s.src.toNat, s.len.toNat) s (s.withMem m)) : WorksAlike .sngdec s m := by
  have hdet : detect (s.withMem m) s.src.toNat s.len.toNat = detect s s.src.toNat s.len.toNat :=
    detect_same (h.subrange le_rfl (by split <;> omega))
  refine ⟨_, _, rfl, rfl, .ite .rfl (fun _ => .silent rfl rfl rfl) fun _ =>
    .ite (Iff.of_eq (congrArg (· = false) hdet)) (fun _ => .silent rfl rfl rfl) fun _ =>
    .ite .rfl (fun _ => .silent rfl rfl rfl) fun h40 => .ite .rfl (fun _ => .silent rfl rfl rfl) fun _ =>
    .ite .rfl (fun _ => .silent rfl rfl rfl) fun _ => ?_⟩
  exact .of_beginData (sngDecrypt_sameWork h (not_lt.mp h40))

theorem execSngenc_worksAlike (hsrc : SameIn (s.src.toNat, s.len.toNat - 24) s (s.withMem m))
    (hiv : SameIn (s.dst.toNat + 8, 16) s (s.withMem m)) : WorksAlike .sngenc s m := by
  refine ⟨_, _, rfl, rfl, .ite .rfl (fun _ => .silent rfl rfl rfl) fun _ => ?_⟩
  simp only [beginData_ectx]
  cases targetKey s.ectx.tplat with
  | none => exact .silent rfl rfl rfl
  | some k =>
    cases platformKey s.ectx.plat with
    | none => exact .silent rfl rfl rfl
    | some p =>
      exact .ite .rfl (fun _ => .silent rfl rfl rfl) fun _ => .of_beginData (sngEncrypt_sameWork k hsrc hiv)

theorem execInflate_worksAlike (h : SameIn (s.src.toNat, s.len.toNat) s (s.withMem m)) : WorksAlike .inflate s m := by
  refine ⟨_, _, rfl, rfl, .ite .rfl (fun _ => .silent rfl rfl rfl) fun _ =>
    .ite .rfl (fun _ => .silent rfl rfl rfl) fun _ => ?_⟩
  simp only [beginData_readBytes, beginData_src, beginData_len, beginData_xlen, h.readBytes le_rfl le_rfl]
  cases inflate (s.readBytes s.src.toNat s.len.toNat) s.xlen.toNat with
  | ok out used => exact ⟨rfl, rfl, _, _, rfl, rfl⟩
  | err e out => exact ⟨rfl, rfl, _, _, rfl, rfl⟩

theorem execBlkdec_worksAlike (h : SameIn (s.src.toNat, storedLength s) s (s.withMem m)) : WorksAlike .blkdec s m := by
  refine ⟨_, _, rfl, rfl, .ite .rfl (fun _ => .silent rfl rfl rfl) fun _ =>
    .ite .rfl (fun _ => .silent rfl rfl rfl) fun _ => ?_⟩
  exact .ite (Iff.of_eq (congrArg (· = true) (blockCompressed_same h)))
    (fun _ => .of_beginData (compressedBlock_sameWork h)) fun _ => .of_beginData (verbatimBlock_sameWork h)

/-- Every command does the same work on two states that agree on the ranges of the R column (spec/20_memory.md R78). -/
theorem exec_worksAlike (i : Instr) (h : ∀ r ∈ readRanges i s, SameIn r s (s.withMem m)) : WorksAlike i s m := by
  cases i with
  | srst | ztype | ivinc => exact ⟨_, _, rfl, rfl, .silent rfl rfl rfl⟩
  | rdbe2 | rdbe3 | rdbe4 | rdbe5 | rdle4 => exact ⟨_, _, rfl, rfl, codecRead_sameWork _ (h _ (.head _))⟩
  | wrbe2 | wrbe3 | wrbe4 | wrbe5 | wrle4 => exact ⟨_, _, rfl, rfl, codecWrite_sameWork ..⟩
  | ctrdecPc | ctrdecMac | ctrencPc | ctrencMac =>
    exact ⟨_, _, rfl, rfl, counterCommand_sameWork _ (h _ (.head _))⟩
  | tocdec | tocenc => exact ⟨_, _, rfl, rfl, tocCommand_sameWork _ (h _ (.head _))⟩
  | ivld =>
    refine ⟨_, _, rfl, rfl, .ite .rfl (fun _ => ?_) fun _ => .raise _⟩
    rw [(h _ (.head _)).readBytes le_rfl le_rfl]
    exact .silent rfl rfl rfl
  | sngdet =>
    refine ⟨_, _, rfl, rfl, .ite .rfl (fun _ => ?_) fun _ => .raise _⟩
    rw [detect_same (h _ (.head _))]
    exact .silent rfl rfl rfl
  | sngprobe =>
    refine ⟨_, _, rfl, rfl, .ite .rfl (fun _ => .raise _) fun _ => .ite .rfl (fun _ => ?_) fun _ => .raise _⟩
    rw [probe_same (h _ (.head _))]
    exact .silent rfl rfl rfl
  | sngdec => exact execSngdec_worksAlike (h _ (.head _))
  | sngenc => exact execSngenc_worksAlike (h _ (.head _)) (h _ (.tail _ (.head _)))
  | inflate => exact execInflate_worksAlike (h _ (.head _))
  | blkdec => exact execBlkdec_worksAlike (h _ (.head _))

end

/-- Settles O58: the two runs end with the same registers and stored the same bytes at the same place. -/
theorem commandsReadOnlyTheirRanges : Obligations.CommandsReadOnlyTheirRanges := by
  intro i s s' t t' hs hreads h h'
  obtain ⟨m, rfl⟩ : ∃ m, s' = s.withMem m := ⟨_, hs⟩
  obtain ⟨u, u', hu, hu', hwork⟩ := exec_worksAlike i hreads
  obtain rfl := Host.Outcome.next.inj (hu.symm.trans h)
  obtain rfl := Host.Outcome.next.inj (hu'.symm.trans h')
  exact ⟨hwork.registers, hwork.bytes rfl⟩

end Sys2Proof.Machine
end

section
/-! SUPPORT. The command word (spec/30_encoding.md): decoder and encoder undo each other, the legal words are the listed
ones and those of the field rules, and what a write of `CMD` does with either kind of word. -/

namespace Sys2Proof.Machine

/-! ### Decoder and encoder -/

/-- The model's law of each command's word, for every command. -/
theorem encodingLegal (i : Instr) : Laws.EncodingLegal.Statement i := by
  cases i with
  | srst => exact Laws.EncodingLegal.srst
  | rdbe2 => exact Laws.EncodingLegal.rdbe2
  | rdbe3 => exact Laws.EncodingLegal.rdbe3
  | rdbe4 => exact Laws.EncodingLegal.rdbe4
  | rdbe5 => exact Laws.EncodingLegal.rdbe5
  | wrbe2 => exact Laws.EncodingLegal.wrbe2
  | wrbe3 => exact Laws.EncodingLegal.wrbe3
  | wrbe4 => exact Laws.EncodingLegal.wrbe4
  | wrbe5 => exact Laws.EncodingLegal.wrbe5
  | rdle4 => exact Laws.EncodingLegal.rdle4
  | wrle4 => exact Laws.EncodingLegal.wrle4
  | ztype => exact Laws.EncodingLegal.ztype
  | ivld => exact Laws.EncodingLegal.ivld
  | ivinc => exact Laws.EncodingLegal.ivinc
  | ctrdecPc => exact Laws.EncodingLegal.ctrdecPc
  | ctrdecMac => exact Laws.EncodingLegal.ctrdecMac
  | ctrencPc => exact Laws.EncodingLegal.ctrencPc
  | ctrencMac => exact Laws.EncodingLegal.ctrencMac
  | sngdet => exact Laws.EncodingLegal.sngdet
  | sngprobe => exact Laws.EncodingLegal.sngprobe
  | sngdec => exact Laws.EncodingLegal.sngdec
  | sngenc => exact Laws.EncodingLegal.sngenc
  | tocdec => exact Laws.EncodingLegal.tocdec
  | tocenc => exact Laws.EncodingLegal.tocenc
  | inflate => exact Laws.EncodingLegal.inflate
  | blkdec => exact Laws.EncodingLegal.blkdec

/-- The fields of a command decode to it (spec/30_encoding.md R93 to R95). -/
theorem decodeFields_fields (i : Instr) : decodeFields i.fields = .ok i := by
  cases i <;> rfl

/-- The word the encoder writes for a command decodes to it (spec/30_encoding.md R102). -/
theorem decode_encode (i : Instr) : decode (encode i) = .ok i := by
  obtain ⟨-, -, hfields⟩ := encodingLegal i
  rw [decode, hfields, decodeFields_fields]

/-- Settles O1: a word is made of its fields and a decoded word's fields are its command's (`eq_encode_of_decode`); the
other way is `decode_encode`. -/
theorem decodeEncodeAgree : Obligations.DecodeEncodeAgree :=
  fun _ i => ⟨eq_encode_of_decode, fun h => h ▸ decode_encode i⟩

/-! ### The listed words -/

/-- The listed words are the encodings of the 26 commands, in the order of the opcode map (spec/30_encoding.md R102). -/
theorem legalWords_eq_map_encode :
    legalWords =
      [.srst, .rdbe2, .rdbe3, .rdbe4, .rdbe5, .wrbe2, .wrbe3, .wrbe4, .wrbe5, .rdle4, .wrle4, .ztype, .ivld, .ivinc,
        .ctrdecPc, .ctrdecMac, .ctrencPc, .ctrencMac, .sngdet, .sngprobe, .sngdec, .sngenc, .tocdec, .tocenc, .inflate,
        .blkdec].map encode := by
  decide

/-- A word decodes exactly when it is listed (spec/30_encoding.md R96, R102). -/
theorem exists_decode_iff_mem_legalWords (w : Word) : (∃ i, decode w = .ok i) ↔ w ∈ legalWords := by
  constructor
  · rintro ⟨i, h⟩
    obtain ⟨-, hmem, -⟩ := encodingLegal i
    exact eq_encode_of_decode h ▸ hmem
  · intro h
    rw [legalWords_eq_map_encode] at h
    obtain ⟨i, -, rfl⟩ := List.mem_map.mp h
    exact ⟨i, decode_encode i⟩

/-- A word that is not listed is rejected by name (spec/30_encoding.md R98). -/
theorem decode_eq_error_of_not_mem {w : Word} (h : w ∉ legalWords) : ∃ e, decode w = .error e := by
  cases hdec : decode w with
  | ok i => exact absurd ((exists_decode_iff_mem_legalWords w).mp ⟨i, hdec⟩) h
  | error e => exact ⟨e, rfl⟩

/-- Settles O2: the list by evaluation, its words by `exists_decode_iff_mem_legalWords`. -/
theorem legalWordsAreTheListedTwentySix : Obligations.LegalWordsAreTheListedTwentySix :=
  ⟨by decide, rfl, exists_decode_iff_mem_legalWords⟩

/-- Settles O4: each of the seven is the word the encoder writes for its command. -/
theorem writtenOutWordsDecode : Obligations.WrittenOutWordsDecode :=
  ⟨decode_encode .srst, decode_encode .rdbe5, decode_encode .wrbe3, decode_encode .ctrdecMac, decode_encode .sngenc,
    decode_encode .tocdec, decode_encode .blkdec⟩

/-! ### The field rules -/

/-- The format of an opcode, as the opcode map's column gives it (spec/30_encoding.md R92, R93). -/
def opcodeFormat : Opcode → Format
  | .rdbe | .wrbe | .rdle | .wrle => .w
  | .ctrdec | .ctrenc => .k
  | .srst | .ztype | .ivld | .ivinc | .sngdet | .sngprobe | .sngdec | .sngenc | .tocdec | .tocenc | .inflate
  | .blkdec => .n

/-- The field rules list the opcodes of the decoder's map, each with its format (spec/30_encoding.md R93). -/
theorem opcFormat_eq_lookup (opc : BitVec 8) : opcFormat opc = (opcodeMap.lookup opc).map opcodeFormat := by
  revert opc
  decide

/-- The live field is legal and the dead fields are zero (spec/30_encoding.md R92, R94, R95). -/
def modifiersLegal (f : CmdFields) : Format → Prop
  | .n => f.width = 0 ∧ f.ksel = 0
  | .w => f.ksel = 0 ∧ widthLegal f.opc f.width = true
  | .k => f.width = 0 ∧ kselLegal f.ksel = true

/-- The field rules, by the decoder's opcode map. -/
theorem wellFormed_iff (f : CmdFields) :
    f.wellFormed = true ↔ (f.zero11 = 0 ∧ f.zeroHi = 0) ∧
      ∃ op, opcodeMap.lookup f.opc = some op ∧ modifiersLegal f (opcodeFormat op) := by
  rw [CmdFields.wellFormed, opcFormat_eq_lookup]
  cases opcodeMap.lookup f.opc with
  | none => simp
  | some op => cases hfmt : opcodeFormat op <;> simp [hfmt, modifiersLegal]

theorem exists_decodePlain_iff (f : CmdFields) (j : Instr) :
    (∃ i, decodePlain f j = .ok i) ↔ modifiersLegal f .n := by
  unfold decodePlain modifiersLegal
  split <;> simp_all

theorem exists_decodeKey_iff (f : CmdFields) (pc mac : Instr) :
    (∃ i, decodeKey f pc mac = .ok i) ↔ modifiersLegal f .k := by
  unfold decodeKey modifiersLegal kselLegal
  split_ifs <;> simp_all

/-- A format-W word decodes when the decoder's list of widths is the one of the rule (spec/30_encoding.md R94). -/
theorem exists_decodeWidth_iff {f : CmdFields} {widths : List (BitVec 3 × Instr)}
    (h : ∀ w, widthLegal f.opc w = (widths.lookup w).isSome) :
    (∃ i, decodeWidth f widths = .ok i) ↔ modifiersLegal f .w := by
  unfold decodeWidth modifiersLegal
  rw [h]
  cases widths.lookup f.width <;> split <;> simp_all

/-- The decoder of an opcode accepts exactly what its format admits (spec/30_encoding.md R92 to R95). -/
theorem exists_decodeOpcode_iff {f : CmdFields} {op : Opcode} (hop : opcodeMap.lookup f.opc = some op) :
    (∃ i, decodeOpcode f op = .ok i) ↔ modifiersLegal f (opcodeFormat op) := by
  have hmem := mem_of_lookup_eq_some hop
  cases op with
  | rdbe | wrbe | rdle | wrle =>
    refine exists_decodeWidth_iff ?_
    obtain hopc : f.opc = _ := by simpa [opcodeMap] using hmem
    rw [hopc]
    decide
  | ctrdec | ctrenc => exact exists_decodeKey_iff f _ _
  | srst | ztype | ivld | ivinc | sngdet | sngprobe | sngdec | sngenc | tocdec | tocenc | inflate | blkdec =>
    exact exists_decodePlain_iff f _

/-- The decoder accepts the fields that meet the field rules (spec/30_encoding.md R91 to R95). -/
theorem exists_decodeFields_iff (f : CmdFields) : (∃ i, decodeFields f = .ok i) ↔ f.wellFormed = true := by
  rw [wellFormed_iff]
  by_cases hz : f.zero11 = 0 ∧ f.zeroHi = 0
  · rw [decodeFields, if_pos hz]
    cases hop : opcodeMap.lookup f.opc with
    | none => simp
    | some op =>
      rw [exists_decodeOpcode_iff hop]
      simp [hz]
  · rw [decodeFields, if_neg hz]
    exact iff_of_false nofun fun ⟨hzero, _⟩ => hz hzero

/-- Settles O3: `exists_decodeFields_iff` at the fields of the word. -/
theorem decoderFollowsTheFieldRules : Obligations.DecoderFollowsTheFieldRules :=
  fun w => exists_decodeFields_iff (CmdFields.ofWord w)

/-! ### A pending write of `CMD` -/

/-- A pending write at offset 0 stores and runs the word (spec/10_state.md R30, R38). -/
theorem step_writeWord_cmd {s : State} {w : Word} {rest : List HostAction} (h : s.inputs = .writeWord 0x00 w :: rest) :
    step s = runCommand w { s with inputs := rest, reply := .none } := by
  have hlow : 0 < s.cfg.memBase := low_of_lt (by decide)
  rw [step_pending h]
  dsimp only [hostStep, hostWriteWord]
  rw [if_neg (Nat.not_le.mpr hlow)]
  rfl

theorem runCommand_of_ok {w : Word} {i : Instr} (hdec : decode w = .ok i) (s : State) :
    runCommand w s = exec i (s.writeReg w .cmd) := by
  simp only [runCommand, hdec]

theorem runCommand_of_error {w : Word} {e : Illegal} (hdec : decode w = .error e) (s : State) :
    runCommand w s = .next ((s.writeReg w .cmd).raise .illegalCmd) := by
  simp only [runCommand, hdec]

/-- Settles O5: the pending write stores the word and runs the command it decodes to. -/
theorem stepRunsTheDecodedCommand : Obligations.StepRunsTheDecodedCommand := by
  intro s w rest i h hdec _
  rw [step_writeWord_cmd h, runCommand_of_ok hdec]
  rfl

/-- Settles O6: the decoder rejects the word, and `raise` writes `STATUS` only. -/
theorem illegalWordChangesNothingElse : Obligations.IllegalWordChangesNothingElse := by
  intro s w rest h hw
  obtain ⟨e, hdec⟩ := decode_eq_error_of_not_mem hw
  rw [step_writeWord_cmd h, runCommand_of_error hdec, raise_eq _ .illegalCmd nofun]
  rfl

end Sys2Proof.Machine
end

section
/-! SUPPORT. The integer codec (spec/40_intcodec.md): the value of the bytes in `MEM` as a sum, what a codec read and a
codec write do in either byte order, and what one undoes of the other. -/

namespace Sys2Proof.Machine

/-! ### The two byte orders -/

/-- What the two byte orders of spec/00_scope.md R11 share: `layout` lays a value out in `n` bytes, `value` is the
integer of a byte sequence, and on `n` bytes the two are inverse to each other. -/
structure ByteOrder (value : List Byte → Nat) (layout : Nat → Nat → List Byte) : Prop where
  length : ∀ v n, (layout v n).length = n
  value_lt : ∀ bs, value bs < 256 ^ bs.length
  value_layout : ∀ v n, value (layout v n) = v % 256 ^ n
  layout_value : ∀ bs, layout (value bs) bs.length = bs

theorem byteOrder_be : ByteOrder beNat toBE := ⟨toBE_length, beNat_lt, beNat_toBE, toBE_beNat⟩

theorem byteOrder_le : ByteOrder leNat toLE := ⟨toLE_length, leNat_lt, leNat_toLE, toLE_leNat⟩

/-- `LE` of the bytes of a range, by their weights (spec/00_scope.md R11). -/
theorem leNat_readBytes (s : State) (a n : Nat) :
    leNat (s.readBytes a n) = ∑ j ∈ Finset.range n, (s.byteAt (a + j)).toNat * 256 ^ j := by
  rw [readBytes_eq_map_range]
  induction n with
  | zero => rfl
  | succ n ih =>
    rw [List.range_succ, List.map_append, leNat_append, ih, Finset.sum_range_succ]
    simp [leNat, Nat.mul_comm]

/-- The value of a sequence extended at its least significant end. -/
theorem beNat_concat (bs : List Byte) (b : Byte) : beNat (bs ++ [b]) = beNat bs * 256 + b.toNat :=
  List.foldl_append

/-- `BE` of the bytes of a range, by their weights (spec/00_scope.md R11). -/
theorem beNat_readBytes (s : State) (a n : Nat) :
    beNat (s.readBytes a n) = ∑ j ∈ Finset.range n, (s.byteAt (a + j)).toNat * 256 ^ (n - 1 - j) := by
  rw [readBytes_eq_map_range]
  induction n with
  | zero => rfl
  | succ n ih =>
    have hweight : ∀ j ∈ Finset.range n, (s.byteAt (a + j)).toNat * 256 ^ (n - 1 - j) * 256
        = (s.byteAt (a + j)).toNat * 256 ^ (n + 1 - 1 - j) := fun j hj => by
      have hj := Finset.mem_range.mp hj
      rw [Nat.mul_assoc, ← Nat.pow_succ, show (n - 1 - j).succ = n + 1 - 1 - j by omega]
    rw [List.range_succ, List.map_append, List.map_singleton, beNat_concat, ih, Finset.sum_mul,
      Finset.sum_congr rfl hweight, Finset.sum_range_succ]
    simp

theorem toBE_getD_toNat (v : Nat) {n j : Nat} (hj : j < n) :
    ((toBE v n).getD j 0).toNat = v / 256 ^ (n - 1 - j) % 256 := by
  rw [List.getD_eq_getElem?_getD, toBE_getElem?, if_pos hj]
  exact BitVec.toNat_ofNat _ _

theorem toLE_getD_toNat (v : Nat) {n j : Nat} (hj : j < n) :
    ((toLE v n).getD j 0).toNat = v / 256 ^ j % 256 := by
  rw [List.getD_eq_getElem?_getD, toLE_getElem?, if_pos hj]
  exact BitVec.toNat_ofNat _ _

/-! ### The codec commands by byte order and width -/

theorem exec_rdbe {w : Nat} {i : Instr} (h : (w, i) ∈ rdbeCommands) (s : State) :
    exec i s = .next (codecRead beNat w s) := by
  simp only [rdbeCommands, List.mem_cons, List.not_mem_nil, or_false, Prod.mk.injEq] at h
  obtain ⟨rfl, rfl⟩ | ⟨rfl, rfl⟩ | ⟨rfl, rfl⟩ | ⟨rfl, rfl⟩ := h <;> rfl

theorem exec_wrbe {w : Nat} {i : Instr} (h : (w, i) ∈ wrbeCommands) (s : State) :
    exec i s = .next (codecWrite toBE w s) := by
  simp only [wrbeCommands, List.mem_cons, List.not_mem_nil, or_false, Prod.mk.injEq] at h
  obtain ⟨rfl, rfl⟩ | ⟨rfl, rfl⟩ | ⟨rfl, rfl⟩ | ⟨rfl, rfl⟩ := h <;> rfl

theorem exec_rdle4 (s : State) : exec .rdle4 s = .next (codecRead leNat 4 s) := rfl

theorem exec_wrle4 (s : State) : exec .wrle4 s = .next (codecWrite toLE 4 s) := rfl

/-- The words of the big-endian reads: opcode 0x10, the width beside it (spec/30_encoding.md R93, R94). -/
theorem encode_rdbe : ∀ c ∈ rdbeCommands, encode c.2 = BitVec.ofNat 32 (0x10 + c.1 * 2 ^ 8) := by decide

/-- The words of the big-endian writes: opcode 0x11, the width beside it (spec/30_encoding.md R93, R94). -/
theorem encode_wrbe : ∀ c ∈ wrbeCommands, encode c.2 = BitVec.ofNat 32 (0x11 + c.1 * 2 ^ 8) := by decide

/-- No big-endian read is wider than the 40 bits of `VAL` (spec/10_state.md R27). -/
theorem width_rdbe : ∀ c ∈ rdbeCommands, c.1 ≤ 5 := by decide

/-- A pair is a big-endian write and read of one width, or the little-endian pair (spec/40_intcodec.md R127). -/
theorem codecPairs_split : ∀ p ∈ codecPairs,
    ((p.1, p.2.1) ∈ wrbeCommands ∧ (p.1, p.2.2) ∈ rdbeCommands) ∨ p = (4, .wrle4, .rdle4) := by decide

/-- The commands of a pair write and read the same number of bytes, at most five, in one and the same byte order
(spec/40_intcodec.md R127). -/
theorem codecPairs_share_order {w : Nat} {wr rd : Instr} (h : (w, wr, rd) ∈ codecPairs) :
    w ≤ 5 ∧ ∃ value layout, ByteOrder value layout ∧
      (∀ s, exec wr s = .next (codecWrite layout w s)) ∧ ∀ s, exec rd s = .next (codecRead value w s) := by
  obtain ⟨hwr, hrd⟩ | hle := codecPairs_split _ h
  · exact ⟨width_rdbe _ hrd, _, _, byteOrder_be, exec_wrbe hwr, exec_rdbe hrd⟩
  · cases hle
    exact ⟨by decide, _, _, byteOrder_le, exec_wrle4, exec_rdle4⟩

/-! ### What a codec command does -/

/-- A cursor moved past a range of `MEM` does not wrap: `MEMSIZE` is at most 2^31 (spec/00_scope.md R6,
spec/20_memory.md R61). -/
theorem cursor_add_toNat {c : Config} {a : Word} {w : Nat} (h : InBounds c a.toNat w) :
    (a + BitVec.ofNat 32 w).toNat = a.toNat + w := by
  have hle := c.memSize_le
  rw [BitVec.toNat_add, BitVec.toNat_ofNat]
  omega

section
variable {value : List Byte → Nat} {layout : Nat → Nat → List Byte} {w : Nat} {s : State}

theorem codecRead_inBounds (value : List Byte → Nat) (hin : InBounds s.cfg s.src.toNat w) :
    codecRead value w s = { s with
      val := BitVec.ofNat 40 (value (s.readBytes s.src.toNat w))
      src := s.src + BitVec.ofNat 32 w
      status := s.okStatus } := by
  obtain ⟨-, h⟩ | ⟨hout, -⟩ := codecRead_spec value w s
  · exact h
  · exact absurd hin hout

theorem codecRead_beyond (value : List Byte → Nat) (hout : s.cfg.memSize < s.src.toNat + w) :
    codecRead value w s = s.faulted .bounds := by
  obtain ⟨hin, -⟩ | ⟨-, h⟩ := codecRead_spec value w s
  · exact absurd hin (Nat.not_le.mpr hout)
  · exact h

theorem codecWrite_tooLarge (layout : Nat → Nat → List Byte) (hval : 2 ^ (8 * w) ≤ s.val.toNat) :
    codecWrite layout w s = s.faulted .range := by
  obtain ⟨-, h⟩ | ⟨hfits, -⟩ | ⟨hfits, -⟩ := codecWrite_spec layout w s
  · exact h
  all_goals exact absurd hval (Nat.not_le.mpr hfits)

theorem codecWrite_beyond (layout : Nat → Nat → List Byte) (hfits : s.val.toNat < 2 ^ (8 * w))
    (hout : s.cfg.memSize < s.dst.toNat + w) : codecWrite layout w s = s.faulted .bounds := by
  obtain ⟨hval, -⟩ | ⟨-, -, h⟩ | ⟨-, hin, -⟩ := codecWrite_spec layout w s
  · exact absurd hfits (Nat.not_lt.mpr hval)
  · exact h
  · exact absurd hin (Nat.not_le.mpr hout)

theorem codecWrite_inBounds (layout : Nat → Nat → List Byte) (hfits : s.val.toNat < 2 ^ (8 * w))
    (hin : InBounds s.cfg s.dst.toNat w) :
    codecWrite layout w s = { s.writeBytes s.dst.toNat (layout s.val.toNat w) with
      dst := s.dst + BitVec.ofNat 32 w
      status := s.okStatus } := by
  obtain ⟨hval, -⟩ | ⟨-, hout, -⟩ | ⟨-, -, h⟩ := codecWrite_spec layout w s
  · exact absurd hfits (Nat.not_lt.mpr hval)
  · exact absurd hin hout
  · exact h

/-- The value of `w` bytes is below `2^(8w)`, the bound of the range check (spec/40_intcodec.md R122). -/
theorem ByteOrder.value_readBytes_lt (ho : ByteOrder value layout) (s : State) (a w : Nat) :
    value (s.readBytes a w) < 2 ^ (8 * w) := by
  rw [Nat.pow_mul]
  exact (ho.value_lt _).trans_eq (by rw [readBytes_length])

/-- `VAL` holds the value of up to five bytes uncut (spec/10_state.md R27). -/
theorem ByteOrder.toNat_val (ho : ByteOrder value layout) (hw : w ≤ 5) (s : State) (a : Nat) :
    (BitVec.ofNat 40 (value (s.readBytes a w))).toNat = value (s.readBytes a w) := by
  have hlt := ho.value_readBytes_lt s a w
  have hpow : 2 ^ (8 * w) ≤ 2 ^ 40 := Nat.pow_le_pow_right (by decide) (by omega)
  rw [BitVec.toNat_ofNat, Nat.mod_eq_of_lt (hlt.trans_le hpow)]

/-- A codec read in bounds: the value read, the cursor moved, and nothing else but `STATUS` (spec/40_intcodec.md R121,
R123). -/
theorem codecRead_reads (ho : ByteOrder value layout) (hw : w ≤ 5) (hin : InBounds s.cfg s.src.toNat w) :
    ∃ t, codecRead value w s = t ∧ t.val.toNat = value (s.readBytes s.src.toNat w) ∧
      t.src.toNat = s.src.toNat + w ∧ t = { s with val := t.val, src := t.src, status := s.okStatus } :=
  ⟨_, codecRead_inBounds value hin, ho.toNat_val hw s _, cursor_add_toNat hin, rfl⟩

/-- A codec write in bounds of a value that fits: its bytes stored, the cursor moved, and nothing else but `STATUS`
(spec/40_intcodec.md R122, R124). -/
theorem codecWrite_writes (ho : ByteOrder value layout) (hfits : s.val.toNat < 2 ^ (8 * w))
    (hin : InBounds s.cfg s.dst.toNat w) :
    ∃ t, codecWrite layout w s = t ∧
      (∀ j, j < w → t.byteAt (s.dst.toNat + j) = (layout s.val.toNat w).getD j 0) ∧
      (∀ a, a < s.dst.toNat ∨ s.dst.toNat + w ≤ a → t.byteAt a = s.byteAt a) ∧
      t.dst.toNat = s.dst.toNat + w ∧ t = { s with mem := t.mem, dst := t.dst, status := s.okStatus } := by
  obtain ⟨hbytes, hframe⟩ := writeBytes_storesAt s s.dst.toNat (layout s.val.toNat w)
  rw [ho.length] at hbytes hframe
  exact ⟨_, codecWrite_inBounds layout hfits hin, hbytes, hframe, cursor_add_toNat hin, rfl⟩

/-- After a codec write the bytes at the old cursor are the layout of `VAL`. -/
theorem codecWrite_readBytes (ho : ByteOrder value layout) (hfits : s.val.toNat < 2 ^ (8 * w))
    (hin : InBounds s.cfg s.dst.toNat w) :
    (codecWrite layout w s).readBytes s.dst.toNat w = layout s.val.toNat w := by
  have hback := readBytes_writeBytes s s.dst.toNat (layout s.val.toNat w)
  rw [ho.length] at hback
  rw [codecWrite_inBounds layout hfits hin]
  exact Eq.trans (readBytes_of_mem (by rfl) (by rfl) _ _) hback

/-- Writing a value that fits and reading it back at the same address gives the value (spec/40_intcodec.md R127). -/
theorem codecRead_codecWrite_val (ho : ByteOrder value layout) (hfits : s.val.toNat < 2 ^ (8 * w))
    (hin : InBounds s.cfg s.dst.toNat w) :
    (codecRead value w { codecWrite layout w s with src := s.dst }).val = s.val := by
  have hcfg : (codecWrite layout w s).cfg = s.cfg := by rw [codecWrite_inBounds layout hfits hin]; rfl
  have hbytes : State.readBytes { codecWrite layout w s with src := s.dst } s.dst.toNat w = layout s.val.toNat w :=
    Eq.trans (readBytes_of_mem (by rfl) (by rfl) _ _) (codecWrite_readBytes ho hfits hin)
  have hvalue : value (layout s.val.toNat w) = s.val.toNat := by
    rw [ho.value_layout, Nat.mod_eq_of_lt (hfits.trans_eq (Nat.pow_mul ..))]
  rw [codecRead_inBounds value (hcfg ▸ hin)]
  dsimp only
  rw [hbytes, hvalue, BitVec.ofNat_toNat, BitVec.setWidth_eq]

/-- Reading bytes and writing the value elsewhere gives the bytes (spec/40_intcodec.md R127). -/
theorem codecWrite_codecRead_readBytes (ho : ByteOrder value layout) (hw : w ≤ 5)
    (hsrc : InBounds s.cfg s.src.toNat w) (hdst : InBounds s.cfg s.dst.toNat w) :
    (codecWrite layout w (codecRead value w s)).readBytes s.dst.toNat w = s.readBytes s.src.toNat w := by
  obtain ⟨t, hread, hval, -, hframe⟩ := codecRead_reads ho hw hsrc
  have hcfg : t.cfg = s.cfg := by rw [hframe]
  have hcur : t.dst = s.dst := by rw [hframe]
  have hfits : t.val.toNat < 2 ^ (8 * w) := hval ▸ ho.value_readBytes_lt s _ w
  have hback := ho.layout_value (s.readBytes s.src.toNat w)
  rw [readBytes_length] at hback
  rw [hread, ← hcur, codecWrite_readBytes ho hfits (hcfg ▸ hcur ▸ hdst), hval, hback]

end

/-! ### The statements of the family -/

/-- Settles O20: a codec read in the big-endian order, whose value is the sum of the bytes by their weights. -/
theorem rdbeReadsBigEndian : Obligations.RdbeReadsBigEndian := by
  intro s w i hi
  rw [← encode_rdbe _ hi, exec_rdbe hi]
  refine ⟨decode_encode i, fun hin => ?_, fun hout => congrArg _ (codecRead_beyond beNat hout)⟩
  obtain ⟨t, hread, hval, hsrc, hframe⟩ := codecRead_reads byteOrder_be (width_rdbe _ hi) hin
  exact ⟨t, congrArg _ hread, hval.trans (beNat_readBytes ..), hsrc, hframe⟩

/-- Settles O21: a codec read in the little-endian order, whose value is the sum of the bytes by their weights. -/
theorem rdleReadsLittleEndian : Obligations.RdleReadsLittleEndian := by
  intro s
  rw [exec_rdle4]
  refine ⟨decode_encode .rdle4, fun hin => ?_, fun hout => congrArg _ (codecRead_beyond leNat hout)⟩
  obtain ⟨t, hread, hval, hsrc, hframe⟩ := codecRead_reads byteOrder_le (by decide) hin
  exact ⟨t, congrArg _ hread, hval.trans (leNat_readBytes ..), hsrc, hframe⟩

/-- Settles O22: a codec write in the big-endian order; the three outcomes of its two checks. -/
theorem wrbeWritesBigEndian : Obligations.WrbeWritesBigEndian := by
  intro s w i hi
  rw [← encode_wrbe _ hi, exec_wrbe hi]
  refine ⟨decode_encode i, fun hval => congrArg _ (codecWrite_tooLarge toBE hval),
    fun hfits hout => congrArg _ (codecWrite_beyond toBE hfits hout), fun hfits hin => ?_⟩
  obtain ⟨t, hwrite, hbytes, hrest⟩ := codecWrite_writes byteOrder_be hfits hin
  exact ⟨t, congrArg _ hwrite, fun j hj => by rw [hbytes j hj, toBE_getD_toNat _ hj], hrest⟩

/-- Settles O23: a codec write in the little-endian order; the three outcomes of its two checks. -/
theorem wrleWritesLittleEndian : Obligations.WrleWritesLittleEndian := by
  intro s
  rw [exec_wrle4]
  refine ⟨decode_encode .wrle4, fun hval => congrArg _ (codecWrite_tooLarge toLE hval),
    fun hfits hout => congrArg _ (codecWrite_beyond toLE hfits hout), fun hfits hin => ?_⟩
  obtain ⟨t, hwrite, hbytes, hrest⟩ := codecWrite_writes byteOrder_le hfits hin
  exact ⟨t, congrArg _ hwrite, fun j hj => by rw [hbytes j hj, toLE_getD_toNat _ hj], hrest⟩

/-- Settles O25: each pair shares one byte order, and the two round trips hold in either. -/
theorem codecRoundTrips : Obligations.CodecRoundTrips := by
  intro s w wr rd h
  obtain ⟨hw, value, layout, ho, hwr, hrd⟩ := codecPairs_share_order h
  exact ⟨fun hfits hin => ⟨_, _, hwr s, hrd _, codecRead_codecWrite_val ho hfits hin⟩,
    fun hsrc hdst => ⟨_, _, hrd s, hwr _, codecWrite_codecRead_readBytes ho hw hsrc hdst⟩⟩

/-- Settles O24: `done` writes `STATUS` only, and the loop of `ZType` in closed form is `zType_eq`. -/
theorem ztypeGivesTheFieldWidth : Obligations.ZtypeGivesTheFieldWidth := by
  intro s
  have hwidth : BitVec.ofNat 40 (zType s.bsize)
      = if s.bsize.toNat ≤ 65536 then 2 else if s.bsize.toNat ≤ 16777216 then 3 else 4 := by
    rw [zType_eq, apply_ite (BitVec.ofNat 40), apply_ite (BitVec.ofNat 40)]
    rfl
  have hexec : exec .ztype s = .next { s with val := BitVec.ofNat 40 (zType s.bsize) }.done := rfl
  rw [hexec, done_eq, hwidth]
  rfl

end Sys2Proof.Machine
end

section
/-! SUPPORT. The S-box and its field (spec/41_aes256.md R155): one step of the field's product as a use of `xtime`, the
byte that the affine map takes to an entry of the table, and that byte as the inverse of the entry's index. -/

namespace Sys2Proof.Machine

/-! ### The field's product by the lowest bits of its second factor -/

/-- One step of the product: the factor's own doubling is `xtime`. -/
theorem gfMulBits_succ (a b : Byte) (n : Nat) :
    gfMulBits a b (n + 1) = (if b.getLsbD 0 then a else 0) ^^^ gfMulBits (xtime a) (b >>> 1) n := by
  have hdouble : (a <<< 1) ^^^ (if a.getLsbD 7 then 0x1B else 0) = xtime a := by
    rw [xtime, show a.msb = a.getLsbD 7 from rfl]
    split <;> simp
  rw [gfMulBits, hdouble]

theorem gfMulBits_zero_right (a : Byte) (n : Nat) : gfMulBits a 0 n = 0 := by
  induction n generalizing a with
  | zero => rfl
  | succ n ih => rw [gfMulBits_succ, show (0 : Byte) >>> 1 = 0 from rfl, ih]; simp

theorem gfMulBits_one_right (a : Byte) (n : Nat) : gfMulBits a 1 (n + 1) = a := by
  rw [gfMulBits_succ, show (1 : Byte) >>> 1 = 0 from rfl, gfMulBits_zero_right]
  simp

theorem gfMul_two (a : Byte) : gfMul a 2 = xtime a := by
  rw [gfMul, gfMulBits_succ, show (2 : Byte) >>> 1 = 1 from rfl, gfMulBits_one_right]
  simp

theorem gfMul_three (a : Byte) : gfMul a 3 = times3 a := by
  rw [gfMul, gfMulBits_succ, show (3 : Byte) >>> 1 = 1 from rfl, gfMulBits_one_right, times3, BitVec.xor_comm]
  simp

/-! ### The inverse, read back from the table -/

/-- The affine map of the S-box undone: bit `i` of the result is `y[i+2]`, `y[i+5]`, `y[i+7]` (indices modulo 8) and
bit `i` of 0x05 added up. -/
def sBoxUnaffine (y : Byte) : Byte :=
  y.rotateRight 2 ^^^ y.rotateRight 5 ^^^ y.rotateRight 7 ^^^ 0x05

theorem sBoxAffine_sBoxUnaffine : ∀ y : Byte, sBoxAffine (sBoxUnaffine y) = y := by
  decide +kernel

theorem sBoxUnaffine_sBox_zero : sBoxUnaffine (sBox 0) = 0 := by
  decide

/-- Every entry of the table but the first, with the affine map undone, is its index's inverse. -/
theorem gfMul_sBoxUnaffine_sBox : ∀ x : Byte, x ≠ 0 → gfMul x (sBoxUnaffine (sBox x)) = 1 := by
  decide +kernel

/-! ### The statement of the family -/

/-- Settles O31: the inverse of an index is its entry with the affine map undone, and the factors 02 and 03 have only
their two lowest bits. -/
theorem sBoxIsInverseThenAffine : Obligations.SBoxIsInverseThenAffine :=
  ⟨fun x => ⟨sBoxUnaffine (sBox x), fun hx => hx ▸ sBoxUnaffine_sBox_zero, gfMul_sBoxUnaffine_sBox x,
      (sBoxAffine_sBoxUnaffine (sBox x)).symm⟩,
    fun a => ⟨(gfMul_two a).symm, (gfMul_three a).symm⟩⟩

end Sys2Proof.Machine
end

section
/-! SUPPORT. The counter mode (spec/42_ctr_sng.md R181 to R186, R195): the carry loop of the counter, each byte of the
mode's output by the byte of the data at its place, and what a store of that output leaves in `MEM`. -/

namespace Sys2Proof.Machine

/-! ### The bytes of the counter -/

/-- `toLE` drops what its bytes cannot hold. -/
theorem toLE_mod (v n : Nat) : toLE (v % 256 ^ n) n = toLE v n := by
  have h := toLE_leNat (toLE v n)
  rwa [leNat_toLE, toLE_length] at h

/-- The carry loop of spec/42_ctr_sng.md R181 adds one: the carry leaves a byte that wrapped to 0 and no other. -/
theorem toLE_succ (v n : Nat) : toLE (v + 1) n = incBytesLe (toLE v n) := by
  induction n generalizing v with
  | zero => rfl
  | succ n ih =>
    have hlow : BitVec.ofNat 8 (v + 1) = BitVec.ofNat 8 v + 1 := BitVec.ofNat_add ..
    have hwrap : BitVec.ofNat 8 (v + 1) = 0 ↔ (v + 1) % 256 = 0 := by
      rw [BitVec.toNat_eq, BitVec.toNat_ofNat]
      rfl
    simp only [toLE, incBytesLe, ← hlow, ne_eq, hwrap]
    split
    · rw [show (v + 1) / 256 = v / 256 by omega]
    · rw [show (v + 1) / 256 = v / 256 + 1 by omega, ih]

theorem inc128_toNat (iv : Block) : (inc128 iv).toNat = (iv.toNat + 1) % 2 ^ 128 :=
  BitVec.toNat_add iv 1

/-- The value of the counter's bytes is the counter (spec/10_state.md R35). -/
theorem beNat_blockBytes (b : Block) : beNat (blockBytes b) = b.toNat := by
  rw [blockBytes, beNat_toBE]
  exact Nat.mod_eq_of_lt b.isLt

/-- The increment as the carry loop from byte 15 down (spec/42_ctr_sng.md R181). -/
theorem blockBytes_inc128_reverse (iv : Block) :
    (blockBytes (inc128 iv)).reverse = incBytesLe (blockBytes iv).reverse := by
  simp only [blockBytes, toBE, List.reverse_reverse]
  rw [inc128_toNat, show 2 ^ 128 = 256 ^ 16 by norm_num, toLE_mod, toLE_succ]

/-- Settles O27: the increment by its value, and by its bytes. -/
theorem ivincCarriesFromByteFifteen : Obligations.IvincCarriesFromByteFifteen := by
  intro s
  have hexec : exec .ivinc s = .next { s with iv := inc128 s.iv }.done := rfl
  rw [done_eq] at hexec
  refine ⟨_, hexec, ?_, blockBytes_inc128_reverse s.iv, rfl⟩
  rw [beNat_blockBytes, beNat_blockBytes]
  exact inc128_toNat s.iv

/-! ### The counter mode byte by byte -/

/-- Each byte of the counter mode's output is the data's byte at its place, xored with the keystream's
(spec/42_ctr_sng.md R182). -/
theorem ctrXform_getElem?_map (k : Key) (iv : Block) (d : List Byte) (i : Nat) :
    (ctrXform k iv d).1[i]? = d[i]?.map (· ^^^ keystreamByte k iv i) := by
  by_cases hi : i < d.length
  · rw [ctrXform_getElem? k iv d i hi]
    simp [hi]
  · rw [List.getElem?_eq_none (by simpa using hi), List.getElem?_eq_none (by simpa using hi)]
    rfl

/-- The counter mode undoes itself (spec/42_ctr_sng.md R195). -/
theorem ctrXform_ctrXform (k : Key) (iv : Block) (d : List Byte) : (ctrXform k iv (ctrXform k iv d).1).1 = d := by
  apply List.ext_getElem?
  intro i
  rw [ctrXform_getElem?_map, ctrXform_getElem?_map]
  cases d[i]? with
  | none => rfl
  | some b => simp

/-- Settles O29: xoring twice with one keystream, which does not depend on the data. -/
theorem counterModeUndoesItself : Obligations.CounterModeUndoesItself := by
  intro k iv d e i
  refine ⟨ctrXform_ctrXform k iv d, fun _ hi => ?_⟩
  rw [ctrXform_getElem?_map, ctrXform_getElem?_map, hi]

/-! ### The counter mode on `MEM` -/

/-- `t` holds at `dst` the `n` bytes that `s` holds at `src`, xored with the keystream, and every other byte as `s`
does (spec/42_ctr_sng.md R182). -/
theorem byteAt_of_ctrXform_stored {s t : State} {k : Key} {iv : Block} {src dst n : Nat}
    (hmem : t.mem = (s.writeBytes dst (ctrXform k iv (s.readBytes src n)).1).mem) (hdraw : t.draw = s.draw) :
    (∀ j, j < n → t.byteAt (dst + j) = s.byteAt (src + j) ^^^ keystreamByte k iv j) ∧
      ∀ a, a < dst ∨ dst + n ≤ a → t.byteAt a = s.byteAt a := by
  have hread : ∀ a, t.byteAt a = (s.writeBytes dst (ctrXform k iv (s.readBytes src n)).1).byteAt a :=
    byteAt_of_mem hmem hdraw
  obtain ⟨hbytes, hframe⟩ := writeBytes_storesAt s dst (ctrXform k iv (s.readBytes src n)).1
  rw [ctrXform_length, readBytes_length] at hbytes hframe
  refine ⟨fun j hj => ?_, fun a ha => (hread a).trans (hframe a ha)⟩
  rw [hread, hbytes j hj, ctrXform_getD _ _ _ _ (by simpa using hj)]
  simp [hj]

theorem exec_counterCommand {i : Instr} {k : KeySel} (h : (i, k) ∈ counterCommands) (s : State) :
    exec i s = .next (counterCommand (keyOf s.cfg k) s) := by
  simp only [counterCommands, List.mem_cons, List.not_mem_nil, or_false, Prod.mk.injEq] at h
  obtain ⟨rfl, rfl⟩ | ⟨rfl, rfl⟩ | ⟨rfl, rfl⟩ | ⟨rfl, rfl⟩ := h <;> rfl

/-- A counter-mode command whose range checks fail (spec/20_memory.md R61, R70). -/
theorem counterCommand_fails (k : Key) {s : State} {e : ResultCode} (h : transformCheck s.beginData = some e) :
    counterCommand k s = s.dataFaulted e := by
  obtain ⟨hc, heq⟩ | ⟨hc, heq⟩ | ⟨hc, -⟩ := counterCommand_spec k s
  all_goals cases hc.symm.trans h
  all_goals exact heq

/-- A counter-mode command whose range checks pass: the bytes it stores, and nothing else but `IV`, the lengths and
`STATUS` (spec/42_ctr_sng.md R185, R186). -/
theorem counterCommand_stores (k : Key) {s : State} (h : transformCheck s.beginData = none) :
    ∃ t, counterCommand k s = t ∧
      (∀ j, j < s.len.toNat →
        t.byteAt (s.dst.toNat + j) = s.byteAt (s.src.toNat + j) ^^^ keystreamByte k s.iv j) ∧
      (∀ a, a < s.dst.toNat ∨ s.dst.toNat + s.len.toNat ≤ a → t.byteAt a = s.byteAt a) ∧
      t = { s with
        mem := t.mem
        iv := s.iv + BitVec.ofNat 128 ((s.len.toNat + 15) / 16)
        outlen := s.len, inlen := s.len
        status := s.okStatus } := by
  obtain ⟨hc, -⟩ | ⟨hc, -⟩ | ⟨-, heq⟩ := counterCommand_spec k s
  · cases hc.symm.trans h
  · cases hc.symm.trans h
  · obtain ⟨hbytes, hframe⟩ := byteAt_of_ctrXform_stored (s := s) (congrArg State.mem heq :) (congrArg State.draw heq :)
    exact ⟨_, rfl, hbytes, hframe, by rw [heq]; rfl⟩

/-- Settles O28: the range checks, which read no length register, pick the outcome. -/
theorem counterCommandsXorTheKeystream : Obligations.CounterCommandsXorTheKeystream := by
  intro s i k hi
  rw [exec_counterCommand hi]
  obtain ⟨hout, hc⟩ | ⟨hin, hov, hc⟩ | ⟨hin, hdisj, hc⟩ := transformCheck_spec s.beginData
  · exact ⟨fun _ => congrArg _ (counterCommand_fails _ hc), fun hin => absurd hin hout, fun hin => absurd hin hout⟩
  · exact ⟨absurd hin, fun _ _ => congrArg _ (counterCommand_fails _ hc), fun _ => absurd hov⟩
  · obtain ⟨t, heq, hstored⟩ := counterCommand_stores (keyOf s.cfg k) hc
    exact ⟨absurd hin, fun _ hov => absurd hov hdisj, fun _ _ => ⟨t, congrArg _ heq, hstored⟩⟩

/-! ### The counter loaded from `MEM` -/

/-- Byte `j` of a block read from `MEM` (spec/10_state.md R35). -/
theorem blockBytes_readBytes_getD (s : State) (a : Nat) {j : Nat} (hj : j < 16) :
    (blockBytes (bytesBlock (s.readBytes a 16))).getD j 0 = s.byteAt (a + j) := by
  rw [blockBytes_bytesBlock _ (readBytes_length s a 16)]
  simp [hj]

/-- Settles O26: the two outcomes of the bounds check. -/
theorem ivldLoadsSixteenBytes : Obligations.IvldLoadsSixteenBytes := by
  intro s
  obtain ⟨hin, h⟩ | ⟨hout, h⟩ := execIvld_spec s
  · exact ⟨fun _ => ⟨_, h, fun j hj => blockBytes_readBytes_getD s _ hj, rfl⟩,
      fun hbeyond => absurd hin hbeyond.not_ge⟩
  · exact ⟨fun hin => absurd hin hout, fun _ => h⟩

end Sys2Proof.Machine
end

section
/-! SUPPORT. The `.sng` containers (spec/42_ctr_sng.md R187 to R193): what the probe finds, the outcomes of each
command, and the round trip of `SNGENC` and `SNGDEC`. -/

namespace Sys2Proof.Machine

/-! ### Detection and probe -/

/-- The signature test finds one platform only (spec/42_ctr_sng.md R190). -/
theorem probesAs_unique {s : State} {base : Nat} {p q : Platform} (hp : probesAs s base p) (hq : probesAs s base q) :
    p = q :=
  ((probe_fst s base p).mpr hp).symm.trans ((probe_fst s base q).mpr hq)

theorem existsUnique_probesAs (s : State) (base : Nat) : ∃! p, probesAs s base p :=
  ⟨(probe s base).1, (probe_fst s base _).mp rfl, fun _ hq => probesAs_unique hq ((probe_fst s base _).mp rfl)⟩

/-- What `Probe` answers for a container (spec/42_ctr_sng.md R190). -/
theorem probe_eq {s : State} {base : Nat} {p : Platform} (hp : probesAs s base p) :
    probe s base = (p, containerIv s base) :=
  Prod.ext ((probe_fst s base p).mpr hp) (probe_iv s base)

/-- Settles O32: the two outcomes of the bounds check, and `Detect` as a test of the header bytes. -/
theorem sngdetDetectsTheHeader : Obligations.SngdetDetectsTheHeader := by
  intro s
  refine ⟨decode_encode .sngdet, ?_⟩
  obtain ⟨hin, h⟩ | ⟨hout, h⟩ := execSngdet_spec s
  · exact ⟨fun hbeyond => absurd hin hbeyond.not_ge, fun _ => ⟨_, h, detect_iff s _ _, rfl⟩⟩
  · exact ⟨fun _ => h, fun hin => absurd hin hout⟩

/-- Settles O33: the three outcomes of `SNGPROBE`, with the platform that the probe finds. -/
theorem sngprobeFindsThePlatform : Obligations.SngprobeFindsThePlatform := by
  intro s p
  refine ⟨existsUnique_probesAs s _, ?_⟩
  obtain ⟨hshort, h⟩ | ⟨hlen, hout, h⟩ | ⟨hlen, hin, h⟩ := execSngprobe_spec s
  · exact ⟨fun _ => h, fun hlen => absurd hshort hlen.not_gt, fun hlen => absurd hshort hlen.not_gt⟩
  · exact ⟨fun hshort => absurd hshort hlen.not_gt, fun _ _ => h, fun _ hin => absurd hin hout⟩
  · refine ⟨fun hshort => absurd hshort hlen.not_gt, fun _ hbeyond => absurd hin hbeyond.not_ge,
      fun _ _ hp => ⟨_, h, fun j hj => blockBytes_readBytes_getD s _ hj, ?_⟩⟩
    rw [probe_eq hp]

/-! ### `SNGDEC` -/

/-- Settles O36: each alternative of `execSngdec_spec` answers one clause and contradicts a hypothesis of every
other. -/
theorem sngdecChecksInOrder : Obligations.SngdecChecksInOrder := by
  intro s inb enc n
  obtain ⟨hout, h⟩ | ⟨hin, hplain, h⟩ | ⟨hin, henc, hshort, h⟩ | ⟨hin, henc, hlen, hout, h⟩ |
    ⟨hin, henc, hlen, hdst, -, h⟩ | ⟨⟨hin, henc, hlen, hdst, hdisj⟩, -⟩ | ⟨⟨hin, henc, hlen, hdst, hdisj⟩, -⟩ :=
    execSngdec_spec s
  · exact ⟨fun _ => h, (absurd · hout), (absurd · hout), (absurd · hout), (absurd · hout)⟩
  · exact ⟨absurd hin, fun _ _ => h, fun _ => (absurd · hplain), fun _ => (absurd · hplain),
      fun _ => (absurd · hplain)⟩
  · exact ⟨absurd hin, fun _ => absurd henc, fun _ _ _ => h, fun _ _ hlen => absurd hshort hlen.not_gt,
      fun _ _ hlen => absurd hshort hlen.not_gt⟩
  · exact ⟨absurd hin, fun _ => absurd henc, fun _ _ hshort => absurd hshort hlen.not_gt, fun _ _ _ _ => h,
      fun _ _ _ => (absurd · hout)⟩
  · exact ⟨absurd hin, fun _ => absurd henc, fun _ _ hshort => absurd hshort hlen.not_gt,
      fun _ _ _ hbeyond => absurd hdst hbeyond.not_ge, fun _ _ _ _ _ _ => h⟩
  all_goals
    exact ⟨absurd hin, fun _ => absurd henc, fun _ _ hshort => absurd hshort hlen.not_gt,
      fun _ _ _ hbeyond => absurd hdst hbeyond.not_ge, fun _ _ _ _ hplace hov => absurd ⟨hplace, hov⟩ hdisj⟩

/-- `SNGDEC` when all its checks pass goes on to the probe (spec/42_ctr_sng.md R192). -/
theorem execSngdec_ready {s : State} (hr : sngdecReady s) : exec .sngdec s = .next (sngDecrypt s.beginData) := by
  obtain ⟨hin, henc, hlen, hdst, hdisj⟩ := hr
  have hdet : detect s s.src.toNat s.len.toNat = true := (detect_iff s _ _).mpr henc
  show execSngdec s = _
  simp only [execSngdec, beginData_cfg, beginData_src, beginData_dst, beginData_len, detect_beginData, hin, hdet, hdst,
    hdisj, Nat.not_lt.mpr hlen, not_true_eq_false, Bool.true_eq_false, if_false]

/-- The probe that `SNGDEC` makes. -/
theorem probe_beginData_eq {s : State} {p : Platform} (hp : probesAs s s.src.toNat p) :
    probe s.beginData s.beginData.src.toNat = (p, containerIv s s.src.toNat) :=
  (probe_beginData s _).trans (probe_eq hp)

/-- Settles O35: no key belongs to the unknown platform. -/
theorem sngdecUnknownPlatformKeepsMemory : Obligations.SngdecUnknownPlatformKeepsMemory := by
  intro s hr hp
  have hprobe := probe_beginData_eq hp
  rw [execSngdec_ready hr]
  obtain ⟨-, h⟩ | ⟨k, hk, -⟩ := sngDecrypt_spec s.beginData
  · rw [h, hprobe]
    rfl
  · rw [hprobe] at hk
    cases hk

/-- Settles O34: the counter mode's output is stored at `DST`, under the key of the platform that the probe finds. -/
theorem sngdecDecryptsThePayload : Obligations.SngdecDecryptsThePayload := by
  intro s p k hr hp hk
  have hprobe := probe_beginData_eq hp
  obtain ⟨hunknown, -⟩ | ⟨k', hk', h⟩ := sngDecrypt_spec s.beginData
  · rw [hprobe] at hunknown
    cases hunknown
    cases hk
  · rw [hprobe] at hk' h
    obtain rfl : k' = k := Option.some.inj (hk'.symm.trans hk)
    rw [beginData_readBytes] at h
    obtain ⟨hbytes, hframe⟩ := byteAt_of_ctrXform_stored (s := s) (congrArg State.mem h :) (congrArg State.draw h :)
    exact ⟨_, execSngdec_ready hr, hbytes, hframe, by rw [h]; rfl⟩

/-! ### `SNGENC` -/

/-- Settles O39: each alternative of `execSngenc_wanted` answers one clause and contradicts a hypothesis of every
other. -/
theorem sngencChecksInOrder : Obligations.SngencChecksInOrder := by
  intro s k hw
  obtain ⟨hshort, h⟩ | ⟨hlen, hout, h⟩ | ⟨hlen, hin, -, h⟩ | ⟨hlen, hin, hdisj, -⟩ := execSngenc_wanted s k hw
  · exact ⟨fun _ => h, fun hlen => absurd hshort hlen.not_gt, fun hlen => absurd hshort hlen.not_gt⟩
  · exact ⟨fun hshort => absurd hshort hlen.not_gt, fun _ _ => h, fun _ => (absurd · hout)⟩
  · exact ⟨fun hshort => absurd hshort hlen.not_gt, fun _ => absurd hin, fun _ _ _ => h⟩
  · exact ⟨fun hshort => absurd hshort hlen.not_gt, fun _ => absurd hin, fun _ _ => (absurd · hdisj)⟩

/-- Settles O37: the counter mode's output is stored behind the container's header at `DST`. -/
theorem sngencEncryptsForTheTarget : Obligations.SngencEncryptsForTheTarget := by
  intro s k hw hlen hin hdisj
  obtain ⟨hshort, -⟩ | ⟨-, hout, -⟩ | ⟨-, -, hov, -⟩ | ⟨-, -, -, h⟩ := execSngenc_wanted s k hw
  · exact absurd hshort hlen.not_gt
  · exact absurd hin hout
  · exact absurd hov hdisj
  · refine ⟨_, h, ?_⟩
    obtain ⟨hbytes, hframe⟩ := byteAt_of_ctrXform_stored (s := s) (k := keyOf s.cfg k) (iv := containerIv s s.dst.toNat)
      (src := s.src.toNat) (dst := s.dst.toNat + 24) (n := s.len.toNat - 24) rfl rfl
    exact ⟨hbytes, fun a ha => hframe a (by omega), rfl⟩

/-- `SNGENC` leaves the container as it is: it is not encrypted, no target is named, or the target is its platform
(spec/42_ctr_sng.md R193). -/
def sngencIdle (s : State) : Prop :=
  s.ectx.enc = false ∨ s.ectx.tplat = .none ∨
    (s.ectx.plat = .pc ∧ s.ectx.tplat = .pc ∨ s.ectx.plat = .mac ∧ s.ectx.tplat = .mac)

theorem not_sngencIdle_of_wanted {s : State} {k : KeySel} (hw : sngencWanted s k) : ¬ sngencIdle s := by
  obtain ⟨henc, ht, p, hp, hne⟩ := hw
  rintro (hoff | hnone | ⟨hplat, htplat⟩ | ⟨hplat, htplat⟩)
  · cases henc.symm.trans hoff
  · rw [hnone] at ht
    cases ht
  all_goals
    rw [htplat] at ht
    rw [hplat] at hp
    cases ht
    cases hp
    exact hne rfl

theorem execSngenc_idle {s : State} (hidle : sngencIdle s) :
    exec .sngenc s = .next { s with outlen := 0, inlen := 0, status := s.okStatus } := by
  obtain ⟨-, h⟩ | ⟨henc, htarget, hunknown, -⟩ | ⟨k, hw, -⟩ := execSngenc_spec s
  · exact h
  · simp [sngencIdle, henc, htarget, hunknown] at hidle
  · exact absurd hidle (not_sngencIdle_of_wanted hw)

/-- Settles O38: the no-ops are the idle states, and an unknown platform has no key to differ from the target's. -/
theorem sngencNoOpsAndUnknownPlatform : Obligations.SngencNoOpsAndUnknownPlatform := by
  intro s
  refine ⟨fun hoff => execSngenc_idle (.inl hoff), fun _ hnone => execSngenc_idle (.inr (.inl hnone)),
    fun henc htarget hunknown => ?_, fun _ hsame => execSngenc_idle (.inr (.inr hsame))⟩
  obtain ⟨hidle, -⟩ | ⟨-, -, -, h⟩ | ⟨k, ⟨-, -, p, hp, -⟩, -⟩ := execSngenc_spec s
  · simp [henc, htarget, hunknown] at hidle
  · exact h
  · rw [hunknown] at hp
    cases hp

/-! ### The round trip -/

/-- A signature encrypted at its place in the payload shows under the key it was encrypted with (spec/42_ctr_sng.md
R190). -/
theorem showsSignature_of_encrypted {k : Key} {s : State} {base : Nat} {b4 b5 : Byte}
    (h4 : s.byteAt (base + 24 + 4) = b4 ^^^ keystreamByte k (containerIv s base) 4)
    (h5 : s.byteAt (base + 24 + 5) = b5 ^^^ keystreamByte k (containerIv s base) 5) (hsig : b4 ++ b5 = s.cfg.zsig) :
    showsSignature k s base := by
  rw [showsSignature, h4, h5]
  simpa using hsig

/-- A container whose signature shows under the key `k` is reported for `k`'s platform, unless `k` is the MAC key and
the PC key, tried first, shows it too (spec/42_ctr_sng.md R190). -/
theorem exists_probesAs_of_shows {s : State} {base : Nat} {k : KeySel} (h : showsSignature (keyOf s.cfg k) s base)
    (hpc : k = .mac → ¬ showsSignature s.cfg.keyPc s base) : ∃ p, probesAs s base p ∧ platformKey p = some k := by
  cases k with
  | pc => exact ⟨.pc, h, rfl⟩
  | mac => exact ⟨.mac, ⟨hpc rfl, h⟩, rfl⟩

theorem SameIn.looksEncrypted {s s' : State} {base len : Nat} (h : SameIn (base, 24) s s')
    (henc : looksEncrypted s base len) : looksEncrypted s' base len :=
  ⟨henc.1, fun j hj => (h _ ⟨by simp, by simp; omega⟩).trans (henc.2 j hj)⟩

theorem SameIn.containerIv {s s' : State} {base : Nat} (h : SameIn (base, 24) s s') :
    containerIv s' base = containerIv s base :=
  congrArg bytesBlock (h.readBytes (by omega) (by omega))

/-- Settles O40: `SNGENC` keeps the header, so `SNGDEC` starts from the same IV; the payload's signature makes the probe
find the target, and the two xors with one keystream cancel. -/
theorem sngencThenSngdecGivesThePlaintext : Obligations.SngencThenSngdecGivesThePlaintext := by
  intro s k d hw hlen hin hdisj henc hsig hdst hdisj'
  obtain ⟨t, hexec, hbytes, hframe, ht⟩ := sngencEncryptsForTheTarget s k hw hlen hin hdisj
  refine ⟨t, hexec, fun hpc => ?_⟩
  have hcfg : t.cfg = s.cfg := (congrArg State.cfg ht :)
  have htlen : t.len = s.len := (congrArg State.len ht :)
  have hheader : SameIn (s.dst.toNat, 24) s t := fun a ha => hframe a (.inl ha.2)
  have hiv : containerIv t s.dst.toNat = containerIv s s.dst.toNat := hheader.containerIv
  rw [← hiv, ← hcfg] at hbytes
  have hshows : showsSignature (keyOf t.cfg k) t s.dst.toNat :=
    showsSignature_of_encrypted (hbytes 4 (by omega)) (hbytes 5 (by omega)) (hsig.trans (by rw [hcfg]))
  rw [← hcfg] at hpc
  obtain ⟨p, hp, hk⟩ := exists_probesAs_of_shows hshows hpc
  obtain ⟨-, hcontainer⟩ := hin
  have hready : sngdecReady { t with src := s.dst, dst := d } := by
    simp only [sngdecReady, hcfg, htlen]
    exact ⟨hcontainer, hheader.looksEncrypted henc, hlen, hdst, hdisj'⟩
  obtain ⟨u, hexec', hbytes', -, hu⟩ := sngdecDecryptsThePayload { t with src := s.dst, dst := d } p k hready hp hk
  refine ⟨u, hexec', ?_, ?_, fun j hj => ?_⟩
  · rw [hu]; exact hk
  · rw [hu]; rfl
  · calc u.byteAt (d.toNat + j)
        = t.byteAt (s.dst.toNat + 24 + j) ^^^ keystreamByte (keyOf t.cfg k) (containerIv t s.dst.toNat) j :=
          hbytes' j (by rw [htlen]; exact hj)
      _ = s.byteAt (s.src.toNat + j) := by rw [hbytes j hj, BitVec.xor_assoc, BitVec.xor_self, BitVec.xor_zero]

end Sys2Proof.Machine
end

section
/-! SUPPORT. The truncated CFB mode (spec/43_toc_cfb.md R221 to R224): its two directions as inverses of each other, and
what a store of its output leaves in `MEM`. -/

namespace Sys2Proof.Machine

/-! ### The two directions -/

/-- The other direction of `TocCfb` (spec/43_toc_cfb.md R221). -/
def CfbDir.flip : CfbDir → CfbDir
  | .dec => .enc
  | .enc => .dec

/-- Both directions feed back the ciphertext, so exchanging the input and the output of a block together with the
direction keeps the feedback (spec/43_toc_cfb.md R221). -/
theorem cfbFeedback_flip (dir : CfbDir) (inp out : List Byte) :
    cfbFeedback dir.flip out inp = cfbFeedback dir inp out := by
  cases dir <;> rfl

/-- The blocks of one direction are undone by those of the other from the same feedback block. -/
theorem cfbBlocks_flip (w : KeySchedule) (dir : CfbDir) (n : Nat) (fb : Block) (data : List Byte)
    (hn : 16 * n ≤ data.length) : cfbBlocks w dir.flip n fb (cfbBlocks w dir n fb data) = data := by
  induction n generalizing fb data with
  | zero => rfl
  | succ n ih =>
    have hout : (xorBytes (data.take 16) (blockBytes (encryptBlock w fb))).length = 16 := by simp; omega
    simp only [cfbBlocks, List.take_left' hout, List.drop_left' hout]
    rw [xorBytes_cancel _ _ (by simp), cfbFeedback_flip, ih _ _ (by simp; omega), List.take_append_drop]

/-- The two directions of `TocCfb` undo each other (spec/43_toc_cfb.md R224). -/
theorem tocCfb_flip (k : Key) (d : List Byte) (dir : CfbDir) : tocCfb k (tocCfb k d dir) dir.flip = d := by
  rw [tocCfb, tocCfb_length]
  exact cfbBlocks_flip _ _ _ _ _ (by rw [tocTrunc]; omega)

/-- Fewer than 32 bytes hold no block (spec/43_toc_cfb.md R221). -/
theorem tocCfb_of_length_lt (k : Key) {d : List Byte} (dir : CfbDir) (h : d.length < 32) : tocCfb k d dir = d := by
  have hblocks : (d.length - d.length % tocTrunc) / 16 = 0 := by rw [tocTrunc]; omega
  rw [tocCfb, hblocks, cfbBlocks]

/-- Settles O42: the directions are each other's `flip`, and under 32 bytes there is no block to transform. -/
theorem tocDirectionsUndoEachOther : Obligations.TocDirectionsUndoEachOther :=
  fun k d dir => ⟨tocCfb_flip k d .enc, tocCfb_flip k d .dec, tocCfb_of_length_lt k dir⟩

/-! ### The mode on `MEM` -/

/-- A byte of a range, as an element of the bytes read from it. -/
theorem readBytes_getD (s : State) (a : Nat) {n j : Nat} (hj : j < n) :
    (s.readBytes a n).getD j 0 = s.byteAt (a + j) := by
  simp [hj]

theorem exec_tocCommand {i : Instr} {dir : CfbDir} (h : (i, dir) ∈ tocCommands) (s : State) :
    exec i s = .next (tocCommand dir s) := by
  simp only [tocCommands, List.mem_cons, List.not_mem_nil, or_false, Prod.mk.injEq] at h
  obtain ⟨rfl, rfl⟩ | ⟨rfl, rfl⟩ := h <;> rfl

/-- A table-of-contents command whose range checks fail (spec/20_memory.md R61, R70). -/
theorem tocCommand_fails (dir : CfbDir) {s : State} {e : ResultCode} (h : transformCheck s.beginData = some e) :
    tocCommand dir s = s.dataFaulted e := by
  obtain ⟨hc, heq⟩ | ⟨hc, heq⟩ | ⟨hc, -⟩ := tocCommand_spec dir s
  all_goals cases hc.symm.trans h
  all_goals exact heq

/-- A table-of-contents command whose range checks pass leaves the output of `TocCfb` at `DST`, every other byte as it
was, and changes nothing else but the lengths and `STATUS` (spec/43_toc_cfb.md R222, R223). -/
theorem tocCommand_stores (dir : CfbDir) {s : State} (h : transformCheck s.beginData = none) :
    (tocCommand dir s).readBytes s.dst.toNat s.len.toNat
        = tocCfb s.cfg.keyArc (s.readBytes s.src.toNat s.len.toNat) dir ∧
      (∀ a, a < s.dst.toNat ∨ s.dst.toNat + s.len.toNat ≤ a → (tocCommand dir s).byteAt a = s.byteAt a) ∧
      tocCommand dir s
        = { s with mem := (tocCommand dir s).mem, outlen := s.len, inlen := s.len, status := s.okStatus } := by
  obtain ⟨hc, -⟩ | ⟨hc, -⟩ | ⟨-, heq⟩ := tocCommand_spec dir s
  · cases hc.symm.trans h
  · cases hc.symm.trans h
  · generalize hout : tocCfb s.cfg.keyArc (s.readBytes s.src.toNat s.len.toNat) dir = out at heq ⊢
    have hlen : out.length = s.len.toNat := by rw [← hout, tocCfb_length, readBytes_length]
    have hmem : (tocCommand dir s).mem = (s.writeBytes s.dst.toNat out).mem := (congrArg State.mem heq :)
    have hdraw : (tocCommand dir s).draw = (s.writeBytes s.dst.toNat out).draw := (congrArg State.draw heq :)
    refine ⟨?_, fun a ha => ?_, by rw [heq]; rfl⟩
    · rw [readBytes_of_mem hmem hdraw, ← hlen, readBytes_writeBytes]
    · rw [byteAt_of_mem hmem hdraw, byteAt_writeBytes_outside _ _ _ _ (by rwa [hlen])]

/-- Byte `j` of the output of `TocCfb`, read from `MEM`: in the transformed range the input's byte xored with the
keystream of the ciphertext, beyond it the input's byte (spec/43_toc_cfb.md R221). -/
theorem byteAt_of_readBytes_eq_tocCfb {s t : State} {k : Key} {dir : CfbDir} {src dst n : Nat}
    (h : t.readBytes dst n = tocCfb k (s.readBytes src n) dir) :
    (∀ j, j < n - n % 32 → t.byteAt (dst + j)
      = s.byteAt (src + j) ^^^ cfbKeystreamByte k (cfbFeedback dir (s.readBytes src n) (t.readBytes dst n)) j) ∧
    ∀ j, n - n % 32 ≤ j → j < n → t.byteAt (dst + j) = s.byteAt (src + j) := by
  constructor
  · intro j hj
    have hjn : j < n := by omega
    rw [← readBytes_getD t dst hjn, ← readBytes_getD s src hjn, h]
    exact tocCfb_getD _ _ _ _ (by simpa using hj)
  · intro j hj hjn
    rw [← readBytes_getD t dst hjn, ← readBytes_getD s src hjn, h]
    exact tocCfb_tail _ _ _ _ (by simpa using hj)

/-- Settles O41: the range checks, which read no length register, pick the outcome; the bytes stored are those of
`TocCfb`, whose ciphertext stands at `SRC` or at `DST` by the direction. -/
theorem tocCommandsTransformAndCopyTheTail : Obligations.TocCommandsTransformAndCopyTheTail := by
  intro s i dir hi
  rw [exec_tocCommand hi]
  obtain ⟨hout, hc⟩ | ⟨hin, hov, hc⟩ | ⟨hin, hdisj, hc⟩ := transformCheck_spec s.beginData
  · exact ⟨fun _ => congrArg _ (tocCommand_fails _ hc), fun hin => absurd hin hout, fun hin => absurd hin hout⟩
  · exact ⟨absurd hin, fun _ _ => congrArg _ (tocCommand_fails _ hc), fun _ => absurd hov⟩
  · obtain ⟨hstored, hframe, heq⟩ := tocCommand_stores dir hc
    obtain ⟨hbytes, htail⟩ := byteAt_of_readBytes_eq_tocCfb hstored
    exact ⟨absurd hin, fun _ hov => absurd hov hdisj, fun _ _ => ⟨_, rfl, hbytes, htail, hframe, heq⟩⟩

end Sys2Proof.Machine
end

section
/-! SUPPORT. The decoder's runs compared: with a larger bound on the repetitions, and with more bytes after the stream
and more room for its output (spec/44_inflate.md R241, R243, R245, R259). -/

namespace Sys2Proof.Machine

variable {α β : Type} {x : Inf α}

/-! ### The bounds of a call -/

/-- Settles O43: the bounds of a successful call, and of a failed one. -/
theorem inflateStaysInItsBounds : Obligations.InflateStaysInItsBounds := by
  intro src xlen
  cases h : inflate src xlen with
  | ok out used => exact inflate_ok_bounds h
  | err e out => exact inflate_err_bounds h

/-! ### A step and what follows it -/

theorem Inf_bind_of_ok {f : α → Inf β} {d d' : Inflater} {a : α} (h : x d = .ok a d') : (x >>= f) d = f a d' := by
  rw [Inf_bind_apply, h]

theorem Inf_bind_eq_ok {f : α → Inf β} {d d'' : Inflater} {b : β} (h : (x >>= f) d = .ok b d'') :
    ∃ a d', x d = .ok a d' ∧ f a d' = .ok b d'' := by
  rw [Inf_bind_apply] at h
  cases hx : x d with
  | ok a d' => exact ⟨a, d', rfl, by rwa [hx] at h⟩
  | error e d' => rw [hx] at h; cases h

/-- What follows a step matters only where the step leads. -/
theorem Inf_bind_congr {f g : α → Inf β} {d : Inflater} (h : ∀ a d', x d = .ok a d' → f a d' = g a d') :
    (x >>= f) d = (x >>= g) d := by
  rw [Inf_bind_apply, Inf_bind_apply]
  cases hx : x d with
  | ok a d' => exact h a d' hx
  | error e d' => rfl

/-! ### The bound on the repetitions -/

/-- A step that keeps every upper bound on the bits left gives no bits back. -/
theorem bitsLeft_le_of_keeps (hk : ∀ n, Keeps (fun d => bitsLeft d ≤ n) x) {d d' : Inflater} {a : α}
    (h : x d = .ok a d') : bitsLeft d' ≤ bitsLeft d := by
  have hd := hk (bitsLeft d) d le_rfl
  rwa [h] at hd

/-- A step that answers only after it used a bit of the input. -/
def UsesBit (x : Inf α) : Prop :=
  ∀ d a d', x d = .ok a d' → bitsLeft d' < bitsLeft d

theorem UsesBit.bind {f : α → Inf β} (hx : UsesBit x) (hf : ∀ a n, Keeps (fun d => bitsLeft d ≤ n) (f a)) :
    UsesBit (x >>= f) := by
  intro d b d'' h
  obtain ⟨a, d', hxd, hfd⟩ := Inf_bind_eq_ok h
  exact (bitsLeft_le_of_keeps (hf a) hfd).trans_lt (hx d a d' hxd)

theorem getBit_usesBit : UsesBit getBit :=
  fun d b d' => getBit_uses d d' b

theorem bits_succ_usesBit (n : Nat) : UsesBit (bits (n + 1)) :=
  getBit_usesBit.bind fun _ k => (bits_keeps (primitivesKeep_bitsLeft k) n).bind fun _ => Keeps.pure _

theorem decodeSymbol_usesBit (code : Code) : UsesBit (decodeSymbol code) := by
  refine getBit_usesBit.bind fun b k => ?_
  split
  · exact Keeps.pure _
  · exact decodeFrom_keeps (primitivesKeep_bitsLeft k) code _ _ _

/-- Each repetition uses a bit, so two bounds above the bits left give the same run (spec/44_inflate.md R256). -/
theorem compressedData_bound_irrelevant (lit dist : Code) {n m : Nat} {d : Inflater} (hn : bitsLeft d < n)
    (hm : bitsLeft d < m) : compressedData lit dist n d = compressedData lit dist m d := by
  induction n generalizing m d with
  | zero => exact absurd hn (Nat.not_lt_zero _)
  | succ n ih =>
    obtain ⟨m, rfl⟩ := Nat.exists_eq_add_one_of_ne_zero (Nat.ne_zero_of_lt hm)
    refine Inf_bind_congr fun s d1 hs => ?_
    have hused := decodeSymbol_usesBit lit d s d1 hs
    have hrest : ∀ {y : Inf Unit}, (∀ k, Keeps (fun d => bitsLeft d ≤ k) y) →
        (y >>= fun _ => compressedData lit dist n) d1 = (y >>= fun _ => compressedData lit dist m) d1 :=
      fun hy => Inf_bind_congr fun _ d2 h2 => by
        have hle := bitsLeft_le_of_keeps hy h2
        exact ih (by omega) (by omega)
    split
    · exact hrest fun k => (primitivesKeep_bitsLeft k).emit _
    · split
      · rfl
      · split
        · rfl
        · exact hrest fun k => matchCopy_keeps (primitivesKeep_bitsLeft k) dist s

theorem blockBody_bound_irrelevant (btype : Nat) {n m : Nat} {d : Inflater} (hn : bitsLeft d < n)
    (hm : bitsLeft d < m) : blockBody n btype d = blockBody m btype d := by
  unfold blockBody
  split
  · rfl
  · split
    · exact compressedData_bound_irrelevant _ _ hn hm
    · split
      · refine Inf_bind_congr fun codes d1 h1 => ?_
        have hle := bitsLeft_le_of_keeps (fun k => dynamicCodes_keeps (primitivesKeep_bitsLeft k)) h1
        exact compressedData_bound_irrelevant _ _ (by omega) (by omega)
      · rfl

/-- Each block uses the bits of its header, so bounds above the bits left, on the blocks and on their repetitions, give
the same run (spec/44_inflate.md R241, R247). -/
theorem inflateBlocks_bound_irrelevant {b c n m : Nat} {d : Inflater} (hb : bitsLeft d < b) (hc : bitsLeft d < c)
    (hn : bitsLeft d < n) (hm : bitsLeft d < m) : inflateBlocks b n d = inflateBlocks c m d := by
  induction n generalizing m d with
  | zero => exact absurd hn (Nat.not_lt_zero _)
  | succ n ih =>
    obtain ⟨m, rfl⟩ := Nat.exists_eq_add_one_of_ne_zero (Nat.ne_zero_of_lt hm)
    refine Inf_bind_congr fun bfinal d1 h1 => Inf_bind_congr fun btype d2 h2 => ?_
    have hle1 := bits_succ_usesBit 0 d bfinal d1 h1
    have hle2 := bits_succ_usesBit 1 d1 btype d2 h2
    rw [Inf_bind_apply, Inf_bind_apply, blockBody_bound_irrelevant btype (m := c) (by omega) (by omega)]
    cases h3 : blockBody c btype d2 with
    | error e d3 => rfl
    | ok u d3 =>
      have hle3 := bitsLeft_le_of_keeps (fun k => blockBody_keeps (primitivesKeep_bitsLeft k) c btype) h3
      dsimp only
      split
      · rfl
      · exact ih (by omega) (by omega) (by omega) (by omega)

theorem inflateStream_bound_irrelevant {n m : Nat} {d : Inflater} (hn : bitsLeft d < n) (hm : bitsLeft d < m) :
    inflateStream n d = inflateStream m d := by
  refine Inf_bind_congr fun _ d1 h1 => ?_
  have hle := bitsLeft_le_of_keeps (fun k => readZlibHeader_keeps (primitivesKeep_bitsLeft k)) h1
  rw [Inf_bind_apply, Inf_bind_apply,
    inflateBlocks_bound_irrelevant (c := m) (m := m) (by omega) (by omega) (by omega) (by omega)]

/-- Settles O46: at the start all bits of the input are left, and both bounds are above their number. -/
theorem inflateBoundIsNeverReached : Obligations.InflateBoundIsNeverReached := by
  intro src xlen n hn
  have hleft : bitsLeft (inflaterStart src xlen) = 8 * src.length := rfl
  exact inflateStream_bound_irrelevant (by omega) (by omega)

/-! ### More input and more room -/

/-- The decoder with the bytes `extra` behind its input and room for `xlen` output bytes in all. -/
def Inflater.extend (extra : List Byte) (xlen : Nat) (d : Inflater) : Inflater :=
  { d with input := d.input ++ extra, limit := xlen }

/-- The output is within the decoder's limit, and the limit within `xlen` (spec/44_inflate.md R243). -/
def Inflater.RoomIn (xlen : Nat) (d : Inflater) : Prop :=
  d.out.length ≤ d.limit ∧ d.limit ≤ xlen

/-- A step that answers answers the same on the extended decoder, and leaves `extra` and the added room alone. -/
def Extends (extra : List Byte) (xlen : Nat) (x : Inf α) : Prop :=
  ∀ d a d', d.RoomIn xlen → x d = .ok a d' →
    d'.RoomIn xlen ∧ x (d.extend extra xlen) = .ok a (d'.extend extra xlen)

section
variable {extra : List Byte} {xlen : Nat}

theorem Extends.pure (a : α) : Extends extra xlen (Pure.pure a : Inf α) := by
  rintro d _ _ hd ⟨⟩
  exact ⟨hd, rfl⟩

theorem Extends.throw (e : InfError) : Extends extra xlen (MonadExcept.throw e : Inf α) := nofun

theorem Extends.bind {f : α → Inf β} (hx : Extends extra xlen x) (hf : ∀ a, Extends extra xlen (f a)) :
    Extends extra xlen (x >>= f) := by
  intro d b d'' hd h
  obtain ⟨a, d', hxd, hfd⟩ := Inf_bind_eq_ok h
  obtain ⟨hd', hxe⟩ := hx d a d' hd hxd
  obtain ⟨hd'', hfe⟩ := hf a d' b d'' hd' hfd
  exact ⟨hd'', (Inf_bind_of_ok hxe).trans hfe⟩

theorem Extends.ite {c : Prop} [Decidable c] {x y : Inf α} (hx : Extends extra xlen x) (hy : Extends extra xlen y) :
    Extends extra xlen (if c then x else y) := by
  split <;> assumption

/-- A step may look at what the extended decoder has in common with the decoder: its output. -/
theorem Extends.get_bind {f : Inflater → Inf β} (hsame : ∀ d, f (d.extend extra xlen) = f d)
    (hf : ∀ d, Extends extra xlen (f d)) : Extends extra xlen (MonadState.get >>= f) := by
  intro d b d' hd h
  obtain ⟨hd', hext⟩ := hf d d b d' hd h
  exact ⟨hd', (congrFun (hsame d) _).trans hext⟩

theorem nextByte_extends : Extends extra xlen nextByte := by
  intro d b d' hd h
  unfold nextByte at h
  split at h
  · cases h
  · next b rest hin =>
    cases h
    exact ⟨hd, by simp only [nextByte, Inflater.extend, hin, List.cons_append]⟩

theorem getBit_extends : Extends extra xlen getBit := by
  intro d b d' hd h
  unfold getBit at h
  split at h
  · next hz =>
    split at h
    · next c d1 hc =>
      cases h
      obtain ⟨hroom, hnext⟩ := nextByte_extends d c d1 hd hc
      have hz' : (d.extend extra xlen).bitcnt = 0 := hz
      exact ⟨hroom, by rw [getBit, if_pos hz', hnext]; rfl⟩
    · cases h
  · next hz =>
    cases h
    exact ⟨hd, if_neg hz⟩

theorem alignByte_extends : Extends extra xlen alignByte := by
  rintro d _ _ hd ⟨⟩
  exact ⟨hd, rfl⟩

theorem emit_extends (b : Byte) : Extends extra xlen (emit b) := by
  rintro d _ d' ⟨hout, hlim⟩ h
  unfold emit at h
  split at h
  · cases h
  · next hne =>
    cases h
    have hroom : d.out.length < d.limit := Nat.lt_of_le_of_ne hout hne
    exact ⟨⟨hroom, hlim⟩, if_neg (hroom.trans_le hlim).ne⟩

theorem bits_extends (n : Nat) : Extends extra xlen (bits n) := by
  induction n with
  | zero => exact .pure 0
  | succ n ih => exact getBit_extends.bind fun _ => ih.bind fun _ => .pure _

theorem decodeFrom_extends (code : Code) (n l v : Nat) : Extends extra xlen (decodeFrom code n l v) := by
  induction n generalizing l v with
  | zero => exact .throw _
  | succ n ih =>
    refine getBit_extends.bind fun b => ?_
    split
    · exact .pure _
    · exact ih _ _

theorem decodeSymbol_extends (code : Code) : Extends extra xlen (decodeSymbol code) :=
  decodeFrom_extends code _ _ _

theorem copyBack_extends (distance n : Nat) : Extends extra xlen (copyBack distance n) := by
  induction n with
  | zero => exact .pure ()
  | succ n ih => exact .get_bind (fun _ => rfl) fun _ => (emit_extends _).bind fun _ => ih

theorem copyStored_extends (n : Nat) : Extends extra xlen (copyStored n) := by
  induction n with
  | zero => exact .pure ()
  | succ n ih => exact nextByte_extends.bind fun _ => (emit_extends _).bind fun _ => ih

theorem storedBlock_extends : Extends extra xlen storedBlock :=
  alignByte_extends.bind fun _ => nextByte_extends.bind fun _ => nextByte_extends.bind fun _ =>
    nextByte_extends.bind fun _ => nextByte_extends.bind fun _ => (Extends.throw _).ite (copyStored_extends _)

theorem matchCopy_extends (dist : Code) (s : Nat) : Extends extra xlen (matchCopy dist s) := by
  refine (bits_extends _).bind fun _ => (decodeSymbol_extends dist).bind fun _ => .ite (.throw _) ?_
  exact (bits_extends _).bind fun _ => .get_bind (fun _ => rfl) fun _ => (Extends.throw _).ite (copyBack_extends _ _)

theorem compressedData_extends (lit dist : Code) (n : Nat) : Extends extra xlen (compressedData lit dist n) := by
  induction n with
  | zero => exact .throw _
  | succ n ih =>
    refine (decodeSymbol_extends lit).bind fun s => .ite ((emit_extends _).bind fun _ => ih) ?_
    exact .ite (.pure ()) ((Extends.throw _).ite ((matchCopy_extends dist s).bind fun _ => ih))

theorem readTriples_extends (n : Nat) : Extends extra xlen (readTriples n) := by
  induction n with
  | zero => exact .pure _
  | succ n ih => exact (bits_extends 3).bind fun _ => ih.bind fun _ => .pure _

theorem repeatOf_extends (s : Nat) (lens : List Nat) : Extends extra xlen (repeatOf s lens) := by
  refine .ite ?_ (.ite ((bits_extends 3).bind fun _ => .pure _) ((bits_extends 7).bind fun _ => .pure _))
  cases lens.getLast? with
  | none => exact .throw _
  | some v => exact (bits_extends 2).bind fun _ => .pure _

theorem readLengths_extends (code : Code) (total n : Nat) (lens : List Nat) :
    Extends extra xlen (readLengths code total n lens) := by
  induction n generalizing lens with
  | zero => exact .pure _
  | succ n ih =>
    refine .ite (.pure _) ((decodeSymbol_extends code).bind fun s => .ite (ih _) ?_)
    exact (repeatOf_extends s lens).bind fun r => (Extends.throw _).ite (ih _)

theorem dynamicCodes_extends : Extends extra xlen dynamicCodes := by
  refine (bits_extends 5).bind fun _ => (bits_extends 5).bind fun _ => (bits_extends 4).bind fun _ =>
    .ite (.throw _) ?_
  refine (readTriples_extends _).bind fun _ => .ite (.throw _) ?_
  exact (readLengths_extends _ _ _ _).bind fun _ => (Extends.pure _).ite (.throw _)

theorem blockBody_extends (bound btype : Nat) : Extends extra xlen (blockBody bound btype) :=
  storedBlock_extends.ite ((compressedData_extends _ _ _).ite
    ((dynamicCodes_extends.bind fun _ => compressedData_extends _ _ _).ite (.throw _)))

theorem inflateBlocks_extends (bound n : Nat) : Extends extra xlen (inflateBlocks bound n) := by
  induction n with
  | zero => exact .throw _
  | succ n ih =>
    exact (bits_extends 1).bind fun _ => (bits_extends 2).bind fun _ => (blockBody_extends _ _).bind fun _ =>
      (Extends.pure ()).ite ih

theorem readZlibHeader_extends : Extends extra xlen readZlibHeader :=
  nextByte_extends.bind fun _ => nextByte_extends.bind fun _ => (Extends.throw _).ite (.pure ())

theorem checkTrailer_extends : Extends extra xlen checkTrailer :=
  alignByte_extends.bind fun _ => nextByte_extends.bind fun _ => nextByte_extends.bind fun _ =>
    nextByte_extends.bind fun _ => nextByte_extends.bind fun _ => .get_bind (fun _ => rfl) fun _ =>
    (Extends.throw _).ite (.pure ())

theorem inflateStream_extends (bound : Nat) : Extends extra xlen (inflateStream bound) :=
  readZlibHeader_extends.bind fun _ => (inflateBlocks_extends _ _).bind fun _ => checkTrailer_extends

end

theorem inflate_eq_ok_iff {src out : List Byte} {xlen used : Nat} :
    inflate src xlen = .ok out used ↔
      ∃ d, inflateStream (8 * src.length + 1) (inflaterStart src xlen) = .ok () d ∧
        d.out.reverse = out ∧ d.pos = used := by
  unfold inflate
  cases inflateStream (8 * src.length + 1) (inflaterStart src xlen) with
  | ok u d => simp
  | error e d => simp

/-- Settles O45: under the longer input's bound the run on the stream is the same, and it extends. -/
theorem inflateIgnoresTrailingBytes : Obligations.InflateIgnoresTrailingBytes := by
  intro src extra xlen xlen' out used h hroom
  obtain ⟨d, hd, hout, hpos⟩ := inflate_eq_ok_iff.mp h
  have hbound : 8 * src.length + 1 ≤ 8 * (src ++ extra).length + 1 := by rw [List.length_append]; omega
  rw [← inflateBoundIsNeverReached src xlen _ hbound] at hd
  obtain ⟨-, hext⟩ := inflateStream_extends _ _ _ _ ⟨Nat.zero_le _, hroom⟩ hd
  exact inflate_eq_ok_iff.mpr ⟨_, hext, hout, hpos⟩

end Sys2Proof.Machine
end

section
/-! SUPPORT. The decoder run on a stream of one stored block (spec/44_inflate.md R244, R249, R257). -/

namespace Sys2Proof.Machine

@[simp] theorem nextByte_cons (b : Byte) (rest out : List Byte) (pos buf cnt limit : Nat) :
    nextByte ⟨b :: rest, pos, buf, cnt, out, limit⟩ = .ok b.toNat ⟨rest, pos + 1, buf, cnt, out, limit⟩ := rfl

@[simp] theorem getBit_buffered (input out : List Byte) (pos buf cnt limit : Nat) :
    getBit ⟨input, pos, buf, cnt + 1, out, limit⟩ = .ok (buf % 2) ⟨input, pos, buf / 2, cnt, out, limit⟩ := rfl

theorem emit_of_lt {b : Byte} {d : Inflater} (h : d.out.length < d.limit) :
    emit b d = .ok () { d with out := b :: d.out } :=
  if_neg h.ne

/-- Stored bytes are emitted in order, as long as there is room for them (spec/44_inflate.md R249). -/
theorem copyStored_append (bs rest out : List Byte) (pos buf cnt limit : Nat) (hroom : out.length + bs.length ≤ limit) :
    copyStored bs.length ⟨bs ++ rest, pos, buf, cnt, out, limit⟩
      = .ok () ⟨rest, pos + bs.length, buf, cnt, bs.reverse ++ out, limit⟩ := by
  induction bs generalizing pos out with
  | nil => rfl
  | cons b bs ih =>
    rw [List.length_cons] at hroom
    have hlt : out.length < limit := by omega
    have hb : BitVec.ofNat 8 b.toNat = b := by simp
    simp only [List.length_cons, copyStored, Inf_bind_apply, List.cons_append, nextByte_cons, hb,
      emit_of_lt (d := ⟨bs ++ rest, pos + 1, buf, cnt, out, limit⟩) hlt]
    rw [ih _ _ (by rw [List.length_cons]; omega)]
    simp [Nat.add_assoc, Nat.add_comm 1]

/-- The two length fields of a stored block are complements of each other (spec/44_inflate.md R249). -/
theorem storedBlock_append {bs rest out : List Byte} {pos buf cnt limit : Nat} (hlen : bs.length ≤ 65535)
    (hroom : out.length + bs.length ≤ limit) :
    storedBlock ⟨toLE bs.length 2 ++ toLE (bs.length ^^^ 0xFFFF) 2 ++ bs ++ rest, pos, buf, cnt, out, limit⟩
      = .ok () ⟨rest, pos + 4 + bs.length, 0, 0, bs.reverse ++ out, limit⟩ := by
  have hvalue : ∀ v, v < 2 ^ 16 → v % 256 + 256 * (v / 256 % 256) = v := by omega
  have hcompl : bs.length ^^^ 0xFFFF < 2 ^ 16 := Nat.xor_lt_two_pow (by omega) (by decide)
  have hback : bs.length ^^^ 0xFFFF ^^^ 0xFFFF = bs.length := Nat.xor_xor_cancel_right _ _
  simp only [storedBlock, Inf_bind_apply, alignByte, toLE, List.cons_append, List.nil_append, nextByte_cons,
    BitVec.toNat_ofNat, Nat.reducePow, hvalue _ hcompl, hvalue bs.length (by omega), hback, ne_eq, not_true_eq_false,
    if_false]
  exact copyStored_append bs rest out (pos + 4) 0 0 limit hroom

/-- The two sums of the checksum stay below the modulus (spec/44_inflate.md R257). -/
theorem adler32_lt (bs : List Byte) : adler32 bs < 2 ^ 32 := by
  have hjoin : ∀ p : Nat × Nat, p.1 < 65521 ∧ p.2 < 65521 → p.2 * 65536 + p.1 < 2 ^ 32 := by omega
  exact hjoin _ (List.foldlRecOn (motive := fun p : Nat × Nat => p.1 < 65521 ∧ p.2 < 65521) bs _ (by decide)
    fun _ _ _ _ => ⟨Nat.mod_lt _ (by decide), Nat.mod_lt _ (by decide)⟩)

/-- The trailer is the checksum of the output, most significant byte first (spec/44_inflate.md R257). -/
theorem checkTrailer_adler32 (out : List Byte) (pos buf cnt limit : Nat) :
    checkTrailer ⟨toBE (adler32 out.reverse) 4, pos, buf, cnt, out, limit⟩
      = .ok () ⟨[], pos + 4, 0, 0, out, limit⟩ := by
  have hlt := adler32_lt out.reverse
  have hvalue : ∀ v, v < 2 ^ 32 → v / 256 / 256 / 256 % 256 * 2 ^ 24 + v / 256 / 256 % 256 * 2 ^ 16 +
      v / 256 % 256 * 2 ^ 8 + v % 256 = v := by omega
  generalize hv : adler32 out.reverse = v at hlt
  have hbytes : toBE v 4 = [BitVec.ofNat 8 (v / 256 / 256 / 256), BitVec.ofNat 8 (v / 256 / 256),
    BitVec.ofNat 8 (v / 256), BitVec.ofNat 8 v] := rfl
  rw [hbytes]
  simp only [checkTrailer, Inf_bind_apply, Inf_get_apply, alignByte, nextByte_cons, BitVec.toNat_ofNat, hv]
  exact if_neg (not_not_intro (hvalue v hlt)) ▸ rfl

/-- A header of the deflate method, without a preset dictionary (spec/44_inflate.md R244). -/
theorem readZlibHeader_7801 (rest out : List Byte) (pos buf cnt limit : Nat) :
    readZlibHeader ⟨0x78 :: 0x01 :: rest, pos, buf, cnt, out, limit⟩ = .ok () ⟨rest, pos + 2, buf, cnt, out, limit⟩ :=
  rfl

/-- The block header 01: `BFINAL = 1` and `BTYPE = 00`, a final stored block (spec/44_inflate.md R247). -/
theorem inflateBlocks_finalStored (bound n : Nat) (rest out : List Byte) (pos buf limit : Nat) :
    inflateBlocks bound (n + 1) ⟨0x01 :: rest, pos, buf, 0, out, limit⟩
      = storedBlock ⟨rest, pos + 1, 0, 5, out, limit⟩ := by
  have hfinal : bits 1 ⟨0x01 :: rest, pos, buf, 0, out, limit⟩ = .ok 1 ⟨rest, pos + 1, 0, 7, out, limit⟩ := rfl
  have htype : bits 2 ⟨rest, pos + 1, 0, 7, out, limit⟩ = .ok 0 ⟨rest, pos + 1, 0, 5, out, limit⟩ := by
    simp only [bits, Inf_bind_apply, getBit_buffered, Inf_pure_apply]
  have hbody : blockBody bound 0 = storedBlock := if_pos rfl
  simp only [inflateBlocks, Inf_bind_apply, hfinal, htype, hbody, if_true]
  cases storedBlock ⟨rest, pos + 1, 0, 5, out, limit⟩ <;> rfl

/-- Settles O44: header, stored block and trailer one after the other. -/
theorem storedStreamInflatesToItsBytes : Obligations.StoredStreamInflatesToItsBytes := by
  intro bs xlen hlen hroom
  have hblock := storedBlock_append (rest := toBE (adler32 bs) 4) (out := []) (pos := 3) (buf := 0) (cnt := 5) hlen
    ((Nat.zero_add _).trans_le hroom)
  have htrailer := checkTrailer_adler32 bs.reverse (3 + 4 + bs.length) 0 0 xlen
  rw [List.append_nil, ← inflateBlocks_finalStored (8 * (storedStream bs).length + 1) _ _ _ 2 0] at hblock
  rw [List.reverse_reverse] at htrailer
  have hrun := (Inf_bind_of_ok (f := fun _ => checkTrailer) hblock).trans htrailer
  exact inflate_eq_ok_iff.mpr ⟨_, (Inf_bind_of_ok (readZlibHeader_7801 _ _ _ _ _ _)).trans hrun,
    bs.reverse_reverse, by dsimp only; omega⟩

end Sys2Proof.Machine
end

section
/-! SUPPORT. The commands that inflate (spec/44_inflate.md R260 to R262): what each outcome of the decoder leaves in
`MEM` and in the registers. -/

namespace Sys2Proof.Machine

/-! ### What the commands leave behind -/

theorem storesAt_of_mem {s t : State} {a : Nat} {out : List Byte} (hmem : t.mem = (s.writeBytes a out).mem)
    (hdraw : t.draw = s.draw) : storesAt s t a out := by
  obtain ⟨hbytes, hframe⟩ := writeBytes_storesAt s a out
  have hread : ∀ x, t.byteAt x = (s.writeBytes a out).byteAt x := byteAt_of_mem hmem hdraw
  exact ⟨fun j hj => (hread _).trans (hbytes j hj), fun x hx => (hread x).trans (hframe x hx)⟩

/-- Fewer than two bytes hold no header (spec/44_inflate.md R244, R260). -/
theorem inflate_of_length_le_one {src : List Byte} (h : src.length ≤ 1) (xlen : Nat) :
    inflate src xlen = .err .trunc [] := by
  match src, h with
  | [], _ => rfl
  | [_], _ => rfl

/-- A stream error keeps the bytes emitted before it, counts them, and changes nothing else but `INLEN` and `STATUS`
(spec/44_inflate.md R260, R262). -/
theorem inflateFailed_stores {s : State} {e : InfError} {out : List Byte} {m : Nat}
    (hdst : InBounds s.cfg s.dst.toNat m) (hlen : out.length ≤ m) :
    ∃ t, inflateFailed s e out = t ∧ storesAt s t s.dst.toNat out ∧ t.outlen.toNat = out.length ∧
      t = { s with mem := t.mem, outlen := t.outlen, inlen := 0, status := s.errStatus e.toCode } := by
  rw [inflateFailed_spec]
  exact ⟨_, rfl, storesAt_of_mem rfl rfl, toNat_ofNat_of_inBounds (c := s.cfg) (a := s.dst.toNat) (by omega), rfl⟩

/-- A stream error writes both lengths itself. -/
theorem inflateFailed_beginData (s : State) (e : InfError) (out : List Byte) :
    inflateFailed s.beginData e out = inflateFailed s e out := by
  rw [inflateFailed_spec, inflateFailed_spec]
  rfl

/-- Settles O47: the range checks pick the clause, and after them the decoder's result does. -/
theorem inflateCommandStoresTheOutput : Obligations.InflateCommandStoresTheOutput := by
  intro s inb ovl r
  refine ⟨decode_encode .inflate, fun hlen => inflate_of_length_le_one (by rwa [readBytes_length]) _, ?_⟩
  obtain ⟨hout, h⟩ | ⟨hin, hov, h⟩ | ⟨hin, hdisj, hres⟩ := execInflate_spec s
  · exact ⟨fun _ => h, fun hin => absurd hin hout, fun hin => absurd hin hout, fun hin => absurd hin hout⟩
  · exact ⟨absurd hin, fun _ _ => h, fun _ => absurd hov, fun _ => absurd hov⟩
  refine ⟨absurd hin, fun _ hov => absurd hov hdisj, fun _ _ e out hr => ?_, fun _ _ out used hr => ?_⟩
  · obtain ⟨e', out', hr', h⟩ | ⟨out', used', hr', -⟩ := hres
    · obtain ⟨rfl, rfl⟩ := InflateResult.err.inj (hr'.symm.trans hr)
      rw [← inflateFailed_spec] at h
      obtain ⟨t, rfl, ht⟩ := inflateFailed_stores hin.2 (inflate_err_bounds hr)
      exact ⟨_, h, ht⟩
    · cases hr'.symm.trans hr
  · obtain ⟨e', out', hr', -⟩ | ⟨out', used', hr', h⟩ := hres
    · cases hr'.symm.trans hr
    · obtain ⟨rfl, rfl⟩ := InflateResult.ok.inj (hr'.symm.trans hr)
      obtain ⟨hlen, hused⟩ := inflate_ok_bounds hr
      rw [readBytes_length] at hused
      obtain ⟨hsrc, hdst⟩ := hin
      exact ⟨_, h, storesAt_of_mem rfl rfl,
        toNat_ofNat_of_inBounds (c := s.cfg) (a := s.dst.toNat) (by omega),
        toNat_ofNat_of_inBounds (c := s.cfg) (a := s.src.toNat) (by omega), rfl⟩

/-! ### Blocks -/

section
variable {s : State} {n : Nat}

/-- A decoded block: its bytes at `DST`, the lengths, and the cursors advanced without wrap-around
(spec/44_inflate.md R262). -/
theorem blockDone_stores {out : List Byte} (mis : Bool) (hsrc : InBounds s.cfg s.src.toNat n)
    (hdst : InBounds s.cfg s.dst.toNat out.length) (hx : out.length ≤ s.xlen.toNat) :
    ∃ t, blockDone s.beginData n out mis = t ∧ storesAt s t s.dst.toNat out ∧
      t.outlen.toNat = out.length ∧ t.inlen.toNat = n ∧ t.src.toNat = s.src.toNat + n ∧
      t.dst.toNat = s.dst.toNat + out.length ∧ t.xlen.toNat = s.xlen.toNat - out.length ∧
      t = { s with
        mem := t.mem, outlen := t.outlen, inlen := t.inlen, src := t.src, dst := t.dst, xlen := t.xlen
        status := { code := .ok, sizeMis := mis, sticky := s.status.sticky } } := by
  have hlen := toNat_ofNat_of_inBounds hdst
  have hleft : (s.xlen - BitVec.ofNat 32 out.length).toNat = s.xlen.toNat - out.length := by
    rw [BitVec.toNat_sub_of_le (by rwa [BitVec.le_def, hlen]), hlen]
  rw [blockDone_spec]
  exact ⟨_, rfl, storesAt_of_mem rfl rfl, hlen, toNat_ofNat_of_inBounds hsrc, cursor_add_toNat hsrc,
    cursor_add_toNat hdst, hleft, rfl⟩

theorem execBlkdec_verbatim (hn : blockLength s n) (hbs : s.bsize ≠ 0) (hsrc : InBounds s.cfg s.src.toNat n)
    (hraw : ¬ blockIsStream s) : exec .blkdec s = .next (verbatimBlock s.beginData n) := by
  obtain ⟨h0, -⟩ | ⟨-, hout, -⟩ | ⟨-, -, hstream, -⟩ | ⟨-, -, -, h⟩ := execBlkdec_spec s n hn
  · exact absurd h0 hbs
  · exact absurd hsrc hout
  · exact absurd hstream hraw
  · exact h

theorem execBlkdec_compressed (hn : blockLength s n) (hbs : s.bsize ≠ 0) (hsrc : InBounds s.cfg s.src.toNat n)
    (hstream : blockIsStream s) : exec .blkdec s = .next (compressedBlock s.beginData n) := by
  obtain ⟨h0, -⟩ | ⟨-, hout, -⟩ | ⟨-, -, -, h⟩ | ⟨-, -, hraw, -⟩ := execBlkdec_spec s n hn
  · exact absurd h0 hbs
  · exact absurd hsrc hout
  · exact h
  · exact absurd hstream hraw

end

/-- Settles O48: the block passes every check, so `BLKDEC` ends with the bytes read at `SRC` as its output. -/
theorem blkdecCopiesRawAndVerbatimBlocks : Obligations.BlkdecCopiesRawAndVerbatimBlocks := by
  intro s n hbs hn hsrc hraw hx hdst hdisj
  obtain ⟨hover, -⟩ | ⟨-, hout, -⟩ | ⟨-, -, hov, -⟩ | ⟨-, -, -, h⟩ := verbatimBlock_spec s.beginData n
  · exact absurd hx hover.not_ge
  · exact absurd hdst hout
  · exact absurd hov hdisj
  · rw [beginData_readBytes, beginData_src] at h
    generalize hbytes : s.readBytes s.src.toNat n = bytes at h ⊢
    have hlen : bytes.length = n := hbytes ▸ readBytes_length ..
    obtain ⟨t, rfl, ht⟩ := blockDone_stores (out := bytes) false hsrc (by rwa [hlen]) (by rwa [hlen])
    rw [hlen] at ht
    exact ⟨_, (execBlkdec_verbatim hn hbs hsrc hraw).trans (congrArg _ h), ht⟩

/-- Settles O49: the block passes every check, and the decoder's result picks the clause. -/
theorem blkdecInflatesCompressedBlocks : Obligations.BlkdecInflatesCompressedBlocks := by
  intro s n m hbs hn hsrc hstream hm hdst hdisj
  subst hm
  rw [execBlkdec_compressed hn hbs hsrc hstream]
  obtain ⟨hout, -⟩ | ⟨-, hov, -⟩ | ⟨-, -, hres⟩ := compressedBlock_spec s.beginData n
  · exact absurd hdst hout
  · exact absurd hov hdisj
  rw [beginData_readBytes] at hres
  obtain ⟨e', out', hr', h⟩ | ⟨out', used', hr', h⟩ := hres
  · refine ⟨fun out used hr => (nomatch hr'.symm.trans hr), fun e out hr => ?_⟩
    obtain ⟨rfl, rfl⟩ := InflateResult.err.inj (hr'.symm.trans hr)
    rw [inflateFailed_beginData] at h
    obtain ⟨t, rfl, ht⟩ := inflateFailed_stores hdst (inflate_err_bounds hr)
    exact ⟨_, congrArg _ h, ht⟩
  · refine ⟨fun out used hr => ?_, fun e out hr => nomatch hr'.symm.trans hr⟩
    obtain ⟨rfl, rfl⟩ := InflateResult.ok.inj (hr'.symm.trans hr)
    obtain ⟨hlen, -⟩ := inflate_ok_bounds hr
    obtain ⟨t, rfl, ht⟩ := blockDone_stores _ hsrc (out := out') (by omega) (by omega)
    exact ⟨_, congrArg _ h, ht⟩

/-- Settles O50: the checks common to all blocks first, then those of the block's kind. -/
theorem blkdecChecksInOrder : Obligations.BlkdecChecksInOrder := by
  intro s n hn m
  refine ⟨fun h0 => ?_, fun hbs hout => ?_, fun hbs hsrc hstream => ?_, fun hbs hsrc hraw => ?_⟩
  · obtain ⟨-, h⟩ | ⟨hbs, -⟩ | ⟨hbs, -⟩ | ⟨hbs, -⟩ := execBlkdec_spec s n hn
    · exact h
    all_goals exact absurd h0 hbs
  · obtain ⟨h0, -⟩ | ⟨-, -, h⟩ | ⟨-, hsrc, -⟩ | ⟨-, hsrc, -⟩ := execBlkdec_spec s n hn
    · exact absurd h0 hbs
    · exact h
    all_goals exact absurd hsrc hout
  · rw [execBlkdec_compressed hn hbs hsrc hstream]
    obtain ⟨hout, h⟩ | ⟨hdst, hov, h⟩ | ⟨hdst, hdisj, -⟩ := compressedBlock_spec s.beginData n
    · rw [h, beginData_raise_eq _ _ (by decide)]
      exact ⟨fun _ => rfl, fun hdst => absurd hdst hout⟩
    · rw [h, beginData_raise_eq _ _ (by decide)]
      exact ⟨absurd hdst, fun _ _ => rfl⟩
    · exact ⟨absurd hdst, fun _ hov => absurd hov hdisj⟩
  · rw [execBlkdec_verbatim hn hbs hsrc hraw]
    obtain ⟨hover, h⟩ | ⟨hx, hout, h⟩ | ⟨hx, hdst, hov, h⟩ | ⟨hx, hdst, hdisj, -⟩ :=
      verbatimBlock_spec s.beginData n
    · rw [h, beginData_raise_eq _ _ (by decide)]
      exact ⟨fun _ => rfl, fun hx => absurd hover hx.not_gt, fun hx => absurd hover hx.not_gt⟩
    · rw [h, beginData_raise_eq _ _ (by decide)]
      exact ⟨fun hover => absurd hx hover.not_ge, fun _ _ => rfl, fun _ hdst => absurd hdst hout⟩
    · rw [h, beginData_raise_eq _ _ (by decide)]
      exact ⟨fun hover => absurd hx hover.not_ge, fun _ => absurd hdst, fun _ _ _ => rfl⟩
    · exact ⟨fun hover => absurd hx hover.not_ge, fun _ => absurd hdst, fun _ _ hov => absurd hov hdisj⟩

end Sys2Proof.Machine
end

section
/-! SUPPORT. The system command (spec/45_system.md R300): a reset of the registers beside what stands in `MEM`, in the
queue and in the reply. -/

namespace Sys2Proof.Machine

/-- `SRST` has the one outcome, in every state, without a completion step (spec/45_system.md R300). -/
theorem exec_srst (s : State) : exec .srst s = .next s.resetRegisters := rfl

/-- `SRST` and the reset of spec/10_state.md R42 agree in every register; only `MEM` and the host's side are not the
reset's. -/
theorem resetRegisters_eq_resetWith (s : State) :
    s.resetRegisters = { State.resetWith s.cfg s.draw with mem := s.mem, inputs := s.inputs, reply := s.reply } := rfl

@[simp] theorem resetRegisters_idem (s : State) : s.resetRegisters.resetRegisters = s.resetRegisters := rfl

/-- No register is a view of `MEM`, of the queue or of the reply (spec/10_state.md R38). -/
theorem readReg_withMemAndHostFields (s : State) (m : Memory) (i : List HostAction) (p : HostReply) (r : Reg) :
    State.readReg { s with mem := m, inputs := i, reply := p } r = s.readReg r := by
  cases r <;> rfl

theorem resetRegisters_readReg (s : State) (r : Reg) :
    s.resetRegisters.readReg r = (State.resetWith s.cfg s.draw).readReg r := by
  rw [resetRegisters_eq_resetWith, readReg_withMemAndHostFields]

/-- Settles O18: the outcome is `resetRegisters`, which a second `SRST` leaves as it is. -/
theorem srstRestoresRegisters : Obligations.SrstRestoresRegisters := by
  intro s
  have htwice : exec .srst s.resetRegisters = .next s.resetRegisters := by rw [exec_srst, resetRegisters_idem]
  exact ⟨s.resetRegisters, exec_srst s, resetRegisters_eq_resetWith s, resetRegisters_readReg s,
    resetRegisters_byteAt s, htwice⟩

end Sys2Proof.Machine
end

section
/-! SUPPORT. The ways a command ends (spec/60_exceptions.md R310 to R313): with `OK`, or with one of the three kinds of
fault, each with its whole effect; and what the statements about faults read off them. -/

namespace Sys2Proof.Machine

/-! ### Completion and codes -/

/-- Settles O53: `SRST` apart, a command leaves the host's side as it was. -/
theorem everyCommandCompletes : Obligations.EveryCommandCompletes := by
  intro i s
  by_cases hi : i = .srst
  · subst hi
    exact ⟨_, exec_srst s, rfl, rfl, rfl, rfl, rfl⟩
  · obtain ⟨t, h, hside⟩ := exec_keeps_hostSide i hi s
    simp only [State.hostSide, Prod.mk.injEq] at hside
    obtain ⟨hcmd, hkept⟩ := hside
    exact ⟨t, h, by rw [if_neg hi, hcmd], hkept⟩

/-- Settles O54: the codes a command reports are part of its effect. -/
theorem codesAreThoseTheTableLists : Obligations.CodesAreThoseTheTableLists :=
  ⟨fun _ _ _ h => (exec_effect h).status.code, rfl⟩

/-! ### The ways a command ends -/

/-- The state after `SNGDEC` found no platform: the one fault that comes after the context and the IV are written
(spec/60_exceptions.md R313 a). -/
def State.platformFaulted (s : State) : State :=
  { s.dataFaulted .cryptoPlatform with
    ectx := { s.ectx with enc := true, plat := .unknown }
    iv := containerIv s s.src.toNat }

/-- The state after a pre-check of the command `i` failed (spec/60_exceptions.md R313). -/
def State.preCheckFaulted (i : Instr) (s : State) (e : ResultCode) : State :=
  if isData i then s.dataFaulted e else s.faulted e

/-- The codes that a pre-check of the command `i` raises (spec/60_exceptions.md R313). -/
def IsPreCheck (i : Instr) (e : ResultCode) : Prop :=
  e ∈ preCheckCodes ∨ (i = .sngenc ∧ e = .cryptoPlatform)

/-- How the command `i` ended that took `s` to `t` (spec/60_exceptions.md R312, R313). -/
inductive Ended (i : Instr) (s t : State) : Prop
  /-- `done`: only `SRST` has no completion step, and clears `STICKY` (spec/45_system.md R300) -/
  | ok (hcode : t.status.code = .ok) (hsticky : i ≠ .srst → t.status.sticky = s.status.sticky)
  /-- a pre-check failed -/
  | preCheck (e : ResultCode) (he : IsPreCheck i e) (ht : t = s.preCheckFaulted i e)
  /-- neither key showed the signature to `SNGDEC` -/
  | platform (hi : i = .sngdec) (ht : t = s.platformFaulted)
  /-- the decoder failed, after it emitted the bytes that `OUTLEN` counts -/
  | stream (e : ResultCode) (he : e ∈ streamCodes)
      (ht : t = { s with mem := t.mem, outlen := t.outlen, inlen := 0, status := s.errStatus e })
      (hframe : ∀ a, a < s.dst.toNat ∨ s.dst.toNat + t.outlen.toNat ≤ a → t.byteAt a = s.byteAt a)

@[simp] theorem preCheckFaulted_status (i : Instr) (s : State) (e : ResultCode) :
    (s.preCheckFaulted i e).status = s.errStatus e := by
  unfold State.preCheckFaulted
  split <;> rfl

section
variable {i : Instr} {s : State} {e : ResultCode}

theorem Ended.faulted (hi : isData i = false) (he : e ∈ preCheckCodes) : Ended i s (s.faulted e) :=
  .preCheck e (.inl he) (by simp [State.preCheckFaulted, hi])

theorem Ended.dataFaulted (hi : isData i = true) (he : IsPreCheck i e) : Ended i s (s.dataFaulted e) :=
  .preCheck e he (by simp [State.preCheckFaulted, hi])

/-- A data command that raises before it wrote anything but the lengths it cleared (spec/30_encoding.md R90, step 3). -/
theorem Ended.beginData_raise (hi : isData i = true) (he : e ∈ preCheckCodes) : Ended i s (s.beginData.raise e) := by
  rw [beginData_raise_eq s e (by rintro rfl; exact absurd he (by decide))]
  exact .dataFaulted hi (.inl he)

/-- A stream error, met with room for `m` bytes inside `MEM` (spec/60_exceptions.md R313 b). -/
theorem Ended.inflateFailed {err : InfError} {out : List Byte} {m : Nat} (hdst : InBounds s.cfg s.dst.toNat m)
    (hlen : out.length ≤ m) : Ended i s (inflateFailed s err out) := by
  obtain ⟨t, rfl, ⟨-, hframe⟩, hout, ht⟩ := inflateFailed_stores (e := err) hdst hlen
  exact .stream err.toCode (toCode_mem_streamCodes err) ht (by rwa [hout])

theorem codecRead_ended (hi : isData i = false) (value : List Byte → Nat) (w : Nat) (s : State) :
    Ended i s (codecRead value w s) := by
  obtain ⟨-, h⟩ | ⟨-, h⟩ := codecRead_spec value w s <;> rw [h]
  · exact .ok rfl fun _ => rfl
  · exact .faulted hi (by decide)

theorem codecWrite_ended (hi : isData i = false) (layout : Nat → Nat → List Byte) (w : Nat) (s : State) :
    Ended i s (codecWrite layout w s) := by
  obtain ⟨-, h⟩ | ⟨-, -, h⟩ | ⟨-, -, h⟩ := codecWrite_spec layout w s <;> rw [h]
  · exact .faulted hi (by decide)
  · exact .faulted hi (by decide)
  · exact .ok rfl fun _ => rfl

theorem counterCommand_ended (hi : isData i = true) (k : Key) (s : State) : Ended i s (counterCommand k s) := by
  obtain ⟨-, h⟩ | ⟨-, h⟩ | ⟨-, h⟩ := counterCommand_spec k s <;> rw [h]
  · exact .dataFaulted hi (.inl (by decide))
  · exact .dataFaulted hi (.inl (by decide))
  · exact .ok rfl fun _ => rfl

theorem tocCommand_ended (hi : isData i = true) (dir : CfbDir) (s : State) : Ended i s (tocCommand dir s) := by
  obtain ⟨-, h⟩ | ⟨-, h⟩ | ⟨-, h⟩ := tocCommand_spec dir s <;> rw [h]
  · exact .dataFaulted hi (.inl (by decide))
  · exact .dataFaulted hi (.inl (by decide))
  · exact .ok rfl fun _ => rfl

theorem compressedBlock_ended (hi : isData i = true) (s : State) (n : Nat) :
    Ended i s (compressedBlock s.beginData n) := by
  obtain ⟨-, h⟩ | ⟨-, -, h⟩ | ⟨hdst, -, ⟨e, out, hout, h⟩ | ⟨_, _, -, h⟩⟩ := compressedBlock_spec s.beginData n <;> rw [h]
  · exact .beginData_raise hi (by decide)
  · exact .beginData_raise hi (by decide)
  · rw [inflateFailed_beginData]
    exact .inflateFailed (s := s) hdst (inflate_err_bounds hout)
  · exact .ok rfl fun _ => by simp [blockDone_spec]

theorem verbatimBlock_ended (hi : isData i = true) (s : State) (n : Nat) : Ended i s (verbatimBlock s.beginData n) := by
  obtain ⟨-, h⟩ | ⟨-, -, h⟩ | ⟨-, -, -, h⟩ | ⟨-, -, -, h⟩ := verbatimBlock_spec s.beginData n <;> rw [h]
  · exact .beginData_raise hi (by decide)
  · exact .beginData_raise hi (by decide)
  · exact .beginData_raise hi (by decide)
  · exact .ok rfl fun _ => by simp [blockDone_spec]

end

theorem execSngdec_ended (s : State) : ∃ t, exec .sngdec s = .next t ∧ Ended .sngdec s t := by
  obtain ⟨-, h⟩ | ⟨-, -, h⟩ | ⟨-, -, -, h⟩ | ⟨-, -, -, -, h⟩ | ⟨-, -, -, -, -, h⟩ | ⟨-, -, h⟩ |
    ⟨-, _, _, -, -, h⟩ := execSngdec_spec s <;> refine ⟨_, h, ?_⟩
  · exact .dataFaulted rfl (.inl (by decide))
  · exact .ok rfl fun _ => rfl
  · exact .dataFaulted rfl (.inl (by decide))
  · exact .dataFaulted rfl (.inl (by decide))
  · exact .dataFaulted rfl (.inl (by decide))
  · exact .platform rfl rfl
  · exact .ok rfl fun _ => rfl

theorem execSngenc_ended (s : State) : ∃ t, exec .sngenc s = .next t ∧ Ended .sngenc s t := by
  obtain ⟨-, h⟩ | ⟨-, -, -, h⟩ | ⟨k, hw, -⟩ := execSngenc_spec s
  · exact ⟨_, h, .ok rfl fun _ => rfl⟩
  · exact ⟨_, h, .dataFaulted rfl (.inr ⟨rfl, rfl⟩)⟩
  · obtain ⟨-, h⟩ | ⟨-, -, h⟩ | ⟨-, -, -, h⟩ | ⟨-, -, -, h⟩ := execSngenc_wanted s k hw <;> refine ⟨_, h, ?_⟩
    · exact .dataFaulted rfl (.inl (by decide))
    · exact .dataFaulted rfl (.inl (by decide))
    · exact .dataFaulted rfl (.inl (by decide))
    · exact .ok rfl fun _ => rfl

theorem execInflate_ended (s : State) : ∃ t, exec .inflate s = .next t ∧ Ended .inflate s t := by
  obtain ⟨-, h⟩ | ⟨-, -, h⟩ | ⟨⟨-, hdst⟩, -, ⟨e, out, hout, h⟩ | ⟨_, _, -, h⟩⟩ := execInflate_spec s
  · exact ⟨_, h, .dataFaulted rfl (.inl (by decide))⟩
  · exact ⟨_, h, .dataFaulted rfl (.inl (by decide))⟩
  · rw [← inflateFailed_spec] at h
    exact ⟨_, h, .inflateFailed hdst (inflate_err_bounds hout)⟩
  · exact ⟨_, h, .ok rfl fun _ => rfl⟩

/-- Every command ends in one of the four ways (spec/60_exceptions.md R310, R313). -/
theorem exec_has_ended (i : Instr) (s : State) : ∃ t, exec i s = .next t ∧ Ended i s t := by
  cases i with
  | srst => exact ⟨_, rfl, .ok rfl fun hne => absurd rfl hne⟩
  | rdbe2 | rdbe3 | rdbe4 | rdbe5 | rdle4 => exact ⟨_, rfl, codecRead_ended rfl ..⟩
  | wrbe2 | wrbe3 | wrbe4 | wrbe5 | wrle4 => exact ⟨_, rfl, codecWrite_ended rfl ..⟩
  | ztype | ivinc => exact ⟨_, rfl, .ok rfl fun _ => by simp [Status.completed]⟩
  | ctrdecPc | ctrdecMac | ctrencPc | ctrencMac => exact ⟨_, rfl, counterCommand_ended rfl ..⟩
  | tocdec | tocenc => exact ⟨_, rfl, tocCommand_ended rfl ..⟩
  | ivld =>
    obtain ⟨-, h⟩ | ⟨-, h⟩ := execIvld_spec s
    · exact ⟨_, h, .ok rfl fun _ => rfl⟩
    · exact ⟨_, h, .faulted rfl (by decide)⟩
  | sngdet =>
    obtain ⟨-, h⟩ | ⟨-, h⟩ := execSngdet_spec s
    · exact ⟨_, h, .ok rfl fun _ => rfl⟩
    · exact ⟨_, h, .faulted rfl (by decide)⟩
  | sngprobe =>
    obtain ⟨-, h⟩ | ⟨-, -, h⟩ | ⟨-, -, h⟩ := execSngprobe_spec s
    · exact ⟨_, h, .faulted rfl (by decide)⟩
    · exact ⟨_, h, .faulted rfl (by decide)⟩
    · exact ⟨_, h, .ok rfl fun _ => rfl⟩
  | sngdec => exact execSngdec_ended s
  | sngenc => exact execSngenc_ended s
  | inflate => exact execInflate_ended s
  | blkdec =>
    obtain ⟨-, h⟩ | ⟨-, -, h⟩ | ⟨-, -, -, h⟩ | ⟨-, -, -, h⟩ :=
      execBlkdec_spec s _ ((blockLength_iff s _).mpr rfl) <;> refine ⟨_, h, ?_⟩
    · exact .dataFaulted rfl (.inl (by decide))
    · exact .dataFaulted rfl (.inl (by decide))
    · exact compressedBlock_ended rfl s _
    · exact verbatimBlock_ended rfl s _

theorem exec_ended {i : Instr} {s t : State} (h : exec i s = .next t) : Ended i s t := by
  obtain ⟨u, hu, hend⟩ := exec_has_ended i s
  obtain rfl := Host.Outcome.next.inj (hu.symm.trans h)
  exact hend

/-! ### The kinds of fault are told apart by their codes -/

theorem streamCodes_ne {e : ResultCode} (he : e ∈ streamCodes) : e ≠ .ok ∧ e ≠ .cryptoPlatform ∧ e ∉ preCheckCodes := by
  revert e
  decide

section
variable {i : Instr} {e : ResultCode}

theorem IsPreCheck.ne_ok (he : IsPreCheck i e) : e ≠ .ok := by
  rintro rfl
  simp [IsPreCheck, preCheckCodes] at he

theorem IsPreCheck.not_mem_streamCodes (he : IsPreCheck i e) : e ∉ streamCodes := by
  intro hs
  obtain ⟨-, hplat, hpre⟩ := streamCodes_ne hs
  exact he.elim hpre fun h => hplat h.2

theorem not_isPreCheck_sngdec_cryptoPlatform : ¬ IsPreCheck .sngdec .cryptoPlatform := by
  simp [IsPreCheck, preCheckCodes]

end

section
variable {i : Instr} {s t : State}

/-- A fault sets `STICKY` (spec/60_exceptions.md R312). -/
theorem errStatus_sticky (s : State) {e : ResultCode} (he : e ≠ .ok) :
    (s.errStatus e).sticky = (s.status.sticky || (s.errStatus e).code != .ok) := by
  simp [State.errStatus, he]

theorem Ended.sticky (h : Ended i s t) (hi : i ≠ .srst) :
    t.status.sticky = (s.status.sticky || t.status.code != .ok) := by
  cases h with
  | ok hcode hsticky => simp [hsticky hi, hcode]
  | preCheck e he ht =>
    rw [ht, preCheckFaulted_status]
    exact errStatus_sticky s he.ne_ok
  | platform _ ht => exact ht ▸ errStatus_sticky s (by decide)
  | stream e he ht =>
    obtain ⟨hok, -, -⟩ := streamCodes_ne he
    rw [ht]
    exact errStatus_sticky s hok

end

/-! ### The statements about faults -/

/-- Settles O55: `STICKY` by the way the command ended, `SIZEMIS` by its effect. -/
theorem stickyRemembersEveryFault : Obligations.StickyRemembersEveryFault := by
  intro i s t h hi
  refine ⟨(exec_ended h).sticky hi, fun hmis => ?_⟩
  obtain ⟨hok, hsize⟩ := (exec_effect h).status.sizeMis hmis
  exact ⟨hok, reportsSize_iff.mp hsize⟩

/-- Settles O56: the code tells which way the command ended, and each way names its whole effect. -/
theorem faultsArePrecise : Obligations.FaultsArePrecise := by
  intro i s t h
  change (IsPreCheck i t.status.code → t = s.preCheckFaulted i t.status.code) ∧
    (i = .sngdec → t.status.code = .cryptoPlatform → t = s.platformFaulted) ∧ _
  cases exec_ended h with
  | ok hcode =>
    rw [hcode]
    exact ⟨fun he => absurd rfl he.ne_ok, nofun, fun he => absurd he (by decide)⟩
  | preCheck e he ht =>
    have hcode : t.status.code = e := by rw [ht, preCheckFaulted_status]; rfl
    rw [hcode]
    refine ⟨fun _ => ht, ?_, fun hs => absurd hs he.not_mem_streamCodes⟩
    rintro rfl rfl
    exact absurd he not_isPreCheck_sngdec_cryptoPlatform
  | platform hi ht =>
    subst hi
    have hcode : t.status.code = .cryptoPlatform := by rw [ht]; rfl
    rw [hcode]
    exact ⟨fun he => absurd he not_isPreCheck_sngdec_cryptoPlatform, fun _ _ => ht, fun hs => absurd hs (by decide)⟩
  | stream e he ht hframe =>
    have hcode : t.status.code = e := by rw [ht]; rfl
    obtain ⟨-, hplat, -⟩ := streamCodes_ne he
    rw [hcode]
    exact ⟨fun hpre => absurd he hpre.not_mem_streamCodes, fun _ heq => absurd heq hplat, fun _ => ⟨ht, hframe⟩⟩

end Sys2Proof.Machine
end

section
/-! SUPPORT. Reset and hazards (spec/70_reset_and_hazards.md): power-on as a reset with a new draw of `MEM` (R350), the
counter mode cut after whole blocks (R362), and the registers each command may write (R363). -/

namespace Sys2Proof.Machine

/-! ### Power-on -/

/-- Power-on is the reset of spec/10_state.md R42 under the next draw of `MEM`, beside the host's queue and reply. -/
theorem powerOn_eq_resetWith (s : State) :
    s.powerOn = { State.resetWith s.cfg (s.draw + 1) with inputs := s.inputs, reply := s.reply } := rfl

/-- Settles O19: the step takes the event from the queue, and the event is a reset under the next draw. -/
theorem powerOnResetsAndRedraws : Obligations.PowerOnResetsAndRedraws := by
  intro s rest h
  rw [step_pending h, hostStep, powerOn_eq_resetWith]
  rfl

/-! ### The counter mode in two pieces -/

/-- `m + n` blocks are `m` blocks, then `n` from the counter the first `m` left (spec/42_ctr_sng.md R182). -/
theorem ctrBlocks_append (w : KeySchedule) (m n : Nat) (iv : Block) (d e : List Byte) (hd : d.length = 16 * m) :
    ctrBlocks w (m + n) iv (d ++ e)
      = ((ctrBlocks w m iv d).1 ++ (ctrBlocks w n (ctrBlocks w m iv d).2 e).1,
          (ctrBlocks w n (ctrBlocks w m iv d).2 e).2) := by
  induction m generalizing iv d with
  | zero =>
    obtain rfl : d = [] := List.length_eq_zero_iff.mp hd
    simp [ctrBlocks]
  | succ m ih =>
    have hblock : 16 ≤ d.length := by omega
    have hrest : (d.drop 16).length = 16 * m := by rw [List.length_drop]; omega
    rw [Nat.add_right_comm, ctrBlocks, ctrBlocks, List.take_append_of_le_length hblock,
      List.drop_append_of_le_length hblock, ih (inc128 iv) (d.drop 16) hrest, List.append_assoc]

/-- Settles O30: the first piece fills its blocks, so the blocks of the whole are those of the two pieces. -/
theorem counterModeSplitsAtBlocks : Obligations.CounterModeSplitsAtBlocks := by
  intro k iv d e hd
  obtain ⟨m, hm⟩ := Nat.dvd_of_mod_eq_zero hd
  have hwhole : ((d ++ e).length + 15) / 16 = m + (e.length + 15) / 16 := by rw [List.length_append]; omega
  have hfirst : (d.length + 15) / 16 = m := by omega
  rw [ctrXform, ctrXform, ctrXform, hwhole, hfirst]
  exact ctrBlocks_append _ m _ iv d e hm

/-! ### The registers a command writes -/

/-- `s` with the fields that the command `i` may write taken from `t`: the "writes" of each command
(spec/10_state.md R23 to R35, spec/70_reset_and_hazards.md R363). -/
def State.takeWritten (i : Instr) (s t : State) : State :=
  match i with
  | .srst => t
  | .rdbe2 | .rdbe3 | .rdbe4 | .rdbe5 | .rdle4 => { s with status := t.status, src := t.src, val := t.val }
  | .wrbe2 | .wrbe3 | .wrbe4 | .wrbe5 | .wrle4 => { s with status := t.status, dst := t.dst, mem := t.mem }
  | .ztype => { s with status := t.status, val := t.val }
  | .ivld | .ivinc => { s with status := t.status, iv := t.iv }
  | .sngdet => { s with status := t.status, ectx := { s.ectx with enc := t.ectx.enc } }
  | .sngprobe => { s with status := t.status, iv := t.iv, ectx := { s.ectx with plat := t.ectx.plat } }
  | .sngdec =>
    { s with
      status := t.status, iv := t.iv, mem := t.mem, outlen := t.outlen, inlen := t.inlen
      ectx := { s.ectx with plat := t.ectx.plat, enc := t.ectx.enc } }
  | .ctrdecPc | .ctrdecMac | .ctrencPc | .ctrencMac | .sngenc =>
    { s with status := t.status, iv := t.iv, mem := t.mem, outlen := t.outlen, inlen := t.inlen }
  | .tocdec | .tocenc | .inflate =>
    { s with status := t.status, mem := t.mem, outlen := t.outlen, inlen := t.inlen }
  | .blkdec =>
    { s with
      status := t.status, mem := t.mem, outlen := t.outlen, inlen := t.inlen
      src := t.src, dst := t.dst, xlen := t.xlen }

section
variable {s t : State}

theorem codecRead_written {value : List Byte → Nat} {w : Nat} (h : codecRead value w s = t) :
    t = { s with status := t.status, src := t.src, val := t.val } := by
  subst h
  obtain ⟨-, h⟩ | ⟨-, h⟩ := codecRead_spec value w s
  · rw [h]
  · rw [h]
    rfl

theorem codecWrite_written {layout : Nat → Nat → List Byte} {w : Nat} (h : codecWrite layout w s = t) :
    t = { s with status := t.status, dst := t.dst, mem := t.mem } := by
  subst h
  obtain ⟨-, h⟩ | ⟨-, -, h⟩ | ⟨-, -, h⟩ := codecWrite_spec layout w s <;> rw [h] <;> rfl

theorem counterCommand_written {k : Key} (h : counterCommand k s = t) :
    t = { s with status := t.status, iv := t.iv, mem := t.mem, outlen := t.outlen, inlen := t.inlen } := by
  subst h
  obtain ⟨-, h⟩ | ⟨-, h⟩ | ⟨-, h⟩ := counterCommand_spec k s <;> rw [h] <;> rfl

theorem tocCommand_written {dir : CfbDir} (h : tocCommand dir s = t) :
    t = { s with status := t.status, mem := t.mem, outlen := t.outlen, inlen := t.inlen } := by
  subst h
  obtain ⟨-, h⟩ | ⟨-, h⟩ | ⟨-, h⟩ := tocCommand_spec dir s <;> rw [h] <;> rfl

theorem sngEncrypt_written {p : KeySel} (h : sngEncrypt p s = t) :
    t = { s with status := t.status, iv := t.iv, mem := t.mem, outlen := t.outlen, inlen := t.inlen } := by
  subst h
  obtain ⟨-, h⟩ | ⟨-, -, h⟩ | ⟨-, -, -, h⟩ | ⟨-, -, -, h⟩ := sngEncrypt_spec p s <;> rw [h] <;> rfl

theorem compressedBlock_written {n : Nat} (h : compressedBlock s n = t) : t = s.takeWritten .blkdec t := by
  subst h
  obtain ⟨-, h⟩ | ⟨-, -, h⟩ | ⟨-, -, ⟨_, _, -, h⟩ | ⟨_, _, -, h⟩⟩ := compressedBlock_spec s n <;> rw [h] <;> rfl

theorem verbatimBlock_written {n : Nat} (h : verbatimBlock s n = t) : t = s.takeWritten .blkdec t := by
  subst h
  obtain ⟨-, h⟩ | ⟨-, -, h⟩ | ⟨-, -, -, h⟩ | ⟨-, -, -, h⟩ := verbatimBlock_spec s n <;> rw [h] <;> rfl

end

/-- Every command changes no field but those that `takeWritten` lists for it. -/
theorem exec_has_written (i : Instr) (s : State) : ∃ t, exec i s = .next t ∧ t = s.takeWritten i t := by
  cases i with
  | srst | ztype | ivinc => exact ⟨_, rfl, rfl⟩
  | rdbe2 | rdbe3 | rdbe4 | rdbe5 | rdle4 => exact ⟨_, rfl, codecRead_written rfl⟩
  | wrbe2 | wrbe3 | wrbe4 | wrbe5 | wrle4 => exact ⟨_, rfl, codecWrite_written rfl⟩
  | ctrdecPc | ctrdecMac | ctrencPc | ctrencMac => exact ⟨_, rfl, counterCommand_written rfl⟩
  | tocdec | tocenc => exact ⟨_, rfl, tocCommand_written rfl⟩
  | ivld => obtain ⟨-, h⟩ | ⟨-, h⟩ := execIvld_spec s <;> exact ⟨_, h, rfl⟩
  | sngdet => obtain ⟨-, h⟩ | ⟨-, h⟩ := execSngdet_spec s <;> exact ⟨_, h, rfl⟩
  | sngprobe => obtain ⟨-, h⟩ | ⟨-, -, h⟩ | ⟨-, -, h⟩ := execSngprobe_spec s <;> exact ⟨_, h, rfl⟩
  | sngdec =>
    obtain ⟨-, h⟩ | ⟨-, -, h⟩ | ⟨-, -, -, h⟩ | ⟨-, -, -, -, h⟩ | ⟨-, -, -, -, -, h⟩ | ⟨-, -, h⟩ |
      ⟨-, _, _, -, -, h⟩ := execSngdec_spec s <;> exact ⟨_, h, rfl⟩
  | sngenc =>
    obtain ⟨-, h⟩ | ⟨-, -, -, h⟩ | ⟨k, -, h⟩ := execSngenc_spec s
    · exact ⟨_, h, rfl⟩
    · exact ⟨_, h, rfl⟩
    · exact ⟨_, h, sngEncrypt_written (s := s.beginData) rfl⟩
  | inflate =>
    obtain ⟨-, h⟩ | ⟨-, -, h⟩ | ⟨-, -, ⟨_, _, -, h⟩ | ⟨_, _, -, h⟩⟩ := execInflate_spec s <;> exact ⟨_, h, rfl⟩
  | blkdec =>
    obtain ⟨-, h⟩ | ⟨-, -, h⟩ | ⟨-, -, -, h⟩ | ⟨-, -, -, h⟩ :=
      execBlkdec_spec s _ ((blockLength_iff s _).mpr rfl)
    · exact ⟨_, h, rfl⟩
    · exact ⟨_, h, rfl⟩
    · exact ⟨_, h, compressedBlock_written (s := s.beginData) rfl⟩
    · exact ⟨_, h, verbatimBlock_written (s := s.beginData) rfl⟩

theorem exec_written {i : Instr} {s t : State} (h : exec i s = .next t) : t = s.takeWritten i t := by
  obtain ⟨u, hu, hw⟩ := exec_has_written i s
  obtain rfl := Host.Outcome.next.inj (hu.symm.trans h)
  exact hw

/-- Settles O59: by `exec_written`, a register is kept or its command is one of its writers. -/
theorem registersKeepTheirWriters : Obligations.RegistersKeepTheirWriters := by
  intro i s t h hi
  rw [exec_written h]
  cases i with
  | srst => exact absurd rfl hi
  | _ => simp [State.takeWritten, isData]

end Sys2Proof.Machine
end
